-- ==== Sys2Proof/Word.lean ====
section
/-! DEFINITION. The two word types of HTB: the 32-bit bus word and the byte of a memory cell. -/

namespace Sys2Proof

/-- A register or memory word on the bus, and a command word (20_memory.md R74, 30_encoding.md R89). -/
abbrev Word := BitVec 32

/-- One byte of a word (20_memory.md R74). -/
abbrev Byte := BitVec 8

end Sys2Proof
end

