-- ==== Sys2Proof/Syntax.lean ====
section
/-! DEFINITION. The commands of HTB, one constructor per row of spec/opcode_table.json. -/

namespace Sys2Proof

/-- A command (30_encoding.md R93). The one operand is PQ_INSERT's node id (R91); all others are implicit (R92). -/
inductive Instr where
  /-- NOP, 40_command_cycle.md R108. -/
  | nop
  /-- BUILD, 42_tree_builder.md R117. -/
  | build
  /-- GENCODES, 43_code_generator.md R128. -/
  | genCodes
  /-- DECODE, 44_decoder.md R134. -/
  | decode
  /-- PQ_CLEAR, 41_priority_queue.md R114. -/
  | pqClear
  /-- PQ_INSERT id, 41_priority_queue.md R115. -/
  | pqInsert (id : Nat)
  /-- PQ_EXTRACT, 41_priority_queue.md R116. -/
  | pqExtract
  deriving DecidableEq, Repr

end Sys2Proof
end

