-- ==== Sys2Proof/WellFormed.lean ====
section
/-! DEFINITION. Which commands a command word can carry. -/

namespace Sys2Proof

/-- The operand fits ARG, a 16-bit unsigned field (30_encoding.md R89, R91). An id of NODE_MAX or more is a
well-formed command: it fails at execution with BAD_OPERAND (R91). -/
def Instr.wellFormed : Instr → Bool
  | .nop => true
  | .build => true
  | .genCodes => true
  | .decode => true
  | .pqClear => true
  | .pqInsert id => decide (id < 2 ^ 16)
  | .pqExtract => true

end Sys2Proof
end

