-- ==== Sys2Proof/Decode.lean ====
section
/-! DEFINITION. The decoder of command words, total on every 32-bit word and rejecting by name, and the encoder. -/

namespace Sys2Proof

/-- Why a word is no command (30_encoding.md R94). Both end in ILLEGAL_COMMAND. -/
inductive Reject where
  /-- OP is 0x7..0xF. -/
  | illegalOpcode
  /-- OP is listed, but RSV is not 0, or ARG is not 0 and the opcode takes no operand. -/
  | reservedBitsSet
  deriving DecidableEq, Repr

/-- OP, bits [3:0] (R89). -/
def opField (w : Word) : Nat := w.toNat % 2 ^ 4

/-- RSV, bits [15:4] (R89). -/
def rsvField (w : Word) : Nat := w.toNat / 2 ^ 4 % 2 ^ 12

/-- ARG, bits [31:16] (R89, R91). -/
def argField (w : Word) : Nat := w.toNat / 2 ^ 16

/-- A command with no operand: bits [31:4] must be 0 (R96). -/
def plainCommand (w : Word) (i : Instr) : Except Reject Instr :=
  if rsvField w = 0 ∧ argField w = 0 then .ok i else .error .reservedBitsSet

/-- The decoding procedure of R96. -/
def decodeCmd (w : Word) : Except Reject Instr :=
  match opField w with
  | 0x0 => plainCommand w .nop
  | 0x1 => plainCommand w .build
  | 0x2 => plainCommand w .genCodes
  | 0x3 => plainCommand w .decode
  | 0x4 => plainCommand w .pqClear
  | 0x5 => if rsvField w = 0 then .ok (.pqInsert (argField w)) else .error .reservedBitsSet
  | 0x6 => plainCommand w .pqExtract
  | _ => .error .illegalOpcode

/-- The command word of fields OP and ARG, with RSV = 0 (R89). -/
def commandWord (op arg : Nat) : Word := BitVec.ofNat 32 (arg * 2 ^ 16 + op)

/-- The word of a command (R93, the match column; R98, the pseudo-statements). -/
def encode : Instr → Word
  | .nop => commandWord 0x0 0
  | .build => commandWord 0x1 0
  | .genCodes => commandWord 0x2 0
  | .decode => commandWord 0x3 0
  | .pqClear => commandWord 0x4 0
  | .pqInsert id => commandWord 0x5 id
  | .pqExtract => commandWord 0x6 0

/-- The command read from a word given as a number, bit 0 the least significant bit of the one word a command has
(R90). Bits at or above `nbits` are 0. -/
def decodeTableWord (nbits w : Nat) : Option Instr :=
  match decodeCmd (BitVec.ofNat 32 (w % 2 ^ nbits)) with
  | .ok i => some i
  | .error _ => none

end Sys2Proof
end

