-- ==== Sys2Proof/Config.lean ====
section
/-! DEFINITION. The parameters of an HTB instance, the sizes derived from them, and the free values
of what the spec leaves unspecified. -/

namespace Sys2Proof

/-- The implementation parameters (00_scope.md R9, R10, R11, R13). A state carries its own, so a claim about
every state is a claim about every configuration. DESIGN CHOICE (log 1), safe. -/
structure Config where
  /-- SYM_W, the width of a symbol (R9). -/
  symW : Nat
  /-- WEIGHT_W, the width of a weight and of a count (R10). -/
  weightW : Nat
  /-- BITS_MAX, the capacity of the encoded-bit memory in bits (R11). -/
  bitsMax : Nat
  /-- BASE, the address of the window (R13, OPEN). -/
  base : Nat
  deriving DecidableEq, Repr

namespace Config

/-- The size of the window, 512 KiB (20_memory.md R64). -/
def windowSize : Nat := 0x80000

/-- The legal values of the parameters (R9, R10, R11, R13). -/
abbrev Legal (c : Config) : Prop :=
  1 ≤ c.symW ∧ c.symW ≤ 8 ∧ 1 ≤ c.weightW ∧ c.weightW ≤ 32 ∧
    32 ≤ c.bitsMax ∧ c.bitsMax ≤ 65536 ∧ c.bitsMax % 32 = 0 ∧ c.base % windowSize = 0

/-- The default parameters (R9, R10, R11). BASE is OPEN (R13): the 0 here is a DESIGN CHOICE (log 1), unsafe for
a claim about `State.reset` alone. -/
def standard : Config where
  symW := 8
  weightW := 32
  bitsMax := 65536
  base := 0

/-- NSYM, the number of symbols (R12). -/
def nsym (c : Config) : Nat := 2 ^ c.symW

/-- NODE_MAX, the arena's capacity (R12). -/
def nodeMax (c : Config) : Nat := 2 * c.nsym - 1

/-- ID_W, the width of a node id (R12). -/
def idW (c : Config) : Nat := c.symW + 1

/-- NIL, the id of an absent child (R12). -/
def nil (c : Config) : Nat := 2 ^ c.idW - 1

/-- HEAP_MAX, the queue's capacity (R12). -/
def heapMax (c : Config) : Nat := c.nsym

/-- MAX_CODE_LEN, the longest codeword (R12). -/
def maxCodeLen (c : Config) : Nat := max 1 (c.nsym - 1)

/-- OUT_MAX, the capacity of the output memory (R12). -/
def outMax (c : Config) : Nat := c.bitsMax

/-- FREE VALUE. The byte that nothing has written since reset number `epoch`, at window offset `off`: the spec
leaves it unspecified and "must not assume zero" (10_state.md R63). It has no body, so nothing is known of it.
DESIGN CHOICE of form (log 2), safe. -/
opaque powerOn (epoch off : Nat) : Byte

/-- FREE VALUE. The answer to unspecified read number `n` (40_command_cycle.md R106, "a free draw").
DESIGN CHOICE of form (log 3), safe. -/
opaque draw (n : Nat) : Word

end Config

end Sys2Proof
end

