-- ==== Sys2Proof/Machine/State.lean ====
section
/-! DEFINITION. The state of HTB as plain data, the ways a step can stop, and the state after reset. -/

namespace Sys2Proof.Machine

/-- The values of STATUS.ERR (60_exceptions.md R143); `ErrCode.code` gives the numbers. -/
inductive ErrCode where
  /-- 0x00, success. -/
  | ok
  /-- 0x01, BUILD: every FREQ[s] = 0. -/
  | emptyInput
  /-- 0x02, PQ_EXTRACT: HEAP_SIZE = 0. -/
  | emptyQueue
  /-- 0x03, reserved: HTB never raises it (R144); the host-side HostEncode fails with it. -/
  | unknownSymbol
  /-- 0x04, DECODE: a NIL child, or a 1 bit in single-symbol mode. -/
  | malformedEncoding
  /-- 0x05, DECODE: the input ended inside a codeword. -/
  | truncatedEncoding
  /-- 0x06, BUILD: the sum of the counts reaches 2^WEIGHT_W. -/
  | weightOverflow
  /-- 0x07, GENCODES: TREE_VALID = 0. -/
  | noTree
  /-- 0x08, PQ_INSERT: HEAP_SIZE = HEAP_MAX. -/
  | heapFull
  /-- 0x09: the word matches no row of the opcode table. -/
  | illegalCommand
  /-- 0x0A: ARG ≥ NODE_MAX, ROOT = NIL, or BIT_LEN > BITS_MAX. -/
  | badOperand
  deriving DecidableEq, Repr

/-- The flags of STATUS (10_state.md R35). -/
structure Status where
  busy : Bool
  done : Bool
  treeValid : Bool
  codesValid : Bool
  overrun : Bool
  err : ErrCode
  deriving DecidableEq, Repr

/-- A memory of the block: (window offset, byte) cells. An offset that is not listed has not been written since
reset; it reads as the free value `Config.powerOn` (10_state.md R63). -/
abbrev Memory := List Host.Cell

/-- The canonical form of a memory: offsets strictly rising. An unlisted offset holds no known value, so no entry
can equal what it reads as. -/
abbrev Memory.wf (m : Memory) : Prop := m.Pairwise (fun c d => c.1 < d.1)

/-- A host access on the bus: `MemRead(addr, bytes)` or `MemWrite(addr, bytes, v)` (00_scope.md R18). Only
`bytes = 4` at an aligned address is admitted (20_memory.md R75). -/
inductive Access where
  | read (addr bytes : Nat)
  | write (addr bytes : Nat) (v : Word)
  deriving DecidableEq, Repr

/-- What happens next, seen from outside the engine. -/
inductive Event where
  /-- The host performs one access (10_state.md R27). -/
  | host (a : Access)
  /-- The engine takes its step, if it is enabled (40_command_cycle.md R100). -/
  | engine
  /-- The reset input is asserted (70_reset_and_hazards.md R158). -/
  | assertReset
  /-- The reset input is released (R158). -/
  | releaseReset
  deriving DecidableEq, Repr

/-- The value a host read returned (20_memory.md R77). -/
structure Reply where
  addr : Nat
  value : Word
  deriving DecidableEq, Repr

/-- Why the machine stops with no further step. -/
inductive Fault where
  /-- Raised by GENCODES alone, when its walk would visit more nodes than the arena has: the arena then holds a
  cycle or a shared child although TREE_VALID = 1, which no run from reset reaches (43_code_generator.md R128).
  Safe: the model stops where the spec gives no end (log 8). -/
  | traversalEndless
  deriving DecidableEq, Repr

/-- Why a step is refused. -/
inductive Refusal where
  /-- An instruction of the table that has no meaning yet. None is left. Safe. -/
  | notModelled (mnemonic : String)
  /-- The spec's HostAccessRefused: an access that is not 32 bits wide, or not at a multiple of 4
  (20_memory.md R75). Raised by a host access. Safe. -/
  | hostAccessRefused
  /-- A host access while the reset input is asserted (70_reset_and_hazards.md R158). Raised by a host access. Safe. -/
  | hostAccessDuringReset
  /-- An access to an address outside the block's window, which is no access to HTB (20_memory.md R64, R81).
  Raised by a host access. Safe (log 9). -/
  | outsideWindow
  deriving DecidableEq, Repr

/-- The state of one HTB instance (10_state.md). Register fields are numbers; `State.Inv` bounds them by their
widths. ID, CFG, CFG_BITS and the IRQ output are computed from the other fields. -/
structure State where
  /-- SYM_W, WEIGHT_W, BITS_MAX and BASE, constant (R31, R32). -/
  cfg : Config
  /-- CTRL.IE (R33). -/
  ie : Bool
  /-- STATUS (R35). -/
  status : Status
  /-- ERR_INFO (R42). -/
  errInfo : Word
  /-- ROOT (R43). -/
  root : Nat
  /-- LEAF_COUNT (R44). -/
  leafCount : Nat
  /-- NODE_COUNT (R45). -/
  nodeCount : Nat
  /-- HEAP_SIZE (R46). -/
  heapSize : Nat
  /-- PQ_RESULT (R47). -/
  pqResult : Nat
  /-- BIT_LEN (R48). -/
  bitLen : Nat
  /-- BIT_IDX (R49). -/
  bitIdx : Nat
  /-- OUT_COUNT (R50). -/
  outCount : Nat
  /-- CMDLAT (R60). -/
  cmdlat : Word
  /-- FREQ (R52). -/
  freq : Memory
  /-- NODE (R53). -/
  node : Memory
  /-- HEAP (R55). -/
  heap : Memory
  /-- CODE (R56). -/
  code : Memory
  /-- The encoded-bit memory (R57). -/
  bits : Memory
  /-- OUT (R58). -/
  out : Memory
  /-- The reset input is asserted (70_reset_and_hazards.md R158). -/
  inReset : Bool
  /-- What the host, the engine and the reset input do next, first event first (log 5). -/
  script : List Event
  /-- What the host's reads returned, newest first (log 12). -/
  replies : List Reply
  /-- How many unspecified reads have been answered (log 3). -/
  draws : Nat
  /-- How many resets the block has taken (log 2). -/
  epoch : Nat
  deriving DecidableEq, Repr

/-- STATUS after reset (R62). -/
def Status.reset : Status where
  busy := false
  done := false
  treeValid := false
  codesValid := false
  overrun := false
  err := .ok

/-- The state right after reset of an instance with parameters `c` (R62, R63, R159). Every memory is unspecified:
nothing is listed. DESIGN CHOICE: `cmdlat` 0 (log 7), `script` empty (log 5), `replies` empty (log 12),
`draws` 0 (log 3), `epoch` 0 (log 2). -/
def State.resetWith (c : Config) : State where
  cfg := c
  ie := false
  status := .reset
  errInfo := 0
  root := 0
  leafCount := 0
  nodeCount := 0
  heapSize := 0
  pqResult := c.nil
  bitLen := 0
  bitIdx := 0
  outCount := 0
  cmdlat := 0
  freq := []
  node := []
  heap := []
  code := []
  bits := []
  out := []
  inReset := false
  script := []
  replies := []
  draws := 0
  epoch := 0

/-- The state right after reset of the default configuration (log 1). -/
def State.reset : State := .resetWith .standard

end Sys2Proof.Machine
end

