-- ==== Sys2Proof/Machine/Ops.lean ====
section
/-! DEFINITION. The shared operations: bit fields, byte-addressed memories, the command cycle (acceptance, completion,
raising an error, acknowledging), and reset. -/

namespace Sys2Proof.Machine

/-! ## Bit fields (00_scope.md R16) -/

/-- `v[w-1:0]`: the low `w` bits. -/
def low (w v : Nat) : Nat := v % 2 ^ w

/-- `v[i]`: bit `i`. -/
def bitOf (v i : Nat) : Bool := decide (v / 2 ^ i % 2 = 1)

/-- The bus word that holds a number (`zext_32`, R16). -/
def toWord (v : Nat) : Word := BitVec.ofNat 32 v

/-! ## Memories -/

/-- The byte listed at offset `a`, if any. -/
def Memory.lookup : Memory → Nat → Option Byte
  | [], _ => none
  | (k, b) :: m, a => if k = a then some b else Memory.lookup m a

/-- The byte at offset `a`: the one last written since reset number `epoch`, else the free value of that reset
(10_state.md R63). -/
def Memory.byte (epoch : Nat) (m : Memory) (a : Nat) : Byte :=
  (Memory.lookup m a).getD (Config.powerOn epoch a)

/-- The `n` bytes from offset `a` as one little-endian number (20_memory.md R74). -/
def Memory.load (epoch : Nat) (m : Memory) : Nat → Nat → Nat
  | _, 0 => 0
  | a, n + 1 => (Memory.byte epoch m a).toNat + 2 ^ 8 * Memory.load epoch m (a + 1) n

/-- The low `n` bytes of `v`, least significant first (R74). -/
def leBytes : Nat → Nat → List Byte
  | 0, _ => []
  | n + 1, v => BitVec.ofNat 8 v :: leBytes n (v / 2 ^ 8)

/-- The cells of `bs` from offset `a` on. -/
def cellsAt : Nat → List Byte → Memory
  | _, [] => []
  | a, b :: bs => (a, b) :: cellsAt (a + 1) bs

/-- Write the bytes `bs` from offset `a` on, keeping the canonical form. -/
def Memory.store (m : Memory) (a : Nat) (bs : List Byte) : Memory :=
  m.filter (fun c => decide (c.1 < a)) ++ cellsAt a bs ++ m.filter (fun c => decide (a + bs.length ≤ c.1))

/-- Write the 32-bit word `v` at offset `a`. -/
def Memory.storeWord (m : Memory) (a v : Nat) : Memory := Memory.store m a (leBytes 4 v)

/-- The 32-bit word at offset `a`. -/
def Memory.loadWord (epoch : Nat) (m : Memory) (a : Nat) : Nat := Memory.load epoch m a 4

/-! ## The command cycle -/

/-- Acceptance of the command word `v` (40_command_cycle.md R99). It does not check the word. -/
def accept (v : Word) (s : State) : State :=
  { s with
    cmdlat := v
    status := { s.status with busy := true, done := false, err := .ok }
    errInfo := 0 }

/-- Completion of a command with its code and detail (R101). -/
def complete (code : ErrCode) (info : Word) (s : State) : State :=
  { s with
    status := { s.status with err := code, busy := false, done := true }
    errInfo := info }

/-- Taking an error: `raise E(info)` ends the command at once with error `E` (00_scope.md R19, 60_exceptions.md R148).
No mode changes, nothing else is saved, and control goes nowhere: the block is idle afterwards. -/
def raise (code : ErrCode) (info : Nat) (s : State) : State := complete code (toWord info) s

/-- A command that ends normally: code 0x00 and detail 0 (R101). -/
def succeed (s : State) : State := complete .ok 0 s

/-- The return from an error: there is no return command, the host acknowledges by clearing DONE; ERR and ERR_INFO
stay (60_exceptions.md R149, 10_state.md R37). -/
def acknowledge (s : State) : State :=
  { s with status := { s.status with done := false } }

/-- An ignored write while BUSY (R105, 10_state.md R40). -/
def setOverrun (s : State) : State :=
  { s with status := { s.status with overrun := true } }

/-! ## Reset (70_reset_and_hazards.md R158) -/

/-- Every register at its reset value and every memory unspecified (10_state.md R62, R63). What is outside the block
stays: the script, the replies and the draws already given. -/
def resetBlock (s : State) : State :=
  { State.resetWith s.cfg with
    inReset := s.inReset
    script := s.script
    replies := s.replies
    draws := s.draws
    epoch := s.epoch + 1 }

/-- The reset input is asserted: a command in progress is abandoned without completing (R158). -/
def assertReset (s : State) : State := { resetBlock s with inReset := true }

/-- The reset input is released (R158): the registers take their reset values again. Nothing happens if it was not
asserted. -/
def releaseReset (s : State) : State :=
  if s.inReset then { resetBlock s with inReset := false } else s

end Sys2Proof.Machine
end

