-- ==== Sys2Proof/Machine/Flags.lean ====
section
/-! DEFINITION. The flags: the error codes' numbers, STATUS as a word, the W1C bits, the validity flags and the IRQ
output. -/

namespace Sys2Proof.Machine

/-- The number of an error code (60_exceptions.md R143). -/
def ErrCode.code : ErrCode → Nat
  | .ok => 0x00
  | .emptyInput => 0x01
  | .emptyQueue => 0x02
  | .unknownSymbol => 0x03
  | .malformedEncoding => 0x04
  | .truncatedEncoding => 0x05
  | .weightOverflow => 0x06
  | .noTree => 0x07
  | .heapFull => 0x08
  | .illegalCommand => 0x09
  | .badOperand => 0x0A

/-- STATUS as the host reads it (10_state.md R35). -/
def Status.word (t : Status) : Word :=
  toWord (t.busy.toNat + 2 ^ 1 * t.done.toNat + 2 ^ 2 * t.treeValid.toNat + 2 ^ 3 * t.codesValid.toNat
    + 2 ^ 4 * t.overrun.toNat + 2 ^ 8 * t.err.code)

/-- STATUS as the host reads it while BUSY = 1: BUSY = 1, DONE = 0, ERR = 0x00, the current OVERRUN, and TREE_VALID
and CODES_VALID from the free value `draw` (40_command_cycle.md R106). -/
def Status.busyWord (t : Status) (draw : Word) : Word :=
  toWord (1 + 2 ^ 2 * low 2 (draw.toNat / 2 ^ 2) + 2 ^ 4 * t.overrun.toNat)

/-- The interrupt output, DONE AND IE (10_state.md R51, 60_exceptions.md R146). -/
def State.irq (s : State) : Bool := s.status.done && s.ie

/-- The event that clears TREE_VALID clears CODES_VALID too (10_state.md R38, R39). -/
def clearValid (s : State) : State :=
  { s with status := { s.status with treeValid := false, codesValid := false } }

/-- A host write of OVERRUN's bit as 1 (10_state.md R40). -/
def clearOverrun (s : State) : State :=
  { s with status := { s.status with overrun := false } }

/-- A host write of STATUS: bit [1] clears DONE, bit [4] clears OVERRUN, all else is ignored (10_state.md R35, R37,
R40, and 40_command_cycle.md R105 while BUSY). -/
def writeStatus (v : Nat) (s : State) : State :=
  let s := if bitOf v 1 then acknowledge s else s
  if bitOf v 4 then clearOverrun s else s

end Sys2Proof.Machine
end

