-- ==== Sys2Proof/Machine/Operands.lean ====
section
/-! DEFINITION. The operands of the commands: the elements of the six memories, read and written by index
(00_scope.md R17), with the layouts of 20_memory.md R68 to R73. -/

namespace Sys2Proof.Machine

/-- One arena slot, the source's TreeNode (10_state.md R53). -/
structure Node where
  isLeaf : Bool
  sym : Nat
  weight : Nat
  left : Nat
  right : Nat
  deriving DecidableEq, Repr

/-- One code-table entry (10_state.md R56). Digit `j` of the codeword is bit `j` of `bits`. -/
structure CodeEntry where
  valid : Bool
  len : Nat
  bits : Nat
  deriving DecidableEq, Repr

/-! ## Offsets -/

/-- FREQ word `s` (20_memory.md R68). -/
def freqAddr (s : Nat) : Nat := 0x01000 + 4 * s

/-- Word 0 of NODE slot `id` (R69). -/
def nodeAddr (id : Nat) : Nat := 0x02000 + 16 * id

/-- HEAP word `i` (R70). -/
def heapAddr (i : Nat) : Nat := 0x04000 + 4 * i

/-- Word 0 of CODE entry `s` (R71). -/
def codeAddr (s : Nat) : Nat := 0x08000 + 64 * s

/-- BITS word `w` (R72). -/
def bitsAddr (w : Nat) : Nat := 0x10000 + 4 * w

/-- OUT word `k` (R73). -/
def outAddr (k : Nat) : Nat := 0x40000 + 4 * k

/-! ## FREQ -/

/-- `FREQ[s]` (10_state.md R52). -/
def State.freqAt (s : State) (sym : Nat) : Nat :=
  low s.cfg.weightW (Memory.loadWord s.epoch s.freq (freqAddr sym))

/-- `FREQ[s] <- v[WEIGHT_W-1:0]` (20_memory.md R68). -/
def setFreq (s : State) (sym v : Nat) : State :=
  { s with freq := Memory.storeWord s.freq (freqAddr sym) (low s.cfg.weightW v) }

/-! ## NODE -/

/-- What word `j` of a NODE slot keeps of a written `v` (20_memory.md R69). -/
def nodeField (c : Config) (j v : Nat) : Nat :=
  match j with
  | 0 => 2 ^ 31 * (bitOf v 31).toNat + low c.symW v
  | 1 => low c.weightW v
  | _ => low c.idW v

/-- `NODE[id]` (10_state.md R53, 20_memory.md R69). -/
def State.nodeAt (s : State) (id : Nat) : Node where
  isLeaf := bitOf (Memory.loadWord s.epoch s.node (nodeAddr id)) 31
  sym := low s.cfg.symW (Memory.loadWord s.epoch s.node (nodeAddr id))
  weight := low s.cfg.weightW (Memory.loadWord s.epoch s.node (nodeAddr id + 4))
  left := low s.cfg.idW (Memory.loadWord s.epoch s.node (nodeAddr id + 8))
  right := low s.cfg.idW (Memory.loadWord s.epoch s.node (nodeAddr id + 12))

/-- Word `j` of a slot's four words (20_memory.md R69). -/
def Node.word (n : Node) (j : Nat) : Nat :=
  match j with
  | 0 => 2 ^ 31 * n.isLeaf.toNat + n.sym
  | 1 => n.weight
  | 2 => n.left
  | _ => n.right

/-- Store `v` into word `j` of NODE slot `id`, the listed fields only (20_memory.md R69). -/
def setNodeWord (s : State) (id j v : Nat) : State :=
  { s with node := Memory.storeWord s.node (nodeAddr id + 4 * j) (nodeField s.cfg j v) }

/-- `NODE[id] <- n`, all four words. -/
def setNode (s : State) (id : Nat) (n : Node) : State :=
  setNodeWord (setNodeWord (setNodeWord (setNodeWord s id 0 (n.word 0)) id 1 (n.word 1)) id 2 (n.word 2)) id 3 (n.word 3)

/-- The ordering key of a queue entry (41_priority_queue.md R109). -/
def State.key (s : State) (id : Nat) : Nat × Nat := ((s.nodeAt id).weight, id)

/-- Lexicographic less-than on keys (00_scope.md R21). -/
abbrev lexLt (p q : Nat × Nat) : Prop := p.1 < q.1 ∨ (p.1 = q.1 ∧ p.2 < q.2)

/-! ## HEAP -/

/-- `HEAP[i]` (10_state.md R55). -/
def State.heapAt (s : State) (i : Nat) : Nat :=
  low s.cfg.idW (Memory.loadWord s.epoch s.heap (heapAddr i))

/-- `HEAP[i] <- id`. -/
def setHeap (s : State) (i id : Nat) : State :=
  { s with heap := Memory.storeWord s.heap (heapAddr i) (low s.cfg.idW id) }

/-- `swap HEAP[i], HEAP[j]` (41_priority_queue.md R111). -/
def swapHeap (s : State) (i j : Nat) : State :=
  setHeap (setHeap s i (s.heapAt j)) j (s.heapAt i)

/-! ## CODE -/

/-- `CODE[s]` (10_state.md R56, 20_memory.md R71). -/
def State.codeAt (s : State) (sym : Nat) : CodeEntry where
  valid := bitOf (Memory.loadWord s.epoch s.code (codeAddr sym)) 31
  len := low 16 (Memory.loadWord s.epoch s.code (codeAddr sym))
  bits := low s.cfg.maxCodeLen (Memory.load s.epoch s.code (codeAddr sym + 4) 32)

/-- `CODE[s] <- e`: word 0, then the eight words of BITS. -/
def setCode (s : State) (sym : Nat) (e : CodeEntry) : State :=
  { s with
    code := Memory.store
      (Memory.storeWord s.code (codeAddr sym) (2 ^ 31 * e.valid.toNat + low 16 e.len))
      (codeAddr sym + 4) (leBytes 32 (low s.cfg.maxCodeLen e.bits)) }

/-- The cells of a CODE memory whose every entry has VALID = 0, LEN = 0, BITS = 0: words 0 to 8 of each. -/
def clearedCode (nsym : Nat) : Memory :=
  (List.range nsym).flatMap (fun sym => cellsAt (codeAddr sym) (List.replicate 36 0))

/-- `for s in 0..NSYM-1: CODE[s] <- {VALID:0, LEN:0, BITS:0}` (43_code_generator.md R128). -/
def clearCodes (s : State) : State := { s with code := clearedCode s.cfg.nsym }

/-! ## Encoded bits and OUT -/

/-- `BIT(i)`, LSB-first (20_memory.md R72). -/
def State.bitAt (s : State) (i : Nat) : Bool :=
  bitOf (Memory.loadWord s.epoch s.bits (bitsAddr (i / 32))) (i % 32)

/-- Store `v` into BITS word `w` (20_memory.md R72). -/
def setBits (s : State) (w v : Nat) : State :=
  { s with bits := Memory.storeWord s.bits (bitsAddr w) v }

/-- `OUT[k]` (10_state.md R58). -/
def State.outAt (s : State) (k : Nat) : Nat :=
  low s.cfg.symW (Memory.loadWord s.epoch s.out (outAddr k))

/-- `OUT[k] <- sym`. -/
def setOut (s : State) (k sym : Nat) : State :=
  { s with out := Memory.storeWord s.out (outAddr k) (low s.cfg.symW sym) }

/-! ## One byte of any memory -/

/-- The memory that a window offset at or above 0x1000 belongs to (20_memory.md R65). -/
def State.memoryAt (s : State) (off : Nat) : Memory :=
  if off < 0x2000 then s.freq
  else if off < 0x4000 then s.node
  else if off < 0x5000 then s.heap
  else if off < 0x10000 then s.code
  else if off < 0x12000 then s.bits
  else s.out

/-- The byte at window offset `off` of the memory it belongs to (20_memory.md R74), for statements of what a command
leaves unchanged. -/
def State.memByte (s : State) (off : Nat) : Byte := Memory.byte s.epoch (s.memoryAt off) off

end Sys2Proof.Machine
end

