-- ==== Sys2Proof/Machine/Bus.lean ====
section
/-! DEFINITION. The host's accesses: the address map (20_memory.md R64 to R67), what a read returns (R77,
40_command_cycle.md R106) and what a write does (R78, R105). -/

namespace Sys2Proof.Machine

/-- The registers of the block (10_state.md R30 to R50). -/
inductive Reg where
  | id | cfg | cfgBits | ctrl | cmd | status | errInfo | root | leafCount | nodeCount
  | heapSize | pqResult | bitLen | bitIdx | outCount
  deriving DecidableEq, Repr

/-- What stands at a window offset. -/
inductive Place where
  /-- A register. -/
  | reg (r : Reg)
  /-- FREQ word `sym`. -/
  | freq (sym : Nat)
  /-- Word `j` of NODE slot `id`. -/
  | node (id j : Nat)
  /-- HEAP word `i`. -/
  | heap (i : Nat)
  /-- Word `j` of CODE entry `sym`. -/
  | code (sym j : Nat)
  /-- BITS word `w`. -/
  | bits (w : Nat)
  /-- OUT word `k`. -/
  | out (k : Nat)
  /-- A reserved or unmapped offset: it reads 0 and ignores writes (20_memory.md R66, R67). -/
  | nothing
  deriving DecidableEq, Repr

/-- The register at an offset of the register region, if any (20_memory.md R66). -/
def regAt (off : Nat) : Option Reg :=
  match off with
  | 0x000 => some .id
  | 0x004 => some .cfg
  | 0x008 => some .cfgBits
  | 0x010 => some .ctrl
  | 0x014 => some .cmd
  | 0x018 => some .status
  | 0x01C => some .errInfo
  | 0x020 => some .root
  | 0x024 => some .leafCount
  | 0x028 => some .nodeCount
  | 0x02C => some .heapSize
  | 0x030 => some .pqResult
  | 0x034 => some .bitLen
  | 0x038 => some .bitIdx
  | 0x03C => some .outCount
  | _ => none

/-- The place if it is within the memory's configured size, else nothing (20_memory.md R67). -/
def within (ok : Bool) (p : Place) : Place := if ok then p else .nothing

/-- The address map (20_memory.md R65, R66, R67), for offsets that are multiples of 4. -/
def locate (c : Config) (off : Nat) : Place :=
  if off < 0x01000 then (match regAt off with | some r => .reg r | none => .nothing)
  else if off < 0x02000 then
    within (decide ((off - 0x01000) / 4 < c.nsym)) (.freq ((off - 0x01000) / 4))
  else if off < 0x04000 then
    within (decide ((off - 0x02000) / 16 < c.nodeMax)) (.node ((off - 0x02000) / 16) ((off - 0x02000) % 16 / 4))
  else if off < 0x05000 then
    within (decide ((off - 0x04000) / 4 < c.heapMax)) (.heap ((off - 0x04000) / 4))
  else if off < 0x08000 then .nothing
  else if off < 0x10000 then
    within (decide ((off - 0x08000) / 64 < c.nsym)) (.code ((off - 0x08000) / 64) ((off - 0x08000) % 64 / 4))
  else if off < 0x12000 then
    within (decide ((off - 0x10000) / 4 < c.bitsMax / 32)) (.bits ((off - 0x10000) / 4))
  else if off < 0x40000 then .nothing
  else if off < 0x80000 then
    within (decide ((off - 0x40000) / 4 < c.outMax)) (.out ((off - 0x40000) / 4))
  else .nothing

/-! ## Reads -/

/-- The constant of ID, "HUFF" (10_state.md R30). -/
def idWord : Word := 0x48554646

/-- CFG: SYM_W in [3:0], WEIGHT_W in [13:8], REV = 0x01 in [23:16] (10_state.md R31). -/
def cfgWord (c : Config) : Word := toWord (low 4 c.symW + 2 ^ 8 * low 6 c.weightW + 2 ^ 16 * 0x01)

/-- The value of a register while BUSY = 0 (10_state.md R30 to R50). CMD reads 0 (R34). -/
def readReg (s : State) : Reg → Word
  | .id => idWord
  | .cfg => cfgWord s.cfg
  | .cfgBits => toWord s.cfg.bitsMax
  | .ctrl => toWord s.ie.toNat
  | .cmd => 0
  | .status => s.status.word
  | .errInfo => s.errInfo
  | .root => toWord s.root
  | .leafCount => toWord s.leafCount
  | .nodeCount => toWord s.nodeCount
  | .heapSize => toWord s.heapSize
  | .pqResult => toWord s.pqResult
  | .bitLen => toWord s.bitLen
  | .bitIdx => toWord s.bitIdx
  | .outCount => toWord s.outCount

/-- Word `j` of a CODE entry (20_memory.md R71): word 0 is VALID and LEN, words 1 to 8 are BITS, words 9 to 15
read 0. -/
def CodeEntry.word (e : CodeEntry) (j : Nat) : Nat :=
  if j = 0 then 2 ^ 31 * e.valid.toNat + e.len
  else if j ≤ 8 then low 32 (e.bits / 2 ^ (32 * (j - 1)))
  else 0

/-- The value of a place while BUSY = 0 (20_memory.md R66 to R73). -/
def readPlace (s : State) : Place → Word
  | .reg r => readReg s r
  | .freq sym => toWord (s.freqAt sym)
  | .node id j => toWord ((s.nodeAt id).word j)
  | .heap i => toWord (s.heapAt i)
  | .code sym j => toWord ((s.codeAt sym).word j)
  | .bits w => toWord (Memory.loadWord s.epoch s.bits (bitsAddr w))
  | .out k => toWord (s.outAt k)
  | .nothing => 0

/-- The places whose value is known while BUSY = 1: ID, CFG, CFG_BITS and CTRL (40_command_cycle.md R106), and the
reserved and unmapped offsets, which are no register and no memory word. DEDUCED from 20_memory.md R66, R67, R77
(log 4), unsafe. -/
def knownWhileBusy : Place → Bool
  | .reg .id => true
  | .reg .cfg => true
  | .reg .cfgBits => true
  | .reg .ctrl => true
  | .nothing => true
  | _ => false

/-- The value of a place while BUSY = 1 (40_command_cycle.md R106): all but the known places depend on the free
value of this read. -/
def busyReadPlace (s : State) (p : Place) : Word :=
  if knownWhileBusy p then readPlace s p
  else if p = .reg .status then s.status.busyWord (Config.draw s.draws)
  else Config.draw s.draws

/-- `MemRead(addr, 4)` of the word at `off` (20_memory.md R77): the value goes to the host, and the block is
unchanged. An unspecified answer uses up one draw. -/
def hostRead (addr off : Nat) (s : State) : State :=
  let p := locate s.cfg off
  if s.status.busy then
    { s with
      replies := { addr := addr, value := busyReadPlace s p } :: s.replies
      draws := if knownWhileBusy p then s.draws else s.draws + 1 }
  else { s with replies := { addr := addr, value := readPlace s p } :: s.replies }

/-! ## Writes -/

/-- `CTRL.IE <- v[0]` (10_state.md R33). -/
def writeCtrl (v : Nat) (s : State) : State := { s with ie := bitOf v 0 }

/-- `ROOT <- v[ID_W-1:0]`, which clears TREE_VALID and CODES_VALID (10_state.md R43). -/
def writeRoot (v : Nat) (s : State) : State := clearValid { s with root := low s.cfg.idW v }

/-- `BIT_LEN <- v[16:0]` (10_state.md R48). -/
def writeBitLen (v : Nat) (s : State) : State := { s with bitLen := low 17 v }

/-- A host write while BUSY = 0 (20_memory.md R78): a field store, a W1C, an acceptance, or nothing. -/
def writePlace (p : Place) (v : Word) (s : State) : State :=
  match p with
  | .reg .ctrl => writeCtrl v.toNat s
  | .reg .cmd => accept v s
  | .reg .status => writeStatus v.toNat s
  | .reg .root => writeRoot v.toNat s
  | .reg .bitLen => writeBitLen v.toNat s
  | .freq sym => setFreq s sym v.toNat
  | .node id j => clearValid (setNodeWord s id j v.toNat)
  | .bits w => setBits s w v.toNat
  | _ => s

/-- A host write while BUSY = 1 (40_command_cycle.md R105). -/
def busyWritePlace (p : Place) (v : Word) (s : State) : State :=
  match p with
  | .reg .ctrl => writeCtrl v.toNat s
  | .reg .status => writeStatus v.toNat s
  | _ => setOverrun s

/-- `MemWrite(addr, 4, v)` to the word at `off` (20_memory.md R78). -/
def hostWrite (off : Nat) (v : Word) (s : State) : State :=
  if s.status.busy then busyWritePlace (locate s.cfg off) v s else writePlace (locate s.cfg off) v s

/-! ## Admission -/

/-- The window offset of an admitted access, or why it is refused (20_memory.md R64, R75; 70_reset_and_hazards.md
R158). -/
def admission (s : State) (addr bytes : Nat) : Except Refusal Nat :=
  if s.inReset then .error .hostAccessDuringReset
  else if addr < s.cfg.base ∨ s.cfg.base + Config.windowSize ≤ addr then .error .outsideWindow
  else if bytes ≠ 4 ∨ (addr - s.cfg.base) % 4 ≠ 0 then .error .hostAccessRefused
  else .ok (addr - s.cfg.base)

/-- One host access. -/
def hostAccess (a : Access) (s : State) : Host.Outcome State Fault Refusal :=
  match a with
  | .read addr bytes =>
    match admission s addr bytes with
    | .ok off => .next (hostRead addr off s)
    | .error r => .refused r
  | .write addr bytes v =>
    match admission s addr bytes with
    | .ok off => .next (hostWrite off v s)
    | .error r => .refused r

end Sys2Proof.Machine
end

