-- ==== Sys2Proof/Machine/Cycle.lean ====
section
/-! DEFINITION. One turn of the machine: an engine step, a host access or an edge of the reset input. The meaning of
a command comes in as the argument `run`. -/

namespace Sys2Proof.Machine

/-- The engine step (40_command_cycle.md R100), enabled iff BUSY = 1: decode CMDLAT, run the command. A word that is
no command completes with ILLEGAL_COMMAND and the word as detail (30_encoding.md R94, R96). An idle engine does
nothing (60_exceptions.md R157). -/
def engineTurn (run : Instr → State → Host.Outcome State Fault Refusal) (s : State) :
    Host.Outcome State Fault Refusal :=
  if s.status.busy then
    match decodeCmd s.cmdlat with
    | .ok i => run i s
    | .error _ => .next (complete .illegalCommand s.cmdlat s)
  else .next s

/-- What an event does, once it is off the script. -/
def takeEvent (run : Instr → State → Host.Outcome State Fault Refusal) (e : Event) (s : State) :
    Host.Outcome State Fault Refusal :=
  match e with
  | .host a => hostAccess a s
  | .engine => engineTurn run s
  | .assertReset => .next (assertReset s)
  | .releaseReset => .next (releaseReset s)

/-- One turn: the first event of the script. Once the script is empty the engine alone moves, which is the weak
fairness of 40_command_cycle.md R103. DESIGN CHOICE (log 5), safe. -/
def turn (run : Instr → State → Host.Outcome State Fault Refusal) (s : State) :
    Host.Outcome State Fault Refusal :=
  match s.script with
  | [] => engineTurn run s
  | e :: rest => takeEvent run e { s with script := rest }

/-- The command word `v` latched, with the engine's turn next: what a host's CMD write to the idle block leads to
(40_command_cycle.md R99). -/
def deliver (v : Word) (s : State) : State :=
  accept v { s with script := .engine :: s.script, inReset := false }

end Sys2Proof.Machine
end

