-- ==== Sys2Proof/Machine/CodeGenerator.lean ====
section
/-! DEFINITION. The code-table generator, GENCODES (43_code_generator.md). -/

namespace Sys2Proof.Machine

/-- An entry (node id, len, bits) of the traversal's work stack (R128). -/
structure StackItem where
  id : Nat
  len : Nat
  bits : Nat
  deriving DecidableEq, Repr

/-- The loop `while stack is not empty` of R128, top of the stack first; each turn uses up one unit of the first
argument. It answers none if that runs out before the stack does: the walk has then visited more nodes than it may
(log 8). -/
def walkTree : Nat → List StackItem → State → Option State
  | _, [], s => some s
  | 0, _ :: _, _ => none
  | fuel + 1, t :: stack, s =>
    if (s.nodeAt t.id).isLeaf then
      walkTree fuel stack (setCode s (s.nodeAt t.id).sym { valid := true, len := t.len, bits := t.bits })
    else
      walkTree fuel
        ({ id := (s.nodeAt t.id).left, len := t.len + 1, bits := t.bits } ::
         { id := (s.nodeAt t.id).right, len := t.len + 1, bits := t.bits ||| 2 ^ t.len } :: stack) s

/-- The table of the tree at ROOT, after clearing (R128, R129): a leaf root gets the codeword "0". The walk visits
each node of a tree once, so NODE_MAX turns are enough for every tree the arena can hold. -/
def generateCodes (s : State) : Option State :=
  let s := clearCodes s
  if (s.nodeAt s.root).isLeaf then
    some (setCode s (s.nodeAt s.root).sym { valid := true, len := 1, bits := 0 })
  else walkTree s.cfg.nodeMax [{ id := s.root, len := 0, bits := 0 }] s

/-- CODES_VALID is set by a successful GENCODES (R128). -/
def setCodesValid (s : State) : State :=
  { s with status := { s.status with codesValid := true } }

/-- `GENCODES` (R128, R131). -/
def execGenCodes (s : State) : Host.Outcome State Fault Refusal :=
  if s.status.treeValid = false then .next (raise .noTree 0 s)
  else match generateCodes s with
    | some t => .next (succeed (setCodesValid t))
    | none => .fault .traversalEndless

end Sys2Proof.Machine
end

