-- ==== Sys2Proof/Machine/Control.lean ====
section
/-! DEFINITION. The empty command. -/

namespace Sys2Proof.Machine

/-- `NOP` (40_command_cycle.md R108): the body is empty, and it completes with success. -/
def execNop (s : State) : Host.Outcome State Fault Refusal := .next (succeed s)

end Sys2Proof.Machine
end

