-- ==== Sys2Proof/Machine/Decoder.lean ====
section
/-! DEFINITION. The bitstream decoder, DECODE (44_decoder.md). -/

namespace Sys2Proof.Machine

/-- The end of a DECODE that raises (R134, R140): BIT_IDX as given, OUT_COUNT = 0. -/
def decodeFail (code : ErrCode) (info bitIdx : Nat) (s : State) : State :=
  raise code info { s with bitIdx := bitIdx, outCount := 0 }

/-- The end of a DECODE that succeeds (R134). -/
def decodeDone (bitIdx outCount : Nat) (s : State) : State :=
  succeed { s with bitIdx := bitIdx, outCount := outCount }

/-- The single-symbol loop of R134 and R137. `n` bits are left, `i` is the bit index, `k` the symbols written. -/
def decodeSingle (r : Nat) : Nat → Nat → Nat → State → State
  | 0, i, k, s => decodeDone i k s
  | n + 1, i, k, s =>
    if s.bitAt i then decodeFail .malformedEncoding i i s
    else decodeSingle r n (i + 1) (k + 1) (setOut s k (s.nodeAt r).sym)

/-- The child that a bit selects (R134). -/
def childOf (d : Node) (bit : Bool) : Nat := if bit then d.right else d.left

/-- The walk of R134. `n` bits are left, `i` is the bit index, `k` the symbols written, `cur` the current node and
`start` the first bit of the codeword in progress. -/
def decodeWalk (r : Nat) : Nat → Nat → Nat → Nat → Nat → State → State
  | 0, i, k, cur, start, s =>
    if cur = r then decodeDone i k s else decodeFail .truncatedEncoding start i s
  | n + 1, i, k, cur, start, s =>
    let nxt := childOf (s.nodeAt cur) (s.bitAt i)
    if nxt = s.cfg.nil then decodeFail .malformedEncoding i i s
    else if (s.nodeAt nxt).isLeaf then
      decodeWalk r n (i + 1) (k + 1) r (i + 1) (setOut s k (s.nodeAt nxt).sym)
    else decodeWalk r n (i + 1) k nxt start s

/-- The body of DECODE with its completion (R134): ROOT is checked before BIT_LEN. -/
def decodeBody (s : State) : State :=
  if s.root = s.cfg.nil then decodeFail .badOperand s.root 0 s
  else if s.cfg.bitsMax < s.bitLen then decodeFail .badOperand s.bitLen 0 s
  else if (s.nodeAt s.root).isLeaf then decodeSingle s.root s.bitLen 0 0 s
  else decodeWalk s.root s.bitLen 0 0 s.root 0 s

/-- `DECODE` (R134). It neither reads nor changes TREE_VALID and CODES_VALID. -/
def execDecode (s : State) : Host.Outcome State Fault Refusal := .next (decodeBody s)

end Sys2Proof.Machine
end

