-- ==== Sys2Proof/Machine/PriorityQueue.lean ====
section
/-! DEFINITION. The priority queue: the primitives of the binary min-heap and the three commands over them
(41_priority_queue.md). -/

namespace Sys2Proof.Machine

/-- The sift-up loop of `PQInsert` (R111), at index `i`. Each turn halves `i`, so `i` turns are enough. -/
def siftUp : Nat → Nat → State → State
  | 0, _, s => s
  | fuel + 1, i, s =>
    if i = 0 then s
    else if lexLt (s.key (s.heapAt i)) (s.key (s.heapAt ((i - 1) / 2))) then
      siftUp fuel ((i - 1) / 2) (swapHeap s i ((i - 1) / 2))
    else s

/-- `PQInsert(id)` (R111). The caller guarantees HEAP_SIZE < HEAP_MAX. -/
def pqInsert (id : Nat) (s : State) : State :=
  siftUp s.heapSize s.heapSize { setHeap s s.heapSize id with heapSize := s.heapSize + 1 }

/-- The child that `PQExtract` compares position `i` with: the smaller of the two, the left one if their keys are
equal or there is no right one (R112). -/
def smallerChild (s : State) (i : Nat) : Nat :=
  if 2 * i + 2 < s.heapSize ∧ lexLt (s.key (s.heapAt (2 * i + 2))) (s.key (s.heapAt (2 * i + 1)))
  then 2 * i + 2 else 2 * i + 1

/-- The sift-down loop of `PQExtract` (R112), at index `i`. Each turn at least doubles `i`, so HEAP_SIZE turns are
enough. -/
def siftDown : Nat → Nat → State → State
  | 0, _, s => s
  | fuel + 1, i, s =>
    if s.heapSize ≤ 2 * i + 1 then s
    else if lexLt (s.key (s.heapAt (smallerChild s i))) (s.key (s.heapAt i)) then
      siftDown fuel (smallerChild s i) (swapHeap s (smallerChild s i) i)
    else s

/-- What `PQExtract()` leaves (R112): the last element moves to the root and sifts down; its slot keeps its value.
The caller guarantees HEAP_SIZE > 0. -/
def pqRemoveRoot (s : State) : State :=
  let last := s.heapSize - 1
  let s' := { s with heapSize := last }
  if last = 0 then s' else siftDown last 0 (setHeap s' 0 (s.heapAt last))

/-- `PQExtract()` (R112): the root and what is left. -/
def pqExtract (s : State) : Nat × State := (s.heapAt 0, pqRemoveRoot s)

/-- `PQ_CLEAR` (R114). HEAP's contents stay. -/
def execPqClear (s : State) : Host.Outcome State Fault Refusal :=
  .next (succeed { s with heapSize := 0 })

/-- `PQ_INSERT id` (R115): BAD_OPERAND is checked first. -/
def execPqInsert (id : Nat) (s : State) : Host.Outcome State Fault Refusal :=
  .next (if s.cfg.nodeMax ≤ id then raise .badOperand id s
    else if s.heapSize = s.cfg.heapMax then raise .heapFull 0 s
    else succeed (pqInsert id s))

/-- `PQ_EXTRACT` (R116). -/
def execPqExtract (s : State) : Host.Outcome State Fault Refusal :=
  .next (if s.heapSize = 0 then raise .emptyQueue 0 { s with pqResult := s.cfg.nil }
    else succeed { (pqExtract s).2 with pqResult := (pqExtract s).1 })

end Sys2Proof.Machine
end

