-- ==== Sys2Proof/Machine/TreeBuilder.lean ====
section
/-! DEFINITION. The tree builder, BUILD (42_tree_builder.md). -/

namespace Sys2Proof.Machine

/-- FREQ[0], FREQ[1], .. FREQ[NSYM-1]. -/
def State.freqs (s : State) : List Nat := (List.range s.cfg.nsym).map s.freqAt

/-- `n`, the number of present symbols (R117). -/
def State.present (s : State) : Nat := s.freqs.countP (fun f => decide (f ≠ 0))

/-- The first symbol at which the running sum of the counts reaches `limit`, if any (R117). `sym` is the symbol of
the list's head and `total` the sum before it. -/
def firstOverflow (limit : Nat) : List Nat → Nat → Nat → Option Nat
  | [], _, _ => none
  | f :: fs, sym, total =>
    if limit ≤ total + f then some sym else firstOverflow limit fs (sym + 1) (total + f)

/-- The leaf of symbol `sym` (R117, 10_state.md R54). -/
def leafOf (s : State) (sym : Nat) : Node where
  isLeaf := true
  sym := sym
  weight := s.freqAt sym
  left := s.cfg.nil
  right := s.cfg.nil

/-- The leaf loop of R117 over the symbols of the list. `nextId` is `next_id`, which it returns too. -/
def addLeaves : List Nat → Nat → State → Nat × State
  | [], nextId, s => (nextId, s)
  | sym :: syms, nextId, s =>
    if s.freqAt sym = 0 then addLeaves syms nextId s
    else addLeaves syms (nextId + 1) (pqInsert nextId (setNode s nextId (leafOf s sym)))

/-- The internal node over `a` and `b` (R117, R119). -/
def parentOf (s : State) (a b : Nat) : Node where
  isLeaf := false
  sym := 0
  weight := (s.nodeAt a).weight + (s.nodeAt b).weight
  left := a
  right := b

/-- One merge (R117): extract `a`, extract `b`, write their parent as NODE[nextId], insert it. -/
def mergeOnce (nextId : Nat) (s : State) : State :=
  let a := (pqExtract s).1
  let s1 := (pqExtract s).2
  let b := (pqExtract s1).1
  let s2 := (pqExtract s1).2
  pqInsert nextId (setNode s2 nextId (parentOf s2 a b))

/-- The merge loop of R117. Each merge takes one entry off the queue, so HEAP_SIZE turns are enough. -/
def mergeAll : Nat → Nat → State → Nat × State
  | 0, nextId, s => (nextId, s)
  | fuel + 1, nextId, s =>
    if 1 < s.heapSize then mergeAll fuel (nextId + 1) (mergeOnce nextId s) else (nextId, s)

/-- The leaf loop, from `HEAP_SIZE <- 0` on: `next_id` and the state after it (R117, R118). -/
def leafPhase (s : State) : Nat × State := addLeaves (List.range s.cfg.nsym) 0 { s with heapSize := 0 }

/-- The leaf loop and the merge loop: `next_id` and the state after them (R117). -/
def mergePhase (s : State) : Nat × State :=
  mergeAll (leafPhase s).2.heapSize (leafPhase s).1 (leafPhase s).2

/-- BUILD once both checks have passed: the loops, and the root taken out of the queue (R117, R120). -/
def buildTree (s : State) : State :=
  let last := pqExtract (mergePhase s).2
  { last.2 with
    root := last.1
    leafCount := s.present
    nodeCount := (mergePhase s).1
    status := { last.2.status with treeValid := true } }

/-- `BUILD` (R117, R121): the validity flags are cleared first, and both errors are found before anything else is
written. -/
def execBuild (s : State) : Host.Outcome State Fault Refusal :=
  let s := clearValid s
  .next (if s.present = 0 then raise .emptyInput 0 s
    else match firstOverflow (2 ^ s.cfg.weightW) s.freqs 0 0 with
      | some sym => raise .weightOverflow sym s
      | none => succeed (buildTree s))

end Sys2Proof.Machine
end

