-- ==== Sys2Proof/Machine/Dispatch.lean ====
section
/-! DEFINITION. The meaning of each command, one arm per constructor of Instr. -/

namespace Sys2Proof.Machine

def exec (i : Instr) (s : State) : Host.Outcome State Fault Refusal :=
  match i with
  | .nop => Sys2Proof.Machine.execNop s
  | .build => Sys2Proof.Machine.execBuild s
  | .genCodes => Sys2Proof.Machine.execGenCodes s
  | .decode => Sys2Proof.Machine.execDecode s
  | .pqClear => Sys2Proof.Machine.execPqClear s
  | .pqInsert id => Sys2Proof.Machine.execPqInsert id s
  | .pqExtract => Sys2Proof.Machine.execPqExtract s

end Sys2Proof.Machine
end

