-- ==== Sys2Proof/Machine/Step.lean ====
section
/-! DEFINITION. The step of the machine. -/

namespace Sys2Proof.Machine

/-- One step: one turn, with the commands' meanings. -/
def step (s : State) : Host.Outcome State Fault Refusal := turn exec s

/-- `s` with the command word `w` accepted and the engine's turn next (log 6). HTB fetches nothing
(10_state.md R29): a command is delivered by a host write to CMD. -/
def State.withFetchWord (s : State) (nbits w : Nat) : State := deliver (BitVec.ofNat 32 (w % 2 ^ nbits)) s

end Sys2Proof.Machine
end

