-- ==== Sys2Proof/Machine/HostRef.lean ====
section
/-! DEFINITION. The host's side, which is no hardware: the reference functions HostCount and HostEncode
(00_scope.md R24, R25, R26) and the statements of a host script (30_encoding.md R97, R98). -/

namespace Sys2Proof.Machine

/-- `HostCount(seq)`: the FREQ image of a sequence, entry `s` the number of occurrences of `s` (R24). -/
def hostCount (c : Config) (seq : List Nat) : List Nat := (List.range c.nsym).map (fun s => seq.count s)

/-- The digits of a codeword, first digit first: digit `j` is BITS[j] (10_state.md R56). -/
def CodeEntry.digits (e : CodeEntry) : List Bool := (List.range e.len).map (bitOf e.bits)

/-- `HostEncode(seq, CODE)` with the table read from `s` (R25): the codewords in order, or UNKNOWN_SYMBOL. -/
def hostEncode (s : State) : List Nat → Except ErrCode (List Bool)
  | [] => .ok []
  | sym :: seq =>
    if (s.codeAt sym).valid then
      match hostEncode s seq with
      | .ok ds => .ok ((s.codeAt sym).digits ++ ds)
      | .error e => .error e
    else .error .unknownSymbol

/-- The number whose bit `j` is digit `j` of the list (R98, the sum of BITS). -/
def packBits : List Bool → Nat
  | [] => 0
  | d :: ds => d.toNat + 2 * packBits ds

/-- ceil(log2 n), the width of a fixed-width code for an alphabet of `n` symbols (R26, law 3): the least `b` with
n ≤ 2^b. -/
def fixedWidth (n : Nat) : Nat := Nat.clog 2 n

namespace Script

/-- `WR off, value` (R97). -/
def wr (c : Config) (off value : Nat) : Event := .host (.write (c.base + off) 4 (toWord value))

/-- `RD off` (R97). -/
def rd (c : Config) (off : Nat) : Event := .host (.read (c.base + off) 4)

/-- A command's pseudo-statement: the write of its word to CMD (R98). -/
def cmd (c : Config) (i : Instr) : Event := .host (.write (c.base + 0x014) 4 (encode i))

/-- `WAIT` (R98) in the interleaving where the host polls `polls` times before the engine's step: the last read is
the first that finds BUSY = 0. -/
def wait (c : Config) (polls : Nat) : List Event :=
  List.replicate polls (rd c 0x018) ++ [.engine, rd c 0x018]

/-- `CLRDONE` (R98). -/
def clrDone (c : Config) : Event := wr c 0x018 0x00000002

/-- `FREQ` (R98): every word of the table, the zeros too. -/
def freq (c : Config) (table : List Nat) : List Event :=
  (List.range c.nsym).map (fun s => wr c (freqAddr s) (table.getD s 0))

/-- `NODE id, leaf, sym, weight, left, right` (R98). -/
def node (c : Config) (id : Nat) (n : Node) : List Event :=
  (List.range 4).map (fun j => wr c (nodeAddr id + 4 * j) (n.word j))

/-- `BITS "d0 d1 .."` (R98): the words of the digits, then BIT_LEN. -/
def bits (c : Config) (ds : List Bool) : List Event :=
  (List.range ((ds.length + 31) / 32)).map (fun w => wr c (bitsAddr w) (packBits ((ds.drop (32 * w)).take 32)))
    ++ [wr c 0x034 ds.length]

end Script

end Sys2Proof.Machine
end

