-- ==== Sys2Proof/Safety.lean ====
section
/-! DEFINITION. What claims about HTB speak of: the invariants of a run, the order of the queue, the tree in the arena
and its codewords, and the walks of the decoder. -/

namespace Sys2Proof.Machine

/-! ## The invariant of every run -/

/-- Every cell of the memory stands in `lo .. hi - 1`. -/
abbrev Memory.inRange (m : Memory) (lo hi : Nat) : Prop := ∀ c ∈ m, lo ≤ c.1 ∧ c.1 < hi

/-- Every memory is in canonical form and lists only bytes of its own mapped words (20_memory.md R65, R67). -/
structure State.Canonical (s : State) : Prop where
  freq : s.freq.wf ∧ s.freq.inRange (freqAddr 0) (freqAddr s.cfg.nsym)
  node : s.node.wf ∧ s.node.inRange (nodeAddr 0) (nodeAddr s.cfg.nodeMax)
  heap : s.heap.wf ∧ s.heap.inRange (heapAddr 0) (heapAddr s.cfg.heapMax)
  code : s.code.wf ∧ s.code.inRange (codeAddr 0) (codeAddr s.cfg.nsym)
  bits : s.bits.wf ∧ s.bits.inRange (bitsAddr 0) (bitsAddr (s.cfg.bitsMax / 32))
  out : s.out.wf ∧ s.out.inRange (outAddr 0) (outAddr s.cfg.outMax)

/-- What holds of the registers and memories in every run from reset. -/
structure State.Inv (s : State) : Prop where
  /-- The parameters are legal (00_scope.md R9, R10, R11, R13). -/
  legal : s.cfg.Legal
  canonical : s.Canonical
  /-- While BUSY: DONE = 0, ERR = 0x00, ERR_INFO = 0 (40_command_cycle.md R99, 10_state.md R41, R42). -/
  busy : s.status.busy = true → s.status.done = false ∧ s.status.err = .ok ∧ s.inReset = false
  /-- ERR_INFO is 0 unless an error stands (10_state.md R42). -/
  noError : s.status.err = .ok → s.errInfo = 0
  /-- HTB never raises UNKNOWN_SYMBOL (60_exceptions.md R144). -/
  noUnknown : s.status.err ≠ .unknownSymbol
  /-- CODES_VALID holds only of a valid tree (10_state.md R35, R39). -/
  codesTree : s.status.codesValid = true → s.status.treeValid = true
  /-- ROOT fits ID_W bits (10_state.md R43). -/
  root : s.root < 2 ^ s.cfg.idW
  /-- LEAF_COUNT counts symbols (10_state.md R44). -/
  leafCount : s.leafCount ≤ s.cfg.nsym
  /-- NODE_COUNT is 2n-1 (10_state.md R45), and 0 while LEAF_COUNT is 0. -/
  nodeCount : s.nodeCount = 2 * s.leafCount - 1
  /-- HEAP_SIZE is 0..HEAP_MAX (10_state.md R46). -/
  heapSize : s.heapSize ≤ s.cfg.heapMax
  /-- The queue holds ids of arena slots (30_encoding.md R91). -/
  queueIds : ∀ i < s.heapSize, s.heapAt i < s.cfg.nodeMax
  /-- PQ_RESULT is a slot's id or NIL (10_state.md R47). -/
  pqResult : s.pqResult ≤ s.cfg.nil
  /-- BIT_LEN has 17 bits (10_state.md R48). -/
  bitLen : s.bitLen < 2 ^ 17
  /-- Each symbol decoded consumed a bit (44_decoder.md R141). -/
  outCount : s.outCount ≤ s.bitIdx
  /-- BIT_IDX is within the encoded bits (10_state.md R49). -/
  bitIdx : s.bitIdx ≤ s.cfg.bitsMax

/-! ## What a step is about to do -/

/-- The next step is the engine's, and runs the command `i` (40_command_cycle.md R100). -/
def State.Runs (s : State) (i : Instr) : Prop :=
  s.status.busy = true ∧ decodeCmd s.cmdlat = .ok i ∧ (s.script = [] ∨ ∃ rest, s.script = .engine :: rest)

/-- The next step is an admitted host read of the word at `off`, with `rest` to come (20_memory.md R75, R77). -/
def State.Reads (s : State) (off : Nat) (rest : List Event) : Prop :=
  s.inReset = false ∧ off < Config.windowSize ∧ off % 4 = 0 ∧
    s.script = .host (.read (s.cfg.base + off) 4) :: rest

/-- The next step is an admitted host write of `v` to the word at `off`, with `rest` to come (20_memory.md R75,
R78). -/
def State.Writes (s : State) (off : Nat) (v : Word) (rest : List Event) : Prop :=
  s.inReset = false ∧ off < Config.windowSize ∧ off % 4 = 0 ∧
    s.script = .host (.write (s.cfg.base + off) 4 v) :: rest

/-- The next step resets the block: the reset input is asserted, or released after it was (70_reset_and_hazards.md
R158). -/
def State.Resets (s : State) : Prop :=
  (∃ rest, s.script = .assertReset :: rest) ∨ (s.inReset = true ∧ ∃ rest, s.script = .releaseReset :: rest)

/-- What no command changes: the parameters, CTRL, BIT_LEN, CMDLAT, OVERRUN, and all that is outside the block. -/
structure State.SameOutside (s t : State) : Prop where
  cfg : t.cfg = s.cfg
  ie : t.ie = s.ie
  bitLen : t.bitLen = s.bitLen
  cmdlat : t.cmdlat = s.cmdlat
  overrun : t.status.overrun = s.status.overrun
  inReset : t.inReset = s.inReset
  script : t.script = s.script
  replies : t.replies = s.replies
  draws : t.draws = s.draws
  epoch : t.epoch = s.epoch

/-- The command has completed with this code and detail (40_command_cycle.md R101). -/
def State.CompletedWith (t : State) (e : ErrCode) (info : Word) : Prop :=
  t.status.busy = false ∧ t.status.done = true ∧ t.status.err = e ∧ t.errInfo = info

/-- Every byte of memory outside the offsets `lo .. hi - 1` is unchanged. -/
def State.SameBytesBut (s t : State) (lo hi : Nat) : Prop :=
  ∀ off, off < lo ∨ hi ≤ off → t.memByte off = s.memByte off

/-! ## The queue -/

/-- `j` is `i` or an ancestor of it in the heap: a position that a sift-up from `i` can pass (41_priority_queue.md
R110, R111). -/
inductive OnPathUp : Nat → Nat → Prop where
  | here (i : Nat) : OnPathUp i i
  | up {i j : Nat} (pos : 0 < i) (rest : OnPathUp ((i - 1) / 2) j) : OnPathUp i j

/-- The entries of the queue, HEAP[0..HEAP_SIZE-1] (10_state.md R55). -/
def State.queue (s : State) : List Nat := (List.range s.heapSize).map s.heapAt

/-- The heap invariant (41_priority_queue.md R110): no entry's key is below its parent's. -/
def State.HeapOrder (s : State) : Prop :=
  ∀ i, 1 ≤ i → i < s.heapSize → ¬ lexLt (s.key (s.heapAt i)) (s.key (s.heapAt ((i - 1) / 2)))

/-! ## The tree -/

/-- A binary tree over arena slots. -/
inductive HTree where
  | leaf (id sym weight : Nat)
  | node (id : Nat) (left right : HTree)
  deriving DecidableEq, Repr

namespace HTree

/-- The slot of the root. -/
def id : HTree → Nat
  | .leaf id _ _ => id
  | .node id _ _ => id

/-- The weight of a tree: the sum of its leaves' weights (42_tree_builder.md R122). -/
def weight : HTree → Nat
  | .leaf _ _ w => w
  | .node _ l r => l.weight + r.weight

/-- The slots of the tree. -/
def ids : HTree → List Nat
  | .leaf id _ _ => [id]
  | .node id l r => id :: (l.ids ++ r.ids)

/-- The symbols of the leaves, left to right. -/
def symbols : HTree → List Nat
  | .leaf _ sym _ => [sym]
  | .node _ l r => l.symbols ++ r.symbols

/-- The tree stands in the arena of `s`, with the fields of 10_state.md R54. -/
def InArena (s : State) : HTree → Prop
  | .leaf id sym w =>
    id < s.cfg.nodeMax ∧
      s.nodeAt id = { isLeaf := true, sym := sym, weight := w, left := s.cfg.nil, right := s.cfg.nil }
  | .node id l r =>
    (id < s.cfg.nodeMax ∧
      s.nodeAt id = { isLeaf := false, sym := 0, weight := l.weight + r.weight, left := l.id, right := r.id }) ∧
      l.InArena s ∧ r.InArena s

/-- Every child has a smaller id than its parent (42_tree_builder.md R126). -/
def ChildrenSmaller : HTree → Prop
  | .leaf _ _ _ => True
  | .node id l r => (l.id < id ∧ r.id < id) ∧ l.ChildrenSmaller ∧ r.ChildrenSmaller

/-- Each leaf's symbol with the digits of the path from the root to it: left is 0, right is 1
(43_code_generator.md R128). -/
def paths : HTree → List (Nat × List Bool)
  | .leaf _ sym _ => [(sym, [])]
  | .node _ l r => l.paths.map (fun p => (p.1, false :: p.2)) ++ r.paths.map (fun p => (p.1, true :: p.2))

/-- The code table: the paths, but the codeword "0" for a tree that is one leaf (43_code_generator.md R129). -/
def table : HTree → List (Nat × List Bool)
  | .leaf _ sym _ => [(sym, [false])]
  | .node id l r => (HTree.node id l r).paths

/-- The code-table entry of a symbol: its codeword, or VALID = 0, LEN = 0, BITS = 0 if it has none
(10_state.md R56). -/
def entry (t : HTree) (sym : Nat) : CodeEntry :=
  match t.table.lookup sym with
  | some ds => { valid := true, len := ds.length, bits := packBits ds }
  | none => { valid := false, len := 0, bits := 0 }

/-- The weighted path length of the tree for given counts (42_tree_builder.md R127). -/
def cost (count : Nat → Nat) (t : HTree) : Nat := (t.paths.map (fun p => count p.1 * p.2.length)).sum

end HTree

/-- CODE holds the table of the tree. -/
def State.CodesOf (s : State) (t : HTree) : Prop := ∀ sym < s.cfg.nsym, s.codeAt sym = t.entry sym

/-- What TREE_VALID and CODES_VALID mean (10_state.md R35, 42_tree_builder.md R126): from ROOT the arena holds a tree
whose slots are 0..NODE_COUNT-1, each once, with LEAF_COUNT distinct symbols; and CODE holds its table. -/
def State.TreeInv (s : State) : Prop :=
  s.status.treeValid = true →
    ∃ t : HTree, t.InArena s ∧ t.id = s.root ∧ t.ids.Perm (List.range s.nodeCount) ∧ t.symbols.Nodup ∧
      t.symbols.length = s.leafCount ∧ (s.status.codesValid = true → s.CodesOf t)

/-! ## The merges of BUILD -/

/-- The present symbols, ascending (42_tree_builder.md R118). -/
def State.presentSyms (s : State) : List Nat :=
  (List.range s.cfg.nsym).filter (fun sym => decide (s.freqAt sym ≠ 0))

/-- Node `x` was in the queue when node `m` was made: it has a smaller id, and no internal node made before `m` has it
as a child. The leaves are 0..n-1 (42_tree_builder.md R118). -/
def State.Waiting (t : State) (n m x : Nat) : Prop :=
  x < m ∧ ∀ m', n ≤ m' → m' < m → (t.nodeAt m').left ≠ x ∧ (t.nodeAt m').right ≠ x

/-- Node `m` merges the two waiting nodes of least key, the least as LEFT (42_tree_builder.md R117, R119, R125). -/
def State.MergesTwoLeast (t : State) (n m : Nat) : Prop :=
  t.Waiting n m (t.nodeAt m).left ∧ t.Waiting n m (t.nodeAt m).right ∧
    lexLt (t.key (t.nodeAt m).left) (t.key (t.nodeAt m).right) ∧
    ∀ x, t.Waiting n m x → x ≠ (t.nodeAt m).left → x ≠ (t.nodeAt m).right →
      lexLt (t.key (t.nodeAt m).right) (t.key x)

/-! ## The decoder's walks, over any arena (44_decoder.md R139) -/

/-- The encoded bits of a DECODE, BIT(0..BIT_LEN-1) (44_decoder.md R134). -/
def State.stream (s : State) : List Bool := (List.range s.bitLen).map s.bitAt

/-- The decoded symbols OUT[0..k-1]. -/
def State.decoded (s : State) (k : Nat) : List Nat := (List.range k).map s.outAt

/-- Following the digits from `a` leads to `b`, through nodes that are neither absent nor leaves. -/
inductive Walk (s : State) : Nat → List Bool → Nat → Prop where
  | stop (a : Nat) : Walk s a [] a
  | go {a b c : Nat} {d : Bool} {ds : List Bool} (child : childOf (s.nodeAt a) d = b) (present : b ≠ s.cfg.nil)
      (inner : (s.nodeAt b).isLeaf = false) (rest : Walk s b ds c) : Walk s a (d :: ds) c

/-- The digits lead from `r` to a leaf, the first leaf on the way, whose symbol is `sym`. -/
def Spells (s : State) (r : Nat) (ds : List Bool) (sym : Nat) : Prop :=
  ∃ (init : List Bool) (d : Bool) (a b : Nat), ds = init ++ [d] ∧ Walk s r init a ∧
    childOf (s.nodeAt a) d = b ∧ b ≠ s.cfg.nil ∧ (s.nodeAt b).isLeaf = true ∧ (s.nodeAt b).sym = sym

/-- The chunks are codewords from `r`, each with its symbol. -/
def SpellsAll (s : State) (r : Nat) (chunks : List (List Bool × Nat)) : Prop :=
  ∀ c ∈ chunks, Spells s r c.1 c.2

/-- The digits of the chunks, one after the other. -/
def digitsOf (chunks : List (List Bool × Nat)) : List Bool := (chunks.map Prod.fst).flatten

/-- The symbols of the chunks. -/
def symbolsOf (chunks : List (List Bool × Nat)) : List Nat := chunks.map Prod.snd

end Sys2Proof.Machine
end

