-- ==== Sys2Proof/Certificates/Slice0/Obligations.lean ====
section
/-! DEFINITION. The statements about HTB, for the provers. Each docstring cites the rule it formalises. -/

open Sys2Proof Sys2Proof.Machine

/-! ## Encoding (30_encoding.md) -/

/-- R93, R96: decoding inverts encoding, for every well-formed command and every value of its operand. -/
def Obligations.DecodeInvertsEncode : Prop :=
  ∀ i : Instr, i.wellFormed = true → decodeCmd (encode i) = .ok i

/-- R93, R96: a word that decodes is the encoding of what it decodes to, so no two words share a command. -/
def Obligations.EncodeInvertsDecode : Prop :=
  ∀ (w : Word) (i : Instr), decodeCmd w = .ok i → encode i = w ∧ i.wellFormed = true

/-- R93: a word is a command iff `(word AND mask) = match` for its row, and PQ_INSERT's operand is ARG. -/
def Obligations.WordDecodesIffRowMatches : Prop :=
  ∀ w : Word,
    (decodeCmd w = .ok .nop ↔ w &&& 0xFFFFFFFF = 0x00000000) ∧
    (decodeCmd w = .ok .build ↔ w &&& 0xFFFFFFFF = 0x00000001) ∧
    (decodeCmd w = .ok .genCodes ↔ w &&& 0xFFFFFFFF = 0x00000002) ∧
    (decodeCmd w = .ok .decode ↔ w &&& 0xFFFFFFFF = 0x00000003) ∧
    (decodeCmd w = .ok .pqClear ↔ w &&& 0xFFFFFFFF = 0x00000004) ∧
    (∀ id, decodeCmd w = .ok (.pqInsert id) ↔ w &&& 0x0000FFFF = 0x00000005 ∧ id = (w >>> 16).toNat) ∧
    (decodeCmd w = .ok .pqExtract ↔ w &&& 0xFFFFFFFF = 0x00000006)

/-- 95_test_vectors.md CYC-3: words written out from the encoding decode to the commands they stand for. -/
def Obligations.SanityWordsDecode : Prop :=
  decodeCmd 0x00000000 = .ok .nop ∧ decodeCmd 0x00000001 = .ok .build ∧ decodeCmd 0x00000006 = .ok .pqExtract ∧
    decodeCmd 0x00030005 = .ok (.pqInsert 3) ∧ decodeCmd 0x01FE0005 = .ok (.pqInsert 510) ∧
    decodeCmd 0x00000007 = .error .illegalOpcode ∧ decodeCmd 0x00000010 = .error .reservedBitsSet ∧
    decodeCmd 0x00010000 = .error .reservedBitsSet ∧ decodeCmd 0x00030015 = .error .reservedBitsSet

/-- R94: the illegal words are those with OP in 0x7..0xF, and those with a listed OP and reserved bits set. Each is
accepted like any word, and then completes with ILLEGAL_COMMAND and the word as detail, with no other effect. -/
def Obligations.IllegalWordCompletesWithItself : Prop :=
  ∀ (s : State) (w : Word) (rest : List Event),
    (7 ≤ w.toNat % 16 ∨ (w.toNat % 16 ≠ 5 ∧ w.toNat / 16 ≠ 0) ∨ (w.toNat % 16 = 5 ∧ w.toNat / 16 % 2 ^ 12 ≠ 0)) →
    (s.status.busy = false → s.Writes 0x014 w (.engine :: rest) →
      ∃ t, step s = .next t ∧ t.status.busy = true ∧ t.cmdlat = w ∧ t.script = .engine :: rest) ∧
    (s.status.busy = true → s.cmdlat = w → s.script = .engine :: rest →
      step s = .next { s with
        script := rest
        status := { s.status with busy := false, done := true, err := .illegalCommand }
        errInfo := w })

/-! ## The command cycle (40_command_cycle.md) -/

/-- R100: the engine's step is enabled iff BUSY = 1. It runs the command that CMDLAT decodes to, and a word that is no
command raises ILLEGAL_COMMAND. What the step adds around exec is that an engine turn leaves the script. -/
def Obligations.StepRunsDecodedCommand : Prop :=
  ∀ (s : State) (rest : List Event),
    (s.status.busy = true → ∀ i, decodeCmd s.cmdlat = .ok i →
      (s.script = [] → step s = exec i s) ∧
      (s.script = .engine :: rest → step s = exec i { s with script := rest })) ∧
    (s.status.busy = true → ∀ e, decodeCmd s.cmdlat = .error e →
      (s.script = [] → step s = .next (complete .illegalCommand s.cmdlat s)) ∧
      (s.script = .engine :: rest →
        step s = .next (complete .illegalCommand s.cmdlat { s with script := rest }))) ∧
    (s.status.busy = false →
      (s.script = [] → step s = .next s) ∧
      (s.script = .engine :: rest → step s = .next { s with script := rest }))

/-- The model's own interface (log 6): a word delivered by `withFetchWord` is the command the next step runs, in the
state right after acceptance. -/
def Obligations.DeliveredWordRunsNext : Prop :=
  ∀ (s : State) (w : Nat) (i : Instr), decodeTableWord 32 w = some i →
    step (s.withFetchWord 32 w) = exec i (accept (BitVec.ofNat 32 w) { s with inReset := false })

/-- R99: a host write of `v` to CMD while idle latches the word unchecked, sets BUSY, and clears DONE, ERR and
ERR_INFO; IRQ falls. -/
def Obligations.AcceptanceLatchesTheWord : Prop :=
  ∀ (s : State) (v : Word) (rest : List Event), s.status.busy = false → s.Writes 0x014 v rest →
    ∃ t, step s = .next t ∧ t.irq = false ∧
      t = { s with
        script := rest
        cmdlat := v
        status := { s.status with busy := true, done := false, err := .ok }
        errInfo := 0 }

/-- R101, R103: every command completes, in every state whose valid tree is a tree: BUSY falls, DONE rises, and IRQ
rises iff IE = 1. -/
def Obligations.EveryCommandCompletes : Prop :=
  ∀ (i : Instr) (s : State), s.Inv → s.TreeInv →
    ∃ t, exec i s = .next t ∧ t.status.busy = false ∧ t.status.done = true ∧ t.irq = s.ie

/-- R149: "The same command on the same inputs raises the same error again." A failed command, accepted again in the
state it left, fails with the same code and detail. -/
def Obligations.FailedCommandFailsAgain : Prop :=
  ∀ (i : Instr) (s t : State), exec i s = .next t → t.status.err ≠ .ok →
    ∃ u, exec i (accept (encode i) t) = .next u ∧ u.status.err = t.status.err ∧ u.errInfo = t.errInfo

/-- R108: NOP completes with success and changes nothing else. Only the word 0 is NOP: any other word with OP = 0 is
ILLEGAL_COMMAND. -/
def Obligations.NopOnlyCompletes : Prop :=
  (∀ s : State, exec .nop s =
    .next { s with status := { s.status with busy := false, done := true, err := .ok }, errInfo := 0 }) ∧
  decodeCmd 0x00000000 = .ok .nop ∧
  ∀ s : State, s.cmdlat.toNat % 16 = 0 → s.cmdlat ≠ 0 → s.status.busy = true → s.script = [] →
    ∃ t, step s = .next t ∧ t.status.err = .illegalCommand

/-- R102, R87, R105: host accesses while a command is in progress do not reach it. Whatever an access made of the busy
state, the command ends as it would have without it, but for IE, OVERRUN and what the reads returned. -/
def Obligations.BusyAccessesDoNotReachTheCommand : Prop :=
  ∀ (i : Instr) (a : Access) (s s' t : State), s.status.busy = true → hostAccess a s = .next s' →
    exec i s = .next t →
    exec i s' = .next { t with
      ie := s'.ie
      replies := s'.replies
      draws := s'.draws
      status := { t.status with overrun := s'.status.overrun } }

/-- R46, R47, R49, R50, R52 to R58: each register and memory has its writers among the commands, and no command writes
what belongs to the host. -/
def Obligations.EachResultHasItsWriter : Prop :=
  ∀ (i : Instr) (s t : State), exec i s = .next t →
    s.SameOutside t ∧ t.freq = s.freq ∧ t.bits = s.bits ∧
    (t.node ≠ s.node ∨ t.root ≠ s.root ∨ t.leafCount ≠ s.leafCount ∨ t.nodeCount ≠ s.nodeCount → i = .build) ∧
    (t.code ≠ s.code → i = .genCodes) ∧
    (t.out ≠ s.out ∨ t.bitIdx ≠ s.bitIdx ∨ t.outCount ≠ s.outCount → i = .decode) ∧
    (t.pqResult ≠ s.pqResult → i = .pqExtract) ∧
    (t.heapSize ≠ s.heapSize → i = .build ∨ i = .pqClear ∨ i = .pqExtract ∨ ∃ id, i = .pqInsert id) ∧
    (t.heap ≠ s.heap → i = .build ∨ i = .pqExtract ∨ ∃ id, i = .pqInsert id)

/-! ## The flags (10_state.md) -/

/-- R36: BUSY rises only at the acceptance of a command, and falls only at a completion or by reset. -/
def Obligations.BusyFollowsTheCommandCycle : Prop :=
  ∀ s t : State, step s = .next t →
    (s.status.busy = false → (t.status.busy = true ↔ ∃ v rest, s.Writes 0x014 v rest)) ∧
    (s.status.busy = true →
      (t.status.busy = false ↔ s.script = [] ∨ (∃ rest, s.script = .engine :: rest) ∨ s.Resets))

/-- R37: DONE is set by each completion, and cleared by a STATUS write with bit [1] = 1, by the acceptance of a
command, or by reset; a STATUS write with bit [1] = 0 leaves it. -/
def Obligations.DoneFollowsCompletion : Prop :=
  ∀ s t : State, step s = .next t →
    (s.status.busy = true → (s.script = [] ∨ ∃ rest, s.script = .engine :: rest) → t.status.done = true) ∧
    (∀ v rest, s.Writes 0x018 v rest → t.status.done = (s.status.done && !v.getLsbD 1)) ∧
    (∀ v rest, s.Writes 0x014 v rest → s.status.busy = false → t.status.done = false) ∧
    (s.status.done = true → t.status.done = false →
      (∃ v rest, s.Writes 0x018 v rest ∧ v.getLsbD 1 = true) ∨ (∃ v rest, s.Writes 0x014 v rest) ∨ s.Resets)

/-- R38: TREE_VALID is set only by a successful BUILD, and cleared by reset, by the start of every BUILD, and by an
accepted write to a NODE word or to ROOT; nothing else changes it. -/
def Obligations.TreeValidChangesOnlyAsStated : Prop :=
  ∀ s t : State, s.cfg.Legal → step s = .next t →
    (s.Runs .build → (t.status.treeValid = true ↔ t.status.err = .ok)) ∧
    (s.Resets → t.status.treeValid = false) ∧
    (∀ off v rest, s.status.busy = false → s.Writes off v rest →
      off = 0x020 ∨ (nodeAddr 0 ≤ off ∧ off < nodeAddr s.cfg.nodeMax) → t.status.treeValid = false) ∧
    (t.status.treeValid ≠ s.status.treeValid →
      s.Runs .build ∨ s.Resets ∨ ∃ off v rest, s.status.busy = false ∧ s.Writes off v rest ∧
        (off = 0x020 ∨ (nodeAddr 0 ≤ off ∧ off < nodeAddr s.cfg.nodeMax)))

/-- R40: OVERRUN is set by a host write while BUSY to anything but CTRL and STATUS, and by nothing else; a STATUS write
with bit [4] = 1 clears it, and it stays until then (or reset, R62). -/
def Obligations.OverrunIsSticky : Prop :=
  ∀ s t : State, step s = .next t →
    (∀ off v rest, s.Writes off v rest → s.status.busy = true → off ≠ 0x010 → off ≠ 0x018 →
      t.status.overrun = true) ∧
    (∀ v rest, s.Writes 0x018 v rest → t.status.overrun = (s.status.overrun && !v.getLsbD 4)) ∧
    (s.status.overrun = false → t.status.overrun = true →
      ∃ off v rest, s.Writes off v rest ∧ s.status.busy = true ∧ off ≠ 0x010 ∧ off ≠ 0x018) ∧
    (s.status.overrun = true → t.status.overrun = false →
      (∃ v rest, s.Writes 0x018 v rest ∧ v.getLsbD 4 = true) ∨ s.Resets)

/-! ## Host accesses (20_memory.md, 40_command_cycle.md) -/

/-- R75: an access that is not 32 bits wide, or whose offset is not a multiple of 4, is refused by name. -/
def Obligations.NarrowOrMisalignedAccessRefused : Prop :=
  ∀ (s : State) (off bytes : Nat) (v : Word) (rest : List Event), s.inReset = false → off < Config.windowSize →
    bytes ≠ 4 ∨ off % 4 ≠ 0 →
    (s.script = .host (.read (s.cfg.base + off) bytes) :: rest → step s = .refused .hostAccessRefused) ∧
    (s.script = .host (.write (s.cfg.base + off) bytes v) :: rest → step s = .refused .hostAccessRefused)

/-- R77, R68 to R73: a read while idle returns the element the layout places at the offset, and changes nothing in the
block. -/
def Obligations.IdleReadReturnsTheElement : Prop :=
  ∀ (s : State) (off : Nat) (rest : List Event), s.cfg.Legal → s.status.busy = false → s.Reads off rest →
    ∃ v, step s = .next { s with script := rest, replies := { addr := s.cfg.base + off, value := v } :: s.replies } ∧
      (∀ sym < s.cfg.nsym, off = freqAddr sym → v = toWord (s.freqAt sym)) ∧
      (∀ id < s.cfg.nodeMax, off = nodeAddr id →
        v = toWord (2 ^ 31 * (s.nodeAt id).isLeaf.toNat + (s.nodeAt id).sym)) ∧
      (∀ id < s.cfg.nodeMax, off = nodeAddr id + 4 → v = toWord (s.nodeAt id).weight) ∧
      (∀ id < s.cfg.nodeMax, off = nodeAddr id + 8 → v = toWord (s.nodeAt id).left) ∧
      (∀ id < s.cfg.nodeMax, off = nodeAddr id + 12 → v = toWord (s.nodeAt id).right) ∧
      (∀ i < s.cfg.heapMax, off = heapAddr i → v = toWord (s.heapAt i)) ∧
      (∀ sym < s.cfg.nsym, off = codeAddr sym →
        v = toWord (2 ^ 31 * (s.codeAt sym).valid.toNat + (s.codeAt sym).len)) ∧
      (∀ sym < s.cfg.nsym, ∀ j, 1 ≤ j → j ≤ 8 → off = codeAddr sym + 4 * j →
        ∀ b < 32, v.getLsbD b = bitOf (s.codeAt sym).bits (32 * (j - 1) + b)) ∧
      (∀ sym < s.cfg.nsym, ∀ j, 9 ≤ j → j ≤ 15 → off = codeAddr sym + 4 * j → v = 0) ∧
      (∀ w < s.cfg.bitsMax / 32, off = bitsAddr w → ∀ b < 32, v.getLsbD b = s.bitAt (32 * w + b)) ∧
      (∀ k < s.cfg.outMax, off = outAddr k → v = toWord (s.outAt k))

/-- R30 to R35, R42 to R50, R66: a read while idle of a register's offset returns the register. -/
def Obligations.IdleReadReturnsTheRegister : Prop :=
  ∀ (s : State) (off : Nat) (rest : List Event), s.Inv → s.status.busy = false → s.Reads off rest →
    ∃ v : Word,
      step s = .next { s with script := rest, replies := { addr := s.cfg.base + off, value := v } :: s.replies } ∧
      (off = 0x000 → v = 0x48554646) ∧
      (off = 0x004 → v.toNat % 2 ^ 4 = s.cfg.symW ∧ v.toNat / 2 ^ 8 % 2 ^ 6 = s.cfg.weightW ∧
        v.toNat / 2 ^ 16 % 2 ^ 8 = 0x01 ∧ v.toNat / 2 ^ 24 = 0 ∧ v.toNat / 2 ^ 4 % 2 ^ 4 = 0 ∧
        v.toNat / 2 ^ 14 % 2 ^ 2 = 0) ∧
      (off = 0x008 → v.toNat = s.cfg.bitsMax) ∧
      (off = 0x010 → v.toNat = s.ie.toNat) ∧
      (off = 0x014 → v = 0) ∧
      (off = 0x018 → v.getLsbD 0 = false ∧ v.getLsbD 1 = s.status.done ∧ v.getLsbD 2 = s.status.treeValid ∧
        v.getLsbD 3 = s.status.codesValid ∧ v.getLsbD 4 = s.status.overrun ∧ v.toNat / 2 ^ 5 % 2 ^ 3 = 0 ∧
        v.toNat / 2 ^ 8 % 2 ^ 8 = s.status.err.code ∧ v.toNat / 2 ^ 16 = 0) ∧
      (off = 0x01C → v = s.errInfo) ∧
      (off = 0x020 → v.toNat = s.root) ∧
      (off = 0x024 → v.toNat = s.leafCount) ∧
      (off = 0x028 → v.toNat = s.nodeCount) ∧
      (off = 0x02C → v.toNat = s.heapSize) ∧
      (off = 0x030 → v.toNat = s.pqResult) ∧
      (off = 0x034 → v.toNat = s.bitLen) ∧
      (off = 0x038 → v.toNat = s.bitIdx) ∧
      (off = 0x03C → v.toNat = s.outCount)

/-- R66, R67: reserved and unmapped offsets read 0 and ignore writes, and writes to the read-only memories and
registers are ignored, with no flag set, while the block is idle. -/
def Obligations.UnmappedReadsZeroAndIgnoresWrites : Prop :=
  ∀ (s : State) (off : Nat) (v : Word) (rest : List Event), s.cfg.Legal → s.status.busy = false →
    ((off = 0x00C ∨ (0x040 ≤ off ∧ off < 0x1000) ∨ (freqAddr s.cfg.nsym ≤ off ∧ off < 0x2000) ∨
        (nodeAddr s.cfg.nodeMax ≤ off ∧ off < 0x4000) ∨ (heapAddr s.cfg.heapMax ≤ off ∧ off < 0x8000) ∨
        (codeAddr s.cfg.nsym ≤ off ∧ off < 0x10000) ∨ (bitsAddr (s.cfg.bitsMax / 32) ≤ off ∧ off < 0x40000) ∨
        (outAddr s.cfg.outMax ≤ off ∧ off < 0x80000)) →
      (s.Reads off rest → step s =
        .next { s with script := rest, replies := { addr := s.cfg.base + off, value := 0 } :: s.replies }) ∧
      (s.Writes off v rest → step s = .next { s with script := rest })) ∧
    ((0x4000 ≤ off ∧ off < 0x5000) ∨ (0x8000 ≤ off ∧ off < 0x10000) ∨ (0x40000 ≤ off ∧ off < 0x80000) ∨
        off ∈ [0x000, 0x004, 0x008, 0x01C, 0x024, 0x028, 0x02C, 0x030, 0x038, 0x03C] →
      s.Writes off v rest → step s = .next { s with script := rest })

/-- R69, R38: an accepted write to word `j` of NODE slot `id` stores that word's fields, leaves the slot's other words
and every other byte, and clears TREE_VALID and CODES_VALID. -/
def Obligations.NodeWriteStoresItsFields : Prop :=
  ∀ (s : State) (id j : Nat) (v : Word) (rest : List Event), s.cfg.Legal → s.status.busy = false →
    id < s.cfg.nodeMax → j < 4 → s.Writes (nodeAddr id + 4 * j) v rest →
    ∃ t, step s = .next t ∧
      t = { s with
        script := rest
        node := t.node
        status := { s.status with treeValid := false, codesValid := false } } ∧
      s.SameBytesBut t (nodeAddr id + 4 * j) (nodeAddr id + 4 * j + 4) ∧
      t.nodeAt id =
        { isLeaf := if j = 0 then v.getLsbD 31 else (s.nodeAt id).isLeaf
          sym := if j = 0 then v.toNat % 2 ^ s.cfg.symW else (s.nodeAt id).sym
          weight := if j = 1 then v.toNat % 2 ^ s.cfg.weightW else (s.nodeAt id).weight
          left := if j = 2 then v.toNat % 2 ^ s.cfg.idW else (s.nodeAt id).left
          right := if j = 3 then v.toNat % 2 ^ s.cfg.idW else (s.nodeAt id).right }

/-- R68, R72, R33, R43, R48: the other accepted writes store the low bits of `v` that their field has, and change
nothing else. A ROOT write clears TREE_VALID and CODES_VALID. -/
def Obligations.IdleWriteStoresTheLowBits : Prop :=
  ∀ (s : State) (off : Nat) (v : Word) (rest : List Event), s.cfg.Legal → s.status.busy = false →
    s.Writes off v rest →
    ∃ t, step s = .next t ∧
      (∀ sym < s.cfg.nsym, off = freqAddr sym →
        t = { s with script := rest, freq := t.freq } ∧ s.SameBytesBut t off (off + 4) ∧
          t.freqAt sym = v.toNat % 2 ^ s.cfg.weightW) ∧
      (∀ w < s.cfg.bitsMax / 32, off = bitsAddr w →
        t = { s with script := rest, bits := t.bits } ∧ s.SameBytesBut t off (off + 4) ∧
          ∀ b < 32, t.bitAt (32 * w + b) = v.getLsbD b) ∧
      (off = 0x010 → t = { s with script := rest, ie := v.getLsbD 0 }) ∧
      (off = 0x020 → t = { s with
        script := rest
        root := v.toNat % 2 ^ s.cfg.idW
        status := { s.status with treeValid := false, codesValid := false } }) ∧
      (off = 0x034 → t = { s with script := rest, bitLen := v.toNat % 2 ^ 17 })

/-- R105: what a host write does while BUSY. -/
def Obligations.BusyWriteIsDroppedAndSetsOverrun : Prop :=
  ∀ (s : State) (off : Nat) (v : Word) (rest : List Event), s.status.busy = true → s.Writes off v rest →
    (off = 0x010 → step s = .next { s with script := rest, ie := v.getLsbD 0 }) ∧
    (off = 0x018 → step s = .next { s with
      script := rest
      status := { s.status with
        done := s.status.done && !v.getLsbD 1
        overrun := s.status.overrun && !v.getLsbD 4 } }) ∧
    (off ≠ 0x010 → off ≠ 0x018 →
      step s = .next { s with script := rest, status := { s.status with overrun := true } })

/-- R106: what a host read returns while BUSY. The registers outside ID, CFG, CFG_BITS, CTRL and STATUS and every
memory word answer with the free value of this read, whatever it is; so do STATUS's bits [3:2]. -/
def Obligations.BusyReadIsKnownOrFree : Prop :=
  ∀ (s : State) (off : Nat) (rest : List Event), s.cfg.Legal → s.status.busy = true → s.Reads off rest →
    ∃ t v, step s = .next t ∧
      t = { s with script := rest, replies := { addr := s.cfg.base + off, value := v } :: s.replies, draws := t.draws } ∧
      (off = 0x000 → v = 0x48554646) ∧
      (off = 0x004 → v = cfgWord s.cfg) ∧
      (off = 0x008 → v.toNat = s.cfg.bitsMax) ∧
      (off = 0x010 → v.toNat = s.ie.toNat) ∧
      (off = 0x018 → v.getLsbD 0 = true ∧ v.getLsbD 1 = false ∧ v.getLsbD 2 = (Config.draw s.draws).getLsbD 2 ∧
        v.getLsbD 3 = (Config.draw s.draws).getLsbD 3 ∧ v.getLsbD 4 = s.status.overrun ∧ v.toNat / 2 ^ 5 = 0 ∧
        t.draws = s.draws + 1) ∧
      (off ∈ [0x014, 0x01C, 0x020, 0x024, 0x028, 0x02C, 0x030, 0x034, 0x038, 0x03C] ∨
        (freqAddr 0 ≤ off ∧ off < freqAddr s.cfg.nsym) ∨ (nodeAddr 0 ≤ off ∧ off < nodeAddr s.cfg.nodeMax) ∨
        (heapAddr 0 ≤ off ∧ off < heapAddr s.cfg.heapMax) ∨ (codeAddr 0 ≤ off ∧ off < codeAddr s.cfg.nsym) ∨
        (bitsAddr 0 ≤ off ∧ off < bitsAddr (s.cfg.bitsMax / 32)) ∨
        (outAddr 0 ≤ off ∧ off < outAddr s.cfg.outMax) →
        v = Config.draw s.draws ∧ t.draws = s.draws + 1)

/-- R80: repeating a write to FREQ, NODE, ROOT, BIT_LEN, BITS, CTRL or STATUS, or to an offset that ignores writes,
gives the same state as doing it once. Only a CMD write is left out. -/
def Obligations.RepeatedWriteIsIdempotent : Prop :=
  ∀ (s t : State) (off : Nat) (v : Word) (rest : List Event), s.status.busy = false → off ≠ 0x014 →
    s.Writes off v (.host (.write (s.cfg.base + off) 4 v) :: rest) → step s = .next t →
    step t = .next { t with script := rest }

/-! ## Reset (70_reset_and_hazards.md) -/

/-- R62: the registers after reset, as the host reads them, for every legal configuration; IRQ is 0. -/
def Obligations.ResetGivesTheStatedRegisters : Prop :=
  ∀ c : Config, c.Legal →
    let s := State.resetWith c
    readReg s .id = 0x48554646 ∧ readReg s .cfg = cfgWord c ∧ (readReg s .cfgBits).toNat = c.bitsMax ∧
      readReg s .ctrl = 0 ∧ readReg s .status = 0 ∧ readReg s .errInfo = 0 ∧ readReg s .root = 0 ∧
      readReg s .leafCount = 0 ∧ readReg s .nodeCount = 0 ∧ readReg s .heapSize = 0 ∧
      (readReg s .pqResult).toNat = 2 ^ (c.symW + 1) - 1 ∧ readReg s .bitLen = 0 ∧ readReg s .bitIdx = 0 ∧
      readReg s .outCount = 0 ∧ s.irq = false

/-- R158, R63: asserting reset in any state, busy or not, gives every register its reset value and makes every byte of
memory unspecified (the free value of the new reset); no completion happens, and host accesses are refused until the
release, which leaves the same. -/
def Obligations.ResetAbandonsTheCommand : Prop :=
  ∀ (s : State) (a : Access) (rest : List Event),
    (s.script = .assertReset :: rest →
      ∃ t, step s = .next t ∧ t.inReset = true ∧ t.script = rest ∧ t.epoch = s.epoch + 1 ∧
        (∀ r : Reg, readReg t r = readReg (State.resetWith s.cfg) r) ∧ t.status = Status.reset ∧
        ∀ off, t.memByte off = Config.powerOn t.epoch off) ∧
    (s.inReset = true → s.script = .host a :: rest → step s = .refused .hostAccessDuringReset) ∧
    (s.inReset = true → s.script = .releaseReset :: rest →
      ∃ t, step s = .next t ∧ t.inReset = false ∧ t.script = rest ∧
        (∀ r : Reg, readReg t r = readReg (State.resetWith s.cfg) r) ∧ t.status = Status.reset ∧
        ∀ off, t.memByte off = Config.powerOn t.epoch off)

/-! ## The priority queue (41_priority_queue.md) -/

/-- R114: PQ_CLEAR sets HEAP_SIZE to 0 and changes nothing else but the cycle's flags; HEAP's contents stay. -/
def Obligations.PqClearEmptiesTheQueue : Prop :=
  ∀ s : State, exec .pqClear s = .next { s with
    heapSize := 0
    status := { s.status with busy := false, done := true, err := .ok }
    errInfo := 0 }

/-- R115, R111: PQ_INSERT of an arena id into a queue that is not full adds the entry: only HEAP and HEAP_SIZE change,
and in HEAP only the positions on the path from the new one to the root, which sift-up permutes. -/
def Obligations.PqInsertAddsTheEntry : Prop :=
  ∀ (s : State) (id : Nat), s.Inv → id < s.cfg.nodeMax → s.heapSize < s.cfg.heapMax →
    ∃ t, exec (.pqInsert id) s = .next t ∧
      t = { s with
        heap := t.heap
        heapSize := s.heapSize + 1
        status := { s.status with busy := false, done := true, err := .ok }
        errInfo := 0 } ∧
      t.queue.Perm (id :: s.queue) ∧
      (∀ j, ¬ OnPathUp s.heapSize j → t.heapAt j = s.heapAt j) ∧
      s.SameBytesBut t (heapAddr 0) (heapAddr (s.heapSize + 1))

/-- R115, R91, R147: PQ_INSERT of an id that names no slot fails with BAD_OPERAND and the id, full queue or not; of an
arena id into a full queue with HEAP_FULL and 0. Neither changes HEAP or HEAP_SIZE. -/
def Obligations.PqInsertFailsByName : Prop :=
  ∀ (s : State) (id : Nat),
    (s.cfg.nodeMax ≤ id → exec (.pqInsert id) s = .next { s with
      status := { s.status with busy := false, done := true, err := .badOperand }
      errInfo := BitVec.ofNat 32 id }) ∧
    (id < s.cfg.nodeMax → s.heapSize = s.cfg.heapMax → exec (.pqInsert id) s = .next { s with
      status := { s.status with busy := false, done := true, err := .heapFull }
      errInfo := 0 })

/-- R116, R112: PQ_EXTRACT of a queue that is not empty takes the root out: it is the result, the others stay in the
queue, the slot the last one left and all above it keep their values, and nothing else changes. -/
def Obligations.PqExtractTakesTheRoot : Prop :=
  ∀ s : State, s.Inv → 0 < s.heapSize →
    ∃ t, exec .pqExtract s = .next t ∧
      t = { s with
        heap := t.heap
        heapSize := s.heapSize - 1
        pqResult := s.heapAt 0
        status := { s.status with busy := false, done := true, err := .ok }
        errInfo := 0 } ∧
      (t.pqResult :: t.queue).Perm s.queue ∧
      (∀ j, s.heapSize - 1 ≤ j → t.heapAt j = s.heapAt j) ∧
      s.SameBytesBut t (heapAddr 0) (heapAddr (s.heapSize - 1))

/-- R116: PQ_EXTRACT of the empty queue fails with EMPTY_QUEUE and leaves NIL in PQ_RESULT. -/
def Obligations.PqExtractOnEmptyQueueFails : Prop :=
  ∀ s : State, s.heapSize = 0 → exec .pqExtract s = .next { s with
    pqResult := 2 ^ (s.cfg.symW + 1) - 1
    status := { s.status with busy := false, done := true, err := .emptyQueue }
    errInfo := 0 }

/-- R113: if the heap invariant holds, PQ_INSERT and PQ_EXTRACT keep it, and PQ_EXTRACT returns an entry of least key,
the only one if the ids in the queue are distinct. -/
def Obligations.QueueCommandsKeepHeapOrder : Prop :=
  ∀ s : State, s.Inv → s.HeapOrder →
    (∀ id < s.cfg.nodeMax, s.heapSize < s.cfg.heapMax →
      ∃ t, exec (.pqInsert id) s = .next t ∧ t.status.err = .ok ∧ t.HeapOrder) ∧
    (0 < s.heapSize →
      ∃ t, exec .pqExtract s = .next t ∧ t.status.err = .ok ∧ t.HeapOrder ∧
        (∀ id ∈ s.queue, ¬ lexLt (s.key id) (s.key t.pqResult)) ∧
        (s.queue.Nodup → ∀ id ∈ s.queue, id ≠ t.pqResult → lexLt (s.key t.pqResult) (s.key id)))

/-- R113, R163: no step breaks the heap invariant but an accepted host write to a NODE word. -/
def Obligations.StepKeepsHeapOrder : Prop :=
  ∀ s t : State, s.Inv → s.HeapOrder → step s = .next t →
    (¬ ∃ off v rest, s.status.busy = false ∧ s.Writes off v rest ∧
      nodeAddr 0 ≤ off ∧ off < nodeAddr s.cfg.nodeMax) → t.HeapOrder

/-! ## BUILD (42_tree_builder.md) -/

/-- R121, R117: a BUILD of the empty table fails with EMPTY_INPUT; one whose counts sum to 2^WEIGHT_W or more fails with
WEIGHT_OVERFLOW and the first symbol at which the running sum reaches it. Either clears TREE_VALID and CODES_VALID and
changes nothing else but the cycle's flags, ERR and ERR_INFO. -/
def Obligations.FailedBuildChangesOnlyFlags : Prop :=
  ∀ s : State,
    ((∀ sym < s.cfg.nsym, s.freqAt sym = 0) → exec .build s = .next { s with
      status := { s.status with busy := false, done := true, treeValid := false, codesValid := false, err := .emptyInput }
      errInfo := 0 }) ∧
    (∀ k < s.cfg.nsym, 2 ^ s.cfg.weightW ≤ ((List.range (k + 1)).map s.freqAt).sum →
      ((List.range k).map s.freqAt).sum < 2 ^ s.cfg.weightW → exec .build s = .next { s with
        status := { s.status with
          busy := false, done := true, treeValid := false, codesValid := false, err := .weightOverflow }
        errInfo := BitVec.ofNat 32 k })

/-- R117, R126, R54: a BUILD of n ≥ 1 present symbols whose counts sum below 2^WEIGHT_W leaves, from ROOT, a tree of
the slots 0..2n-2, each once, children below parents, whose weight is the sum of the counts; the queue is empty, and
nothing changes but NODE 0..2n-2, HEAP 0..n-1 and the result registers and flags. -/
def Obligations.BuildPlantsTheTree : Prop :=
  ∀ s : State, s.Inv → s.presentSyms ≠ [] → s.freqs.sum < 2 ^ s.cfg.weightW →
    ∃ (t : State) (T : HTree), exec .build s = .next t ∧
      t = { s with
        node := t.node
        heap := t.heap
        heapSize := 0
        root := 2 * s.presentSyms.length - 2
        leafCount := s.presentSyms.length
        nodeCount := 2 * s.presentSyms.length - 1
        status := { s.status with busy := false, done := true, treeValid := true, codesValid := false, err := .ok }
        errInfo := 0 } ∧
      T.InArena t ∧ T.id = t.root ∧ T.ids.Perm (List.range t.nodeCount) ∧ T.ChildrenSmaller ∧
      T.symbols.Perm s.presentSyms ∧ T.weight = s.freqs.sum ∧
      ∀ off, (off < nodeAddr 0 ∨ nodeAddr (2 * s.presentSyms.length - 1) ≤ off) →
        (off < heapAddr 0 ∨ heapAddr s.presentSyms.length ≤ off) → t.memByte off = s.memByte off

/-- R118: the k-th smallest present symbol's leaf has id k, and the internal nodes have ids n..2n-2. -/
def Obligations.BuildNumbersTheLeavesInSymbolOrder : Prop :=
  ∀ s t : State, s.Inv → exec .build s = .next t → t.status.err = .ok →
    (∀ k sym, s.presentSyms[k]? = some sym → t.nodeAt k =
      { isLeaf := true, sym := sym, weight := s.freqAt sym, left := s.cfg.nil, right := s.cfg.nil }) ∧
    ∀ id, s.presentSyms.length ≤ id → id < t.nodeCount → (t.nodeAt id).isLeaf = false ∧ (t.nodeAt id).sym = 0

/-- R119, R125: each internal node merges the two waiting nodes of least (weight, id), and the lesser is LEFT. With
R118 this fixes the tree. -/
def Obligations.BuildMergesTheTwoLeast : Prop :=
  ∀ s t : State, s.Inv → exec .build s = .next t → t.status.err = .ok →
    ∀ m, s.presentSyms.length ≤ m → m < t.nodeCount → t.MergesTwoLeast s.presentSyms.length m

/-- R123: with one present symbol, BUILD writes its leaf as NODE[0] and makes it the root, with no internal node. -/
def Obligations.BuildOfOneSymbolIsItsLeaf : Prop :=
  ∀ (s : State) (sym : Nat), s.Inv → s.presentSyms = [sym] →
    ∃ t, exec .build s = .next t ∧ t.status.err = .ok ∧ t.status.treeValid = true ∧
      t.nodeAt 0 =
        { isLeaf := true, sym := sym, weight := s.freqAt sym, left := s.cfg.nil, right := s.cfg.nil } ∧
      t.root = 0 ∧ t.leafCount = 1 ∧ t.nodeCount = 1 ∧ t.heapSize = 0

/-- R127: no binary tree with the same symbols has a smaller weighted path length than the one BUILD makes. -/
def Obligations.BuildTreeIsOptimal : Prop :=
  ∀ (s t : State) (T : HTree), s.Inv → exec .build s = .next t → t.status.err = .ok →
    T.InArena t → T.id = t.root →
    ∀ U : HTree, U.symbols.Perm T.symbols → T.cost s.freqAt ≤ U.cost s.freqAt

/-! ## GENCODES (43_code_generator.md) -/

/-- R131: a GENCODES without a valid tree fails with NO_TREE and changes only ERR, ERR_INFO and the cycle's flags. -/
def Obligations.GenCodesWithoutTreeFails : Prop :=
  ∀ s : State, s.status.treeValid = false → exec .genCodes s = .next { s with
    status := { s.status with busy := false, done := true, err := .noTree }
    errInfo := 0 }

/-- R128, R129, R130: GENCODES of a valid tree with distinct symbols writes the tree's table, every other entry
cleared; nothing else changes. -/
def Obligations.GenCodesWritesTheTable : Prop :=
  ∀ (s : State) (T : HTree), s.Inv → s.status.treeValid = true → T.InArena s → T.id = s.root → T.symbols.Nodup →
    ∃ t, exec .genCodes s = .next t ∧
      t = { s with
        code := t.code
        status := { s.status with busy := false, done := true, codesValid := true, err := .ok }
        errInfo := 0 } ∧
      (∀ sym < s.cfg.nsym, t.codeAt sym = T.entry sym) ∧
      s.SameBytesBut t (codeAddr 0) (codeAddr s.cfg.nsym)

/-- R132: the table has LEAF_COUNT codewords, one for each symbol of the tree at ROOT, of 1 to MAX_CODE_LEN digits and
of the leaf's depth if there are two symbols or more, prefix-free; and with two symbols or more they meet the Kraft
equality. -/
def Obligations.GenCodesTableIsPrefixFree : Prop :=
  ∀ s : State, s.Inv → s.TreeInv → s.status.treeValid = true →
    ∃ (t : State) (T : HTree), exec .genCodes s = .next t ∧ T.InArena s ∧ T.id = s.root ∧
      (List.range s.cfg.nsym).countP (fun sym => (t.codeAt sym).valid) = s.leafCount ∧
      (∀ sym < s.cfg.nsym, (t.codeAt sym).valid = true ↔ sym ∈ T.symbols) ∧
      (2 ≤ s.leafCount → ∀ p ∈ T.paths, (t.codeAt p.1).len = p.2.length) ∧
      (∀ sym < s.cfg.nsym, (t.codeAt sym).valid = true →
        1 ≤ (t.codeAt sym).len ∧ (t.codeAt sym).len ≤ s.cfg.maxCodeLen) ∧
      (∀ x < s.cfg.nsym, ∀ y < s.cfg.nsym, x ≠ y → (t.codeAt x).valid = true → (t.codeAt y).valid = true →
        ¬ (t.codeAt x).digits <+: (t.codeAt y).digits) ∧
      (2 ≤ s.leafCount →
        (((List.range s.cfg.nsym).filter (fun sym => (t.codeAt sym).valid)).map
          (fun sym => 2 ^ (s.cfg.maxCodeLen - (t.codeAt sym).len))).sum = 2 ^ s.cfg.maxCodeLen)

/-! ## DECODE (44_decoder.md) -/

/-- R134, R147: DECODE checks ROOT, then BIT_LEN: each failure is BAD_OPERAND with the offending value, BIT_IDX = 0,
OUT_COUNT = 0, and nothing else changes. -/
def Obligations.DecodeBadOperandFails : Prop :=
  ∀ s : State,
    (s.root = 2 ^ (s.cfg.symW + 1) - 1 → exec .decode s = .next { s with
      bitIdx := 0
      outCount := 0
      status := { s.status with busy := false, done := true, err := .badOperand }
      errInfo := BitVec.ofNat 32 s.root }) ∧
    (s.root ≠ 2 ^ (s.cfg.symW + 1) - 1 → s.cfg.bitsMax < s.bitLen → exec .decode s = .next { s with
      bitIdx := 0
      outCount := 0
      status := { s.status with busy := false, done := true, err := .badOperand }
      errInfo := BitVec.ofNat 32 s.bitLen })

/-- R134, R140, R141, R164: in every state DECODE completes; it changes OUT, BIT_IDX, OUT_COUNT, the cycle's flags, ERR
and ERR_INFO only. A success writes OUT below OUT_COUNT only. A failure leaves OUT_COUNT = 0 and writes OUT below
BIT_IDX only; how many symbols it wrote, DecodeOfCutCodewordIsTruncated and the statements after it say. -/
def Obligations.DecodeChangesOnlyItsResults : Prop :=
  ∀ s : State, ∃ t, exec .decode s = .next t ∧
    t = { s with
      out := t.out
      bitIdx := t.bitIdx
      outCount := t.outCount
      status := { s.status with busy := false, done := true, err := t.status.err }
      errInfo := t.errInfo } ∧
    t.outCount ≤ t.bitIdx ∧ t.bitIdx ≤ s.bitLen ∧
    (t.status.err = .ok → s.SameBytesBut t (outAddr 0) (outAddr t.outCount)) ∧
    (t.status.err ≠ .ok → t.outCount = 0 ∧ s.SameBytesBut t (outAddr 0) (outAddr t.bitIdx))

/-- R134, R139: over any arena, if the bits are codewords from ROOT followed by a walk that ends at ROOT's id, DECODE
succeeds with the codewords' symbols. -/
def Obligations.DecodeOfCodewordsSucceeds : Prop :=
  ∀ (s : State) (chunks : List (List Bool × Nat)) (rest : List Bool), s.Inv → s.root ≠ s.cfg.nil →
    s.bitLen ≤ s.cfg.bitsMax → (s.nodeAt s.root).isLeaf = false → SpellsAll s s.root chunks →
    Walk s s.root rest s.root → s.stream = digitsOf chunks ++ rest →
    ∃ t, exec .decode s = .next t ∧ t.CompletedWith .ok 0 ∧ t.bitIdx = s.bitLen ∧
      t.outCount = chunks.length ∧ t.decoded chunks.length = symbolsOf chunks

/-- R134, R138: if the bits end inside a codeword, DECODE fails with TRUNCATED_ENCODING and the index where that
codeword began; BIT_IDX is BIT_LEN, OUT_COUNT is 0, OUT holds the symbols before it and is unchanged (R140) above
them. -/
def Obligations.DecodeOfCutCodewordIsTruncated : Prop :=
  ∀ (s : State) (chunks : List (List Bool × Nat)) (rest : List Bool) (x : Nat), s.Inv → s.root ≠ s.cfg.nil →
    s.bitLen ≤ s.cfg.bitsMax → (s.nodeAt s.root).isLeaf = false → SpellsAll s s.root chunks →
    Walk s s.root rest x → x ≠ s.root → s.stream = digitsOf chunks ++ rest →
    ∃ t, exec .decode s = .next t ∧
      t.CompletedWith .truncatedEncoding (BitVec.ofNat 32 (digitsOf chunks).length) ∧
      t.bitIdx = s.bitLen ∧ t.outCount = 0 ∧ t.decoded chunks.length = symbolsOf chunks ∧
      s.SameBytesBut t (outAddr 0) (outAddr chunks.length)

/-- R134, R139: at the first bit that asks for an absent child, DECODE fails with MALFORMED_ENCODING and that bit's
index, which BIT_IDX holds too; OUT holds the symbols before it and is unchanged (R140) above them. -/
def Obligations.DecodeOfAbsentChildIsMalformed : Prop :=
  ∀ (s : State) (chunks : List (List Bool × Nat)) (walked more : List Bool) (d : Bool) (x : Nat), s.Inv →
    s.root ≠ s.cfg.nil → s.bitLen ≤ s.cfg.bitsMax → (s.nodeAt s.root).isLeaf = false →
    SpellsAll s s.root chunks → Walk s s.root walked x → childOf (s.nodeAt x) d = s.cfg.nil →
    s.stream = digitsOf chunks ++ walked ++ d :: more →
    ∃ t, exec .decode s = .next t ∧
      t.CompletedWith .malformedEncoding (BitVec.ofNat 32 ((digitsOf chunks).length + walked.length)) ∧
      t.bitIdx = (digitsOf chunks).length + walked.length ∧ t.outCount = 0 ∧
      t.decoded chunks.length = symbolsOf chunks ∧ s.SameBytesBut t (outAddr 0) (outAddr chunks.length)

/-- R137: if ROOT is a leaf, each 0 bit emits its symbol, and the first 1 bit, if any, is MALFORMED_ENCODING at that
bit, with OUT unchanged (R140) above the symbols emitted; TRUNCATED_ENCODING cannot occur. -/
def Obligations.DecodeOfOneLeafCountsZeros : Prop :=
  ∀ s : State, s.Inv → s.root ≠ s.cfg.nil → s.bitLen ≤ s.cfg.bitsMax → (s.nodeAt s.root).isLeaf = true →
    ((∀ i < s.bitLen, s.bitAt i = false) →
      ∃ t, exec .decode s = .next t ∧ t.CompletedWith .ok 0 ∧ t.bitIdx = s.bitLen ∧ t.outCount = s.bitLen ∧
        t.decoded s.bitLen = List.replicate s.bitLen (s.nodeAt s.root).sym) ∧
    (∀ i < s.bitLen, s.bitAt i = true → (∀ j < i, s.bitAt j = false) →
      ∃ t, exec .decode s = .next t ∧ t.CompletedWith .malformedEncoding (BitVec.ofNat 32 i) ∧ t.bitIdx = i ∧
        t.outCount = 0 ∧ t.decoded i = List.replicate i (s.nodeAt s.root).sym ∧
        s.SameBytesBut t (outAddr 0) (outAddr i))

/-- R136: with BIT_LEN = 0 DECODE succeeds with OUT_COUNT = 0 and BIT_IDX = 0, for a leaf root and an internal root
alike. -/
def Obligations.DecodeOfNoBitsSucceeds : Prop :=
  ∀ s : State, s.root ≠ s.cfg.nil → s.bitLen = 0 → exec .decode s = .next { s with
    bitIdx := 0
    outCount := 0
    status := { s.status with busy := false, done := true, err := .ok }
    errInfo := 0 }

/-- R142: the round trip. With FREQ the counts of a non-empty sequence whose total is below 2^WEIGHT_W, BUILD then
GENCODES succeed, HostEncode finds every codeword, and once the encoding is in the encoded-bit memory, if it fits,
DECODE gives the sequence back. It is law (1) of R26. -/
def Obligations.RoundTripGivesTheSequenceBack : Prop :=
  ∀ (s : State) (seq : List Nat), s.Inv → seq ≠ [] → (∀ sym ∈ seq, sym < s.cfg.nsym) →
    seq.length < 2 ^ s.cfg.weightW → s.freqs = hostCount s.cfg seq →
    ∃ (s1 s2 : State) (ds : List Bool), exec .build s = .next s1 ∧ s1.status.err = .ok ∧
      exec .genCodes s1 = .next s2 ∧ s2.status.err = .ok ∧ hostEncode s2 seq = .ok ds ∧
      ∀ s3 : State, s3 = { s2 with bits := s3.bits, bitLen := ds.length } → ds.length ≤ s.cfg.bitsMax →
        s3.stream = ds →
        ∃ t, exec .decode s3 = .next t ∧ t.status.err = .ok ∧ t.outCount = seq.length ∧
          t.decoded seq.length = seq

/-- R26 (2): the encoded length is the sum of FREQ[s]·CODE[s].LEN. -/
def Obligations.EncodedLengthIsTheWeightedSum : Prop :=
  ∀ (s : State) (seq : List Nat) (ds : List Bool), s.freqs = hostCount s.cfg seq →
    (∀ sym ∈ seq, sym < s.cfg.nsym) → hostEncode s seq = .ok ds →
    ds.length = ((List.range s.cfg.nsym).map (fun sym => s.freqAt sym * (s.codeAt sym).len)).sum

/-! ## Invariants -/

/-- The state after reset meets both invariants, for every legal configuration (R62). -/
def Obligations.ResetMeetsTheInvariants : Prop :=
  ∀ c : Config, c.Legal → (State.resetWith c).Inv ∧ (State.resetWith c).TreeInv ∧ (State.resetWith c).HeapOrder

/-- Every step keeps the invariant of the registers and of the memories' form, from every state that meets it. -/
def Obligations.StepKeepsInv : Prop :=
  ∀ s t : State, s.Inv → step s = .next t → t.Inv

/-- R35, R38, R39: every step keeps the meaning of TREE_VALID and CODES_VALID: the arena holds a built tree, and CODE
its table. -/
def Obligations.StepKeepsTreeInv : Prop :=
  ∀ s t : State, s.Inv → s.TreeInv → step s = .next t → t.TreeInv

/-! ## The fixed-width bound (00_scope.md R26) -/

/-- R26 (3): for an alphabet of n ≥ 2 present symbols, the encoding of a sequence with the table BUILD and GENCODES make
of its counts is no longer than length(seq)·ceil(log2 n), the length of a fixed-width encoding. 90_conflicts.md C7: the
bound is not claimed for n = 1. The alphabet is that of the table (95_test_vectors.md PROP-2: n = 5 for "abracadabra"). -/
def Obligations.EncodedLengthIsWithinTheFixedWidth : Prop :=
  ∀ (s : State) (seq : List Nat), s.Inv → (∀ sym ∈ seq, sym < s.cfg.nsym) → seq.length < 2 ^ s.cfg.weightW →
    s.freqs = hostCount s.cfg seq → 2 ≤ s.presentSyms.length →
    ∃ (s1 s2 : State) (ds : List Bool), exec .build s = .next s1 ∧ s1.status.err = .ok ∧
      exec .genCodes s1 = .next s2 ∧ s2.status.err = .ok ∧ hostEncode s2 seq = .ok ds ∧
      ds.length ≤ seq.length * fixedWidth s.presentSyms.length
end

