-- ==== Sys2Proof/Laws/Config.lean ====
section
/-! SUPPORT. Facts about the derived sizes (00_scope.md R12, R14). -/

namespace Sys2Proof.Config

theorem nsym_pos (c : Config) : 0 < c.nsym := Nat.two_pow_pos _

theorem two_pow_idW (c : Config) : 2 ^ c.idW = 2 * c.nsym := by
  simp [idW, nsym, Nat.pow_succ, Nat.mul_comm]

/-- NIL = NODE_MAX, so NIL names no arena slot (R12). -/
theorem nil_eq_nodeMax (c : Config) : c.nil = c.nodeMax := by
  simp [nil, nodeMax, two_pow_idW]

theorem nodeMax_lt (c : Config) : c.nodeMax < 2 ^ c.idW := by
  have := c.nsym_pos
  rw [two_pow_idW, nodeMax]; omega

theorem nil_lt (c : Config) : c.nil < 2 ^ c.idW := by
  have := Nat.two_pow_pos c.idW
  rw [nil]; omega

section
variable {c : Config} (h : c.Legal)
include h

theorem two_pow_symW_le : 2 ^ c.symW ≤ 2 ^ 8 := Nat.pow_le_pow_right (by omega) h.2.1

theorem nsym_le : c.nsym ≤ 256 := two_pow_symW_le h

theorem two_le_nsym : 2 ≤ c.nsym :=
  le_trans (by norm_num) (Nat.pow_le_pow_right (n := 2) (by omega) h.1)

theorem two_pow_weightW_le : 2 ^ c.weightW ≤ 2 ^ 32 := Nat.pow_le_pow_right (by omega) h.2.2.2.1

theorem two_pow_idW_le : 2 ^ c.idW ≤ 2 ^ 9 := by
  have := nsym_le h
  rw [two_pow_idW]; omega

theorem maxCodeLen_le : c.maxCodeLen ≤ 255 := by
  have := nsym_le h
  rw [maxCodeLen]; omega

theorem nodeMax_le : c.nodeMax ≤ 511 := by
  have := nsym_le h
  rw [nodeMax]; omega

end

end Sys2Proof.Config
end

