-- ==== Sys2Proof/Laws/Memory.lean ====
section
/-! SUPPORT. The laws of memories: a read after a write to the same place gives the value written, a write leaves
every other place alone, and every write keeps the canonical form. -/

namespace Sys2Proof.Machine

/-! ## Bit fields -/

theorem low_lt (w v : Nat) : low w v < 2 ^ w := Nat.mod_lt _ (Nat.two_pow_pos w)

theorem low_of_lt {w v : Nat} (h : v < 2 ^ w) : low w v = v := Nat.mod_eq_of_lt h

@[simp] theorem low_low (w v : Nat) : low w (low w v) = low w v := low_of_lt (low_lt w v)

theorem low_le (w v : Nat) : low w v ≤ v := Nat.mod_le _ _

theorem toWord_toNat {v : Nat} (h : v < 2 ^ 32) : (toWord v).toNat = v := by
  simpa [toWord] using Nat.mod_eq_of_lt h

/-! ## The cells of a write -/

theorem cellsAt_range {c : Host.Cell} : ∀ {bs : List Byte} {a : Nat}, c ∈ cellsAt a bs → a ≤ c.1 ∧ c.1 < a + bs.length
  | [], _, h => by simp [cellsAt] at h
  | b :: bs, a, h => by
    rcases List.mem_cons.1 h with rfl | h
    · simp
    · have := cellsAt_range h
      simp only [List.length_cons]; omega

theorem cellsAt_wf : ∀ (a : Nat) (bs : List Byte), Memory.wf (cellsAt a bs)
  | _, [] => List.Pairwise.nil
  | a, _ :: bs => List.Pairwise.cons (fun _ h => (cellsAt_range h).1) (cellsAt_wf (a + 1) bs)

theorem lookup_cellsAt : ∀ (bs : List Byte) (a i : Nat), Memory.lookup (cellsAt a bs) (a + i) = bs[i]?
  | [], _, _ => by simp [cellsAt, Memory.lookup]
  | b :: bs, a, 0 => by simp [cellsAt, Memory.lookup]
  | b :: bs, a, i + 1 => by
    have h := lookup_cellsAt bs (a + 1) i
    rw [show a + 1 + i = a + (i + 1) by omega] at h
    simp [cellsAt, Memory.lookup, h]

theorem lookup_eq_none : ∀ {m : Memory} {a : Nat}, (∀ c ∈ m, c.1 ≠ a) → Memory.lookup m a = none
  | [], _, _ => rfl
  | (k, b) :: m, a, h => by
    have h0 := h (k, b) (by simp)
    have h1 := lookup_eq_none (m := m) (a := a) fun c hc => h c (by simp [hc])
    simp [Memory.lookup, h0, h1]

theorem lookup_append : ∀ (m n : Memory) (a : Nat),
    Memory.lookup (m ++ n) a = (Memory.lookup m a).or (Memory.lookup n a)
  | [], n, a => by simp [Memory.lookup]
  | (k, b) :: m, n, a => by
    by_cases h : k = a <;> simp [Memory.lookup, h, lookup_append m n a]

theorem lookup_filter (p : Nat → Bool) : ∀ (m : Memory) (a : Nat),
    Memory.lookup (m.filter (fun c => p c.1)) a = if p a then Memory.lookup m a else none
  | [], a => by simp [Memory.lookup]
  | (k, b) :: m, a => by
    have ih := lookup_filter p m a
    by_cases hk : p k <;> by_cases h : k = a <;> simp_all [Memory.lookup]

/-! ## Reading after writing -/

/-- Everything a store does, byte by byte. -/
theorem lookup_store (m : Memory) (a : Nat) (bs : List Byte) (x : Nat) :
    Memory.lookup (Memory.store m a bs) x =
      if a ≤ x ∧ x < a + bs.length then bs[x - a]? else Memory.lookup m x := by
  unfold Memory.store
  rw [lookup_append, lookup_append, lookup_filter (fun k => decide (k < a)),
    lookup_filter (fun k => decide (a + bs.length ≤ k))]
  by_cases h1 : x < a
  · have hn : Memory.lookup (cellsAt a bs) x = none :=
      lookup_eq_none fun c hc => by have := cellsAt_range hc; omega
    have h2 : ¬ a + bs.length ≤ x := by omega
    have h3 : ¬ (a ≤ x ∧ x < a + bs.length) := by omega
    simp [h1, hn, h2, h3]
  · by_cases h2 : x < a + bs.length
    · have h := lookup_cellsAt bs a (x - a)
      rw [show a + (x - a) = x by omega] at h
      have h3 : ¬ a + bs.length ≤ x := by omega
      simp [h1, h2, h3, h, show a ≤ x by omega]
    · have hn : Memory.lookup (cellsAt a bs) x = none :=
        lookup_eq_none fun c hc => by have := cellsAt_range hc; omega
      simp [h1, h2, hn, show a + bs.length ≤ x by omega]

theorem byte_store_outside (e : Nat) (m : Memory) {a x : Nat} {bs : List Byte} (h : x < a ∨ a + bs.length ≤ x) :
    Memory.byte e (Memory.store m a bs) x = Memory.byte e m x := by
  have h' : ¬ (a ≤ x ∧ x < a + bs.length) := by omega
  simp [Memory.byte, lookup_store, h']

theorem byte_store_inside (e : Nat) (m : Memory) {a i : Nat} {bs : List Byte} (h : i < bs.length) :
    Memory.byte e (Memory.store m a bs) (a + i) = bs[i] := by
  simp [Memory.byte, lookup_store, h, show a + i - a = i by omega]

@[simp] theorem leBytes_length : ∀ (n v : Nat), (leBytes n v).length = n
  | 0, _ => rfl
  | n + 1, v => by simp [leBytes, leBytes_length n]

theorem load_congr (e : Nat) {m m' : Memory} : ∀ {n a : Nat},
    (∀ x, a ≤ x → x < a + n → Memory.byte e m x = Memory.byte e m' x) → Memory.load e m a n = Memory.load e m' a n
  | 0, _, _ => rfl
  | n + 1, a, h => by
    simp only [Memory.load]
    rw [h a (by omega) (by omega), load_congr e (n := n) (a := a + 1) fun x h1 h2 => h x (by omega) (by omega)]

/-- A store leaves every other place alone. -/
theorem load_store_outside (e : Nat) (m : Memory) {a b n : Nat} {bs : List Byte}
    (h : b + n ≤ a ∨ a + bs.length ≤ b) : Memory.load e (Memory.store m a bs) b n = Memory.load e m b n :=
  load_congr e fun _ h1 h2 => byte_store_outside e m (by omega)

theorem load_of_bytes (e : Nat) {m : Memory} : ∀ {n a v : Nat},
    (∀ i, (h : i < n) → Memory.byte e m (a + i) = (leBytes n v)[i]'(by simpa using h)) →
      Memory.load e m a n = v % 2 ^ (8 * n)
  | 0, _, v, _ => by simp [Memory.load, Nat.mod_one]
  | n + 1, a, v, h => by
    have h0 := h 0 (by omega)
    have ih := load_of_bytes e (m := m) (n := n) (a := a + 1) (v := v / 2 ^ 8) fun i hi => by
      have := h (i + 1) (by omega)
      rw [show a + 1 + i = a + (i + 1) by omega, this]
      simp [leBytes]
    simp only [Nat.add_zero, leBytes, List.getElem_cons_zero] at h0
    simp only [Memory.load, ih, h0, BitVec.toNat_ofNat]
    rw [show 8 * (n + 1) = 8 + 8 * n by ring, Nat.pow_add, Nat.mod_mul]

/-- A load of what was just stored. -/
theorem load_store_same (e : Nat) (m : Memory) (a n v : Nat) :
    Memory.load e (Memory.store m a (leBytes n v)) a n = v % 2 ^ (8 * n) :=
  load_of_bytes e fun i h => byte_store_inside e m (by simpa using h)

theorem loadWord_storeWord_same (e : Nat) (m : Memory) (a v : Nat) :
    Memory.loadWord e (Memory.storeWord m a v) a = low 32 v := load_store_same e m a 4 v

theorem loadWord_storeWord_other (e : Nat) (m : Memory) {a b : Nat} (v : Nat) (h : b + 4 ≤ a ∨ a + 4 ≤ b) :
    Memory.loadWord e (Memory.storeWord m a v) b = Memory.loadWord e m b :=
  load_store_outside e m (by simpa using h)

theorem byte_storeWord_outside (e : Nat) (m : Memory) {a x : Nat} (v : Nat) (h : x < a ∨ a + 4 ≤ x) :
    Memory.byte e (Memory.storeWord m a v) x = Memory.byte e m x :=
  byte_store_outside e m (by simpa using h)

theorem load_lt (e : Nat) (m : Memory) : ∀ (n a : Nat), Memory.load e m a n < 2 ^ (8 * n)
  | 0, _ => by simp [Memory.load]
  | n + 1, a => by
    have h := load_lt e m n (a + 1)
    have hb : (Memory.byte e m a).toNat < 2 ^ 8 := (Memory.byte e m a).isLt
    simp only [Memory.load]
    rw [show 8 * (n + 1) = 8 + 8 * n by ring, Nat.pow_add]
    omega

/-! ## The canonical form -/

theorem nil_wf : Memory.wf [] := List.Pairwise.nil

/-- Every store keeps the canonical form. -/
theorem store_wf {m : Memory} (h : m.wf) (a : Nat) (bs : List Byte) : (Memory.store m a bs).wf := by
  unfold Memory.store Memory.wf
  rw [List.pairwise_append, List.pairwise_append]
  refine ⟨⟨h.filter _, cellsAt_wf a bs, ?_⟩, h.filter _, ?_⟩
  · intro c hc d hd
    have := cellsAt_range hd
    have : c.1 < a := by simpa using (List.mem_filter.1 hc).2
    omega
  · intro c hc d hd
    have hd' : a + bs.length ≤ d.1 := by simpa using (List.mem_filter.1 hd).2
    rcases List.mem_append.1 hc with hc | hc
    · have : c.1 < a := by simpa using (List.mem_filter.1 hc).2
      omega
    · have := cellsAt_range hc
      omega

theorem storeWord_wf {m : Memory} (h : m.wf) (a v : Nat) : (Memory.storeWord m a v).wf := store_wf h a _

theorem mem_store {m : Memory} {a : Nat} {bs : List Byte} {c : Host.Cell} (h : c ∈ Memory.store m a bs) :
    c ∈ m ∨ (a ≤ c.1 ∧ c.1 < a + bs.length) := by
  unfold Memory.store at h
  rcases List.mem_append.1 h with h | h
  · rcases List.mem_append.1 h with h | h
    · exact .inl (List.mem_filter.1 h).1
    · exact .inr (cellsAt_range h)
  · exact .inl (List.mem_filter.1 h).1

/-- Storing the same bytes again changes nothing. -/
theorem store_store_same (m : Memory) (a : Nat) (bs : List Byte) :
    Memory.store (Memory.store m a bs) a bs = Memory.store m a bs := by
  have hc1 : (cellsAt a bs).filter (fun c => decide (c.1 < a)) = [] :=
    List.filter_eq_nil_iff.2 fun c hc => by have := cellsAt_range hc; simp; omega
  have hc2 : (cellsAt a bs).filter (fun c => decide (a + bs.length ≤ c.1)) = [] :=
    List.filter_eq_nil_iff.2 fun c hc => by have := cellsAt_range hc; simp; omega
  have h12 : m.filter (fun c => decide (c.1 < a) && decide (a + bs.length ≤ c.1)) = [] :=
    List.filter_eq_nil_iff.2 fun c _ => by simp; omega
  have h21 : m.filter (fun c => decide (a + bs.length ≤ c.1) && decide (c.1 < a)) = [] :=
    List.filter_eq_nil_iff.2 fun c _ => by simp; omega
  simp only [Memory.store, List.filter_append, hc1, hc2, List.filter_filter, h12, h21, Bool.and_self,
    List.append_nil, List.nil_append]

theorem storeWord_storeWord_same (m : Memory) (a v : Nat) :
    Memory.storeWord (Memory.storeWord m a v) a v = Memory.storeWord m a v := store_store_same m a _

/-- The memories after reset have the canonical form: nothing is listed. -/
theorem resetWith_wf (c : Config) :
    let s := State.resetWith c
    s.freq.wf ∧ s.node.wf ∧ s.heap.wf ∧ s.code.wf ∧ s.bits.wf ∧ s.out.wf :=
  ⟨nil_wf, nil_wf, nil_wf, nil_wf, nil_wf, nil_wf⟩

end Sys2Proof.Machine
end

