-- ==== Sys2Proof/Laws/State.lean ====
section
/-! SUPPORT. One lemma per field per update of State, each true by rfl, so that no proof unfolds a record update. -/

namespace Sys2Proof.Machine

/-! ### accept -/

@[simp] theorem accept_cfg (v : Word) (s : State) : (accept v s).cfg = s.cfg := rfl
@[simp] theorem accept_ie (v : Word) (s : State) : (accept v s).ie = s.ie := rfl
@[simp] theorem accept_status_busy (v : Word) (s : State) : (accept v s).status.busy = true := rfl
@[simp] theorem accept_status_done (v : Word) (s : State) : (accept v s).status.done = false := rfl
@[simp] theorem accept_status_treeValid (v : Word) (s : State) : (accept v s).status.treeValid = s.status.treeValid := rfl
@[simp] theorem accept_status_codesValid (v : Word) (s : State) : (accept v s).status.codesValid = s.status.codesValid := rfl
@[simp] theorem accept_status_overrun (v : Word) (s : State) : (accept v s).status.overrun = s.status.overrun := rfl
@[simp] theorem accept_status_err (v : Word) (s : State) : (accept v s).status.err = .ok := rfl
@[simp] theorem accept_errInfo (v : Word) (s : State) :
    (accept v s).errInfo = 0 := rfl
@[simp] theorem accept_root (v : Word) (s : State) : (accept v s).root = s.root := rfl
@[simp] theorem accept_leafCount (v : Word) (s : State) : (accept v s).leafCount = s.leafCount := rfl
@[simp] theorem accept_nodeCount (v : Word) (s : State) : (accept v s).nodeCount = s.nodeCount := rfl
@[simp] theorem accept_heapSize (v : Word) (s : State) : (accept v s).heapSize = s.heapSize := rfl
@[simp] theorem accept_pqResult (v : Word) (s : State) : (accept v s).pqResult = s.pqResult := rfl
@[simp] theorem accept_bitLen (v : Word) (s : State) : (accept v s).bitLen = s.bitLen := rfl
@[simp] theorem accept_bitIdx (v : Word) (s : State) : (accept v s).bitIdx = s.bitIdx := rfl
@[simp] theorem accept_outCount (v : Word) (s : State) : (accept v s).outCount = s.outCount := rfl
@[simp] theorem accept_cmdlat (v : Word) (s : State) :
    (accept v s).cmdlat = v := rfl
@[simp] theorem accept_freq (v : Word) (s : State) : (accept v s).freq = s.freq := rfl
@[simp] theorem accept_node (v : Word) (s : State) : (accept v s).node = s.node := rfl
@[simp] theorem accept_heap (v : Word) (s : State) : (accept v s).heap = s.heap := rfl
@[simp] theorem accept_code (v : Word) (s : State) : (accept v s).code = s.code := rfl
@[simp] theorem accept_bits (v : Word) (s : State) : (accept v s).bits = s.bits := rfl
@[simp] theorem accept_out (v : Word) (s : State) : (accept v s).out = s.out := rfl
@[simp] theorem accept_inReset (v : Word) (s : State) : (accept v s).inReset = s.inReset := rfl
@[simp] theorem accept_script (v : Word) (s : State) : (accept v s).script = s.script := rfl
@[simp] theorem accept_replies (v : Word) (s : State) : (accept v s).replies = s.replies := rfl
@[simp] theorem accept_draws (v : Word) (s : State) : (accept v s).draws = s.draws := rfl
@[simp] theorem accept_epoch (v : Word) (s : State) : (accept v s).epoch = s.epoch := rfl

/-! ### complete -/

@[simp] theorem complete_cfg (e : ErrCode) (d : Word) (s : State) : (complete e d s).cfg = s.cfg := rfl
@[simp] theorem complete_ie (e : ErrCode) (d : Word) (s : State) : (complete e d s).ie = s.ie := rfl
@[simp] theorem complete_status_busy (e : ErrCode) (d : Word) (s : State) : (complete e d s).status.busy = false := rfl
@[simp] theorem complete_status_done (e : ErrCode) (d : Word) (s : State) : (complete e d s).status.done = true := rfl
@[simp] theorem complete_status_treeValid (e : ErrCode) (d : Word) (s : State) : (complete e d s).status.treeValid = s.status.treeValid := rfl
@[simp] theorem complete_status_codesValid (e : ErrCode) (d : Word) (s : State) : (complete e d s).status.codesValid = s.status.codesValid := rfl
@[simp] theorem complete_status_overrun (e : ErrCode) (d : Word) (s : State) : (complete e d s).status.overrun = s.status.overrun := rfl
@[simp] theorem complete_status_err (e : ErrCode) (d : Word) (s : State) : (complete e d s).status.err = e := rfl
@[simp] theorem complete_errInfo (e : ErrCode) (d : Word) (s : State) :
    (complete e d s).errInfo = d := rfl
@[simp] theorem complete_root (e : ErrCode) (d : Word) (s : State) : (complete e d s).root = s.root := rfl
@[simp] theorem complete_leafCount (e : ErrCode) (d : Word) (s : State) : (complete e d s).leafCount = s.leafCount := rfl
@[simp] theorem complete_nodeCount (e : ErrCode) (d : Word) (s : State) : (complete e d s).nodeCount = s.nodeCount := rfl
@[simp] theorem complete_heapSize (e : ErrCode) (d : Word) (s : State) : (complete e d s).heapSize = s.heapSize := rfl
@[simp] theorem complete_pqResult (e : ErrCode) (d : Word) (s : State) : (complete e d s).pqResult = s.pqResult := rfl
@[simp] theorem complete_bitLen (e : ErrCode) (d : Word) (s : State) : (complete e d s).bitLen = s.bitLen := rfl
@[simp] theorem complete_bitIdx (e : ErrCode) (d : Word) (s : State) : (complete e d s).bitIdx = s.bitIdx := rfl
@[simp] theorem complete_outCount (e : ErrCode) (d : Word) (s : State) : (complete e d s).outCount = s.outCount := rfl
@[simp] theorem complete_cmdlat (e : ErrCode) (d : Word) (s : State) : (complete e d s).cmdlat = s.cmdlat := rfl
@[simp] theorem complete_freq (e : ErrCode) (d : Word) (s : State) : (complete e d s).freq = s.freq := rfl
@[simp] theorem complete_node (e : ErrCode) (d : Word) (s : State) : (complete e d s).node = s.node := rfl
@[simp] theorem complete_heap (e : ErrCode) (d : Word) (s : State) : (complete e d s).heap = s.heap := rfl
@[simp] theorem complete_code (e : ErrCode) (d : Word) (s : State) : (complete e d s).code = s.code := rfl
@[simp] theorem complete_bits (e : ErrCode) (d : Word) (s : State) : (complete e d s).bits = s.bits := rfl
@[simp] theorem complete_out (e : ErrCode) (d : Word) (s : State) : (complete e d s).out = s.out := rfl
@[simp] theorem complete_inReset (e : ErrCode) (d : Word) (s : State) : (complete e d s).inReset = s.inReset := rfl
@[simp] theorem complete_script (e : ErrCode) (d : Word) (s : State) : (complete e d s).script = s.script := rfl
@[simp] theorem complete_replies (e : ErrCode) (d : Word) (s : State) : (complete e d s).replies = s.replies := rfl
@[simp] theorem complete_draws (e : ErrCode) (d : Word) (s : State) : (complete e d s).draws = s.draws := rfl
@[simp] theorem complete_epoch (e : ErrCode) (d : Word) (s : State) : (complete e d s).epoch = s.epoch := rfl

/-! ### raise -/

@[simp] theorem raise_cfg (e : ErrCode) (d : Nat) (s : State) : (raise e d s).cfg = s.cfg := rfl
@[simp] theorem raise_ie (e : ErrCode) (d : Nat) (s : State) : (raise e d s).ie = s.ie := rfl
@[simp] theorem raise_status_busy (e : ErrCode) (d : Nat) (s : State) : (raise e d s).status.busy = false := rfl
@[simp] theorem raise_status_done (e : ErrCode) (d : Nat) (s : State) : (raise e d s).status.done = true := rfl
@[simp] theorem raise_status_treeValid (e : ErrCode) (d : Nat) (s : State) : (raise e d s).status.treeValid = s.status.treeValid := rfl
@[simp] theorem raise_status_codesValid (e : ErrCode) (d : Nat) (s : State) : (raise e d s).status.codesValid = s.status.codesValid := rfl
@[simp] theorem raise_status_overrun (e : ErrCode) (d : Nat) (s : State) : (raise e d s).status.overrun = s.status.overrun := rfl
@[simp] theorem raise_status_err (e : ErrCode) (d : Nat) (s : State) : (raise e d s).status.err = e := rfl
@[simp] theorem raise_errInfo (e : ErrCode) (d : Nat) (s : State) :
    (raise e d s).errInfo = toWord d := rfl
@[simp] theorem raise_root (e : ErrCode) (d : Nat) (s : State) : (raise e d s).root = s.root := rfl
@[simp] theorem raise_leafCount (e : ErrCode) (d : Nat) (s : State) : (raise e d s).leafCount = s.leafCount := rfl
@[simp] theorem raise_nodeCount (e : ErrCode) (d : Nat) (s : State) : (raise e d s).nodeCount = s.nodeCount := rfl
@[simp] theorem raise_heapSize (e : ErrCode) (d : Nat) (s : State) : (raise e d s).heapSize = s.heapSize := rfl
@[simp] theorem raise_pqResult (e : ErrCode) (d : Nat) (s : State) : (raise e d s).pqResult = s.pqResult := rfl
@[simp] theorem raise_bitLen (e : ErrCode) (d : Nat) (s : State) : (raise e d s).bitLen = s.bitLen := rfl
@[simp] theorem raise_bitIdx (e : ErrCode) (d : Nat) (s : State) : (raise e d s).bitIdx = s.bitIdx := rfl
@[simp] theorem raise_outCount (e : ErrCode) (d : Nat) (s : State) : (raise e d s).outCount = s.outCount := rfl
@[simp] theorem raise_cmdlat (e : ErrCode) (d : Nat) (s : State) : (raise e d s).cmdlat = s.cmdlat := rfl
@[simp] theorem raise_freq (e : ErrCode) (d : Nat) (s : State) : (raise e d s).freq = s.freq := rfl
@[simp] theorem raise_node (e : ErrCode) (d : Nat) (s : State) : (raise e d s).node = s.node := rfl
@[simp] theorem raise_heap (e : ErrCode) (d : Nat) (s : State) : (raise e d s).heap = s.heap := rfl
@[simp] theorem raise_code (e : ErrCode) (d : Nat) (s : State) : (raise e d s).code = s.code := rfl
@[simp] theorem raise_bits (e : ErrCode) (d : Nat) (s : State) : (raise e d s).bits = s.bits := rfl
@[simp] theorem raise_out (e : ErrCode) (d : Nat) (s : State) : (raise e d s).out = s.out := rfl
@[simp] theorem raise_inReset (e : ErrCode) (d : Nat) (s : State) : (raise e d s).inReset = s.inReset := rfl
@[simp] theorem raise_script (e : ErrCode) (d : Nat) (s : State) : (raise e d s).script = s.script := rfl
@[simp] theorem raise_replies (e : ErrCode) (d : Nat) (s : State) : (raise e d s).replies = s.replies := rfl
@[simp] theorem raise_draws (e : ErrCode) (d : Nat) (s : State) : (raise e d s).draws = s.draws := rfl
@[simp] theorem raise_epoch (e : ErrCode) (d : Nat) (s : State) : (raise e d s).epoch = s.epoch := rfl

/-! ### succeed -/

@[simp] theorem succeed_cfg (s : State) : (succeed s).cfg = s.cfg := rfl
@[simp] theorem succeed_ie (s : State) : (succeed s).ie = s.ie := rfl
@[simp] theorem succeed_status_busy (s : State) : (succeed s).status.busy = false := rfl
@[simp] theorem succeed_status_done (s : State) : (succeed s).status.done = true := rfl
@[simp] theorem succeed_status_treeValid (s : State) : (succeed s).status.treeValid = s.status.treeValid := rfl
@[simp] theorem succeed_status_codesValid (s : State) : (succeed s).status.codesValid = s.status.codesValid := rfl
@[simp] theorem succeed_status_overrun (s : State) : (succeed s).status.overrun = s.status.overrun := rfl
@[simp] theorem succeed_status_err (s : State) : (succeed s).status.err = .ok := rfl
@[simp] theorem succeed_errInfo (s : State) :
    (succeed s).errInfo = 0 := rfl
@[simp] theorem succeed_root (s : State) : (succeed s).root = s.root := rfl
@[simp] theorem succeed_leafCount (s : State) : (succeed s).leafCount = s.leafCount := rfl
@[simp] theorem succeed_nodeCount (s : State) : (succeed s).nodeCount = s.nodeCount := rfl
@[simp] theorem succeed_heapSize (s : State) : (succeed s).heapSize = s.heapSize := rfl
@[simp] theorem succeed_pqResult (s : State) : (succeed s).pqResult = s.pqResult := rfl
@[simp] theorem succeed_bitLen (s : State) : (succeed s).bitLen = s.bitLen := rfl
@[simp] theorem succeed_bitIdx (s : State) : (succeed s).bitIdx = s.bitIdx := rfl
@[simp] theorem succeed_outCount (s : State) : (succeed s).outCount = s.outCount := rfl
@[simp] theorem succeed_cmdlat (s : State) : (succeed s).cmdlat = s.cmdlat := rfl
@[simp] theorem succeed_freq (s : State) : (succeed s).freq = s.freq := rfl
@[simp] theorem succeed_node (s : State) : (succeed s).node = s.node := rfl
@[simp] theorem succeed_heap (s : State) : (succeed s).heap = s.heap := rfl
@[simp] theorem succeed_code (s : State) : (succeed s).code = s.code := rfl
@[simp] theorem succeed_bits (s : State) : (succeed s).bits = s.bits := rfl
@[simp] theorem succeed_out (s : State) : (succeed s).out = s.out := rfl
@[simp] theorem succeed_inReset (s : State) : (succeed s).inReset = s.inReset := rfl
@[simp] theorem succeed_script (s : State) : (succeed s).script = s.script := rfl
@[simp] theorem succeed_replies (s : State) : (succeed s).replies = s.replies := rfl
@[simp] theorem succeed_draws (s : State) : (succeed s).draws = s.draws := rfl
@[simp] theorem succeed_epoch (s : State) : (succeed s).epoch = s.epoch := rfl

/-! ### acknowledge -/

@[simp] theorem acknowledge_cfg (s : State) : (acknowledge s).cfg = s.cfg := rfl
@[simp] theorem acknowledge_ie (s : State) : (acknowledge s).ie = s.ie := rfl
@[simp] theorem acknowledge_status_busy (s : State) : (acknowledge s).status.busy = s.status.busy := rfl
@[simp] theorem acknowledge_status_done (s : State) : (acknowledge s).status.done = false := rfl
@[simp] theorem acknowledge_status_treeValid (s : State) : (acknowledge s).status.treeValid = s.status.treeValid := rfl
@[simp] theorem acknowledge_status_codesValid (s : State) : (acknowledge s).status.codesValid = s.status.codesValid := rfl
@[simp] theorem acknowledge_status_overrun (s : State) : (acknowledge s).status.overrun = s.status.overrun := rfl
@[simp] theorem acknowledge_status_err (s : State) : (acknowledge s).status.err = s.status.err := rfl
@[simp] theorem acknowledge_errInfo (s : State) : (acknowledge s).errInfo = s.errInfo := rfl
@[simp] theorem acknowledge_root (s : State) : (acknowledge s).root = s.root := rfl
@[simp] theorem acknowledge_leafCount (s : State) : (acknowledge s).leafCount = s.leafCount := rfl
@[simp] theorem acknowledge_nodeCount (s : State) : (acknowledge s).nodeCount = s.nodeCount := rfl
@[simp] theorem acknowledge_heapSize (s : State) : (acknowledge s).heapSize = s.heapSize := rfl
@[simp] theorem acknowledge_pqResult (s : State) : (acknowledge s).pqResult = s.pqResult := rfl
@[simp] theorem acknowledge_bitLen (s : State) : (acknowledge s).bitLen = s.bitLen := rfl
@[simp] theorem acknowledge_bitIdx (s : State) : (acknowledge s).bitIdx = s.bitIdx := rfl
@[simp] theorem acknowledge_outCount (s : State) : (acknowledge s).outCount = s.outCount := rfl
@[simp] theorem acknowledge_cmdlat (s : State) : (acknowledge s).cmdlat = s.cmdlat := rfl
@[simp] theorem acknowledge_freq (s : State) : (acknowledge s).freq = s.freq := rfl
@[simp] theorem acknowledge_node (s : State) : (acknowledge s).node = s.node := rfl
@[simp] theorem acknowledge_heap (s : State) : (acknowledge s).heap = s.heap := rfl
@[simp] theorem acknowledge_code (s : State) : (acknowledge s).code = s.code := rfl
@[simp] theorem acknowledge_bits (s : State) : (acknowledge s).bits = s.bits := rfl
@[simp] theorem acknowledge_out (s : State) : (acknowledge s).out = s.out := rfl
@[simp] theorem acknowledge_inReset (s : State) : (acknowledge s).inReset = s.inReset := rfl
@[simp] theorem acknowledge_script (s : State) : (acknowledge s).script = s.script := rfl
@[simp] theorem acknowledge_replies (s : State) : (acknowledge s).replies = s.replies := rfl
@[simp] theorem acknowledge_draws (s : State) : (acknowledge s).draws = s.draws := rfl
@[simp] theorem acknowledge_epoch (s : State) : (acknowledge s).epoch = s.epoch := rfl

/-! ### setOverrun -/

@[simp] theorem setOverrun_cfg (s : State) : (setOverrun s).cfg = s.cfg := rfl
@[simp] theorem setOverrun_ie (s : State) : (setOverrun s).ie = s.ie := rfl
@[simp] theorem setOverrun_status_busy (s : State) : (setOverrun s).status.busy = s.status.busy := rfl
@[simp] theorem setOverrun_status_done (s : State) : (setOverrun s).status.done = s.status.done := rfl
@[simp] theorem setOverrun_status_treeValid (s : State) : (setOverrun s).status.treeValid = s.status.treeValid := rfl
@[simp] theorem setOverrun_status_codesValid (s : State) : (setOverrun s).status.codesValid = s.status.codesValid := rfl
@[simp] theorem setOverrun_status_overrun (s : State) : (setOverrun s).status.overrun = true := rfl
@[simp] theorem setOverrun_status_err (s : State) : (setOverrun s).status.err = s.status.err := rfl
@[simp] theorem setOverrun_errInfo (s : State) : (setOverrun s).errInfo = s.errInfo := rfl
@[simp] theorem setOverrun_root (s : State) : (setOverrun s).root = s.root := rfl
@[simp] theorem setOverrun_leafCount (s : State) : (setOverrun s).leafCount = s.leafCount := rfl
@[simp] theorem setOverrun_nodeCount (s : State) : (setOverrun s).nodeCount = s.nodeCount := rfl
@[simp] theorem setOverrun_heapSize (s : State) : (setOverrun s).heapSize = s.heapSize := rfl
@[simp] theorem setOverrun_pqResult (s : State) : (setOverrun s).pqResult = s.pqResult := rfl
@[simp] theorem setOverrun_bitLen (s : State) : (setOverrun s).bitLen = s.bitLen := rfl
@[simp] theorem setOverrun_bitIdx (s : State) : (setOverrun s).bitIdx = s.bitIdx := rfl
@[simp] theorem setOverrun_outCount (s : State) : (setOverrun s).outCount = s.outCount := rfl
@[simp] theorem setOverrun_cmdlat (s : State) : (setOverrun s).cmdlat = s.cmdlat := rfl
@[simp] theorem setOverrun_freq (s : State) : (setOverrun s).freq = s.freq := rfl
@[simp] theorem setOverrun_node (s : State) : (setOverrun s).node = s.node := rfl
@[simp] theorem setOverrun_heap (s : State) : (setOverrun s).heap = s.heap := rfl
@[simp] theorem setOverrun_code (s : State) : (setOverrun s).code = s.code := rfl
@[simp] theorem setOverrun_bits (s : State) : (setOverrun s).bits = s.bits := rfl
@[simp] theorem setOverrun_out (s : State) : (setOverrun s).out = s.out := rfl
@[simp] theorem setOverrun_inReset (s : State) : (setOverrun s).inReset = s.inReset := rfl
@[simp] theorem setOverrun_script (s : State) : (setOverrun s).script = s.script := rfl
@[simp] theorem setOverrun_replies (s : State) : (setOverrun s).replies = s.replies := rfl
@[simp] theorem setOverrun_draws (s : State) : (setOverrun s).draws = s.draws := rfl
@[simp] theorem setOverrun_epoch (s : State) : (setOverrun s).epoch = s.epoch := rfl

/-! ### clearOverrun -/

@[simp] theorem clearOverrun_cfg (s : State) : (clearOverrun s).cfg = s.cfg := rfl
@[simp] theorem clearOverrun_ie (s : State) : (clearOverrun s).ie = s.ie := rfl
@[simp] theorem clearOverrun_status_busy (s : State) : (clearOverrun s).status.busy = s.status.busy := rfl
@[simp] theorem clearOverrun_status_done (s : State) : (clearOverrun s).status.done = s.status.done := rfl
@[simp] theorem clearOverrun_status_treeValid (s : State) : (clearOverrun s).status.treeValid = s.status.treeValid := rfl
@[simp] theorem clearOverrun_status_codesValid (s : State) : (clearOverrun s).status.codesValid = s.status.codesValid := rfl
@[simp] theorem clearOverrun_status_overrun (s : State) : (clearOverrun s).status.overrun = false := rfl
@[simp] theorem clearOverrun_status_err (s : State) : (clearOverrun s).status.err = s.status.err := rfl
@[simp] theorem clearOverrun_errInfo (s : State) : (clearOverrun s).errInfo = s.errInfo := rfl
@[simp] theorem clearOverrun_root (s : State) : (clearOverrun s).root = s.root := rfl
@[simp] theorem clearOverrun_leafCount (s : State) : (clearOverrun s).leafCount = s.leafCount := rfl
@[simp] theorem clearOverrun_nodeCount (s : State) : (clearOverrun s).nodeCount = s.nodeCount := rfl
@[simp] theorem clearOverrun_heapSize (s : State) : (clearOverrun s).heapSize = s.heapSize := rfl
@[simp] theorem clearOverrun_pqResult (s : State) : (clearOverrun s).pqResult = s.pqResult := rfl
@[simp] theorem clearOverrun_bitLen (s : State) : (clearOverrun s).bitLen = s.bitLen := rfl
@[simp] theorem clearOverrun_bitIdx (s : State) : (clearOverrun s).bitIdx = s.bitIdx := rfl
@[simp] theorem clearOverrun_outCount (s : State) : (clearOverrun s).outCount = s.outCount := rfl
@[simp] theorem clearOverrun_cmdlat (s : State) : (clearOverrun s).cmdlat = s.cmdlat := rfl
@[simp] theorem clearOverrun_freq (s : State) : (clearOverrun s).freq = s.freq := rfl
@[simp] theorem clearOverrun_node (s : State) : (clearOverrun s).node = s.node := rfl
@[simp] theorem clearOverrun_heap (s : State) : (clearOverrun s).heap = s.heap := rfl
@[simp] theorem clearOverrun_code (s : State) : (clearOverrun s).code = s.code := rfl
@[simp] theorem clearOverrun_bits (s : State) : (clearOverrun s).bits = s.bits := rfl
@[simp] theorem clearOverrun_out (s : State) : (clearOverrun s).out = s.out := rfl
@[simp] theorem clearOverrun_inReset (s : State) : (clearOverrun s).inReset = s.inReset := rfl
@[simp] theorem clearOverrun_script (s : State) : (clearOverrun s).script = s.script := rfl
@[simp] theorem clearOverrun_replies (s : State) : (clearOverrun s).replies = s.replies := rfl
@[simp] theorem clearOverrun_draws (s : State) : (clearOverrun s).draws = s.draws := rfl
@[simp] theorem clearOverrun_epoch (s : State) : (clearOverrun s).epoch = s.epoch := rfl

/-! ### clearValid -/

@[simp] theorem clearValid_cfg (s : State) : (clearValid s).cfg = s.cfg := rfl
@[simp] theorem clearValid_ie (s : State) : (clearValid s).ie = s.ie := rfl
@[simp] theorem clearValid_status_busy (s : State) : (clearValid s).status.busy = s.status.busy := rfl
@[simp] theorem clearValid_status_done (s : State) : (clearValid s).status.done = s.status.done := rfl
@[simp] theorem clearValid_status_treeValid (s : State) : (clearValid s).status.treeValid = false := rfl
@[simp] theorem clearValid_status_codesValid (s : State) : (clearValid s).status.codesValid = false := rfl
@[simp] theorem clearValid_status_overrun (s : State) : (clearValid s).status.overrun = s.status.overrun := rfl
@[simp] theorem clearValid_status_err (s : State) : (clearValid s).status.err = s.status.err := rfl
@[simp] theorem clearValid_errInfo (s : State) : (clearValid s).errInfo = s.errInfo := rfl
@[simp] theorem clearValid_root (s : State) : (clearValid s).root = s.root := rfl
@[simp] theorem clearValid_leafCount (s : State) : (clearValid s).leafCount = s.leafCount := rfl
@[simp] theorem clearValid_nodeCount (s : State) : (clearValid s).nodeCount = s.nodeCount := rfl
@[simp] theorem clearValid_heapSize (s : State) : (clearValid s).heapSize = s.heapSize := rfl
@[simp] theorem clearValid_pqResult (s : State) : (clearValid s).pqResult = s.pqResult := rfl
@[simp] theorem clearValid_bitLen (s : State) : (clearValid s).bitLen = s.bitLen := rfl
@[simp] theorem clearValid_bitIdx (s : State) : (clearValid s).bitIdx = s.bitIdx := rfl
@[simp] theorem clearValid_outCount (s : State) : (clearValid s).outCount = s.outCount := rfl
@[simp] theorem clearValid_cmdlat (s : State) : (clearValid s).cmdlat = s.cmdlat := rfl
@[simp] theorem clearValid_freq (s : State) : (clearValid s).freq = s.freq := rfl
@[simp] theorem clearValid_node (s : State) : (clearValid s).node = s.node := rfl
@[simp] theorem clearValid_heap (s : State) : (clearValid s).heap = s.heap := rfl
@[simp] theorem clearValid_code (s : State) : (clearValid s).code = s.code := rfl
@[simp] theorem clearValid_bits (s : State) : (clearValid s).bits = s.bits := rfl
@[simp] theorem clearValid_out (s : State) : (clearValid s).out = s.out := rfl
@[simp] theorem clearValid_inReset (s : State) : (clearValid s).inReset = s.inReset := rfl
@[simp] theorem clearValid_script (s : State) : (clearValid s).script = s.script := rfl
@[simp] theorem clearValid_replies (s : State) : (clearValid s).replies = s.replies := rfl
@[simp] theorem clearValid_draws (s : State) : (clearValid s).draws = s.draws := rfl
@[simp] theorem clearValid_epoch (s : State) : (clearValid s).epoch = s.epoch := rfl

/-! ### setCodesValid -/

@[simp] theorem setCodesValid_cfg (s : State) : (setCodesValid s).cfg = s.cfg := rfl
@[simp] theorem setCodesValid_ie (s : State) : (setCodesValid s).ie = s.ie := rfl
@[simp] theorem setCodesValid_status_busy (s : State) : (setCodesValid s).status.busy = s.status.busy := rfl
@[simp] theorem setCodesValid_status_done (s : State) : (setCodesValid s).status.done = s.status.done := rfl
@[simp] theorem setCodesValid_status_treeValid (s : State) : (setCodesValid s).status.treeValid = s.status.treeValid := rfl
@[simp] theorem setCodesValid_status_codesValid (s : State) : (setCodesValid s).status.codesValid = true := rfl
@[simp] theorem setCodesValid_status_overrun (s : State) : (setCodesValid s).status.overrun = s.status.overrun := rfl
@[simp] theorem setCodesValid_status_err (s : State) : (setCodesValid s).status.err = s.status.err := rfl
@[simp] theorem setCodesValid_errInfo (s : State) : (setCodesValid s).errInfo = s.errInfo := rfl
@[simp] theorem setCodesValid_root (s : State) : (setCodesValid s).root = s.root := rfl
@[simp] theorem setCodesValid_leafCount (s : State) : (setCodesValid s).leafCount = s.leafCount := rfl
@[simp] theorem setCodesValid_nodeCount (s : State) : (setCodesValid s).nodeCount = s.nodeCount := rfl
@[simp] theorem setCodesValid_heapSize (s : State) : (setCodesValid s).heapSize = s.heapSize := rfl
@[simp] theorem setCodesValid_pqResult (s : State) : (setCodesValid s).pqResult = s.pqResult := rfl
@[simp] theorem setCodesValid_bitLen (s : State) : (setCodesValid s).bitLen = s.bitLen := rfl
@[simp] theorem setCodesValid_bitIdx (s : State) : (setCodesValid s).bitIdx = s.bitIdx := rfl
@[simp] theorem setCodesValid_outCount (s : State) : (setCodesValid s).outCount = s.outCount := rfl
@[simp] theorem setCodesValid_cmdlat (s : State) : (setCodesValid s).cmdlat = s.cmdlat := rfl
@[simp] theorem setCodesValid_freq (s : State) : (setCodesValid s).freq = s.freq := rfl
@[simp] theorem setCodesValid_node (s : State) : (setCodesValid s).node = s.node := rfl
@[simp] theorem setCodesValid_heap (s : State) : (setCodesValid s).heap = s.heap := rfl
@[simp] theorem setCodesValid_code (s : State) : (setCodesValid s).code = s.code := rfl
@[simp] theorem setCodesValid_bits (s : State) : (setCodesValid s).bits = s.bits := rfl
@[simp] theorem setCodesValid_out (s : State) : (setCodesValid s).out = s.out := rfl
@[simp] theorem setCodesValid_inReset (s : State) : (setCodesValid s).inReset = s.inReset := rfl
@[simp] theorem setCodesValid_script (s : State) : (setCodesValid s).script = s.script := rfl
@[simp] theorem setCodesValid_replies (s : State) : (setCodesValid s).replies = s.replies := rfl
@[simp] theorem setCodesValid_draws (s : State) : (setCodesValid s).draws = s.draws := rfl
@[simp] theorem setCodesValid_epoch (s : State) : (setCodesValid s).epoch = s.epoch := rfl

/-! ### setFreq -/

@[simp] theorem setFreq_cfg (s : State) (sym v : Nat) : (setFreq s sym v).cfg = s.cfg := rfl
@[simp] theorem setFreq_ie (s : State) (sym v : Nat) : (setFreq s sym v).ie = s.ie := rfl
@[simp] theorem setFreq_status (s : State) (sym v : Nat) : (setFreq s sym v).status = s.status := rfl
@[simp] theorem setFreq_errInfo (s : State) (sym v : Nat) : (setFreq s sym v).errInfo = s.errInfo := rfl
@[simp] theorem setFreq_root (s : State) (sym v : Nat) : (setFreq s sym v).root = s.root := rfl
@[simp] theorem setFreq_leafCount (s : State) (sym v : Nat) : (setFreq s sym v).leafCount = s.leafCount := rfl
@[simp] theorem setFreq_nodeCount (s : State) (sym v : Nat) : (setFreq s sym v).nodeCount = s.nodeCount := rfl
@[simp] theorem setFreq_heapSize (s : State) (sym v : Nat) : (setFreq s sym v).heapSize = s.heapSize := rfl
@[simp] theorem setFreq_pqResult (s : State) (sym v : Nat) : (setFreq s sym v).pqResult = s.pqResult := rfl
@[simp] theorem setFreq_bitLen (s : State) (sym v : Nat) : (setFreq s sym v).bitLen = s.bitLen := rfl
@[simp] theorem setFreq_bitIdx (s : State) (sym v : Nat) : (setFreq s sym v).bitIdx = s.bitIdx := rfl
@[simp] theorem setFreq_outCount (s : State) (sym v : Nat) : (setFreq s sym v).outCount = s.outCount := rfl
@[simp] theorem setFreq_cmdlat (s : State) (sym v : Nat) : (setFreq s sym v).cmdlat = s.cmdlat := rfl
@[simp] theorem setFreq_freq (s : State) (sym v : Nat) :
    (setFreq s sym v).freq = Memory.storeWord s.freq (freqAddr sym) (low s.cfg.weightW v) := rfl
@[simp] theorem setFreq_node (s : State) (sym v : Nat) : (setFreq s sym v).node = s.node := rfl
@[simp] theorem setFreq_heap (s : State) (sym v : Nat) : (setFreq s sym v).heap = s.heap := rfl
@[simp] theorem setFreq_code (s : State) (sym v : Nat) : (setFreq s sym v).code = s.code := rfl
@[simp] theorem setFreq_bits (s : State) (sym v : Nat) : (setFreq s sym v).bits = s.bits := rfl
@[simp] theorem setFreq_out (s : State) (sym v : Nat) : (setFreq s sym v).out = s.out := rfl
@[simp] theorem setFreq_inReset (s : State) (sym v : Nat) : (setFreq s sym v).inReset = s.inReset := rfl
@[simp] theorem setFreq_script (s : State) (sym v : Nat) : (setFreq s sym v).script = s.script := rfl
@[simp] theorem setFreq_replies (s : State) (sym v : Nat) : (setFreq s sym v).replies = s.replies := rfl
@[simp] theorem setFreq_draws (s : State) (sym v : Nat) : (setFreq s sym v).draws = s.draws := rfl
@[simp] theorem setFreq_epoch (s : State) (sym v : Nat) : (setFreq s sym v).epoch = s.epoch := rfl

/-! ### setNodeWord -/

@[simp] theorem setNodeWord_cfg (s : State) (id j v : Nat) : (setNodeWord s id j v).cfg = s.cfg := rfl
@[simp] theorem setNodeWord_ie (s : State) (id j v : Nat) : (setNodeWord s id j v).ie = s.ie := rfl
@[simp] theorem setNodeWord_status (s : State) (id j v : Nat) : (setNodeWord s id j v).status = s.status := rfl
@[simp] theorem setNodeWord_errInfo (s : State) (id j v : Nat) : (setNodeWord s id j v).errInfo = s.errInfo := rfl
@[simp] theorem setNodeWord_root (s : State) (id j v : Nat) : (setNodeWord s id j v).root = s.root := rfl
@[simp] theorem setNodeWord_leafCount (s : State) (id j v : Nat) : (setNodeWord s id j v).leafCount = s.leafCount := rfl
@[simp] theorem setNodeWord_nodeCount (s : State) (id j v : Nat) : (setNodeWord s id j v).nodeCount = s.nodeCount := rfl
@[simp] theorem setNodeWord_heapSize (s : State) (id j v : Nat) : (setNodeWord s id j v).heapSize = s.heapSize := rfl
@[simp] theorem setNodeWord_pqResult (s : State) (id j v : Nat) : (setNodeWord s id j v).pqResult = s.pqResult := rfl
@[simp] theorem setNodeWord_bitLen (s : State) (id j v : Nat) : (setNodeWord s id j v).bitLen = s.bitLen := rfl
@[simp] theorem setNodeWord_bitIdx (s : State) (id j v : Nat) : (setNodeWord s id j v).bitIdx = s.bitIdx := rfl
@[simp] theorem setNodeWord_outCount (s : State) (id j v : Nat) : (setNodeWord s id j v).outCount = s.outCount := rfl
@[simp] theorem setNodeWord_cmdlat (s : State) (id j v : Nat) : (setNodeWord s id j v).cmdlat = s.cmdlat := rfl
@[simp] theorem setNodeWord_freq (s : State) (id j v : Nat) : (setNodeWord s id j v).freq = s.freq := rfl
@[simp] theorem setNodeWord_node (s : State) (id j v : Nat) :
    (setNodeWord s id j v).node = Memory.storeWord s.node (nodeAddr id + 4 * j) (nodeField s.cfg j v) := rfl
@[simp] theorem setNodeWord_heap (s : State) (id j v : Nat) : (setNodeWord s id j v).heap = s.heap := rfl
@[simp] theorem setNodeWord_code (s : State) (id j v : Nat) : (setNodeWord s id j v).code = s.code := rfl
@[simp] theorem setNodeWord_bits (s : State) (id j v : Nat) : (setNodeWord s id j v).bits = s.bits := rfl
@[simp] theorem setNodeWord_out (s : State) (id j v : Nat) : (setNodeWord s id j v).out = s.out := rfl
@[simp] theorem setNodeWord_inReset (s : State) (id j v : Nat) : (setNodeWord s id j v).inReset = s.inReset := rfl
@[simp] theorem setNodeWord_script (s : State) (id j v : Nat) : (setNodeWord s id j v).script = s.script := rfl
@[simp] theorem setNodeWord_replies (s : State) (id j v : Nat) : (setNodeWord s id j v).replies = s.replies := rfl
@[simp] theorem setNodeWord_draws (s : State) (id j v : Nat) : (setNodeWord s id j v).draws = s.draws := rfl
@[simp] theorem setNodeWord_epoch (s : State) (id j v : Nat) : (setNodeWord s id j v).epoch = s.epoch := rfl

/-! ### setNode -/

@[simp] theorem setNode_cfg (s : State) (id : Nat) (n : Node) : (setNode s id n).cfg = s.cfg := by simp only [setNode, setNodeWord_cfg]
@[simp] theorem setNode_ie (s : State) (id : Nat) (n : Node) : (setNode s id n).ie = s.ie := by simp only [setNode, setNodeWord_ie]
@[simp] theorem setNode_status (s : State) (id : Nat) (n : Node) : (setNode s id n).status = s.status := by simp only [setNode, setNodeWord_status]
@[simp] theorem setNode_errInfo (s : State) (id : Nat) (n : Node) : (setNode s id n).errInfo = s.errInfo := by simp only [setNode, setNodeWord_errInfo]
@[simp] theorem setNode_root (s : State) (id : Nat) (n : Node) : (setNode s id n).root = s.root := by simp only [setNode, setNodeWord_root]
@[simp] theorem setNode_leafCount (s : State) (id : Nat) (n : Node) : (setNode s id n).leafCount = s.leafCount := by simp only [setNode, setNodeWord_leafCount]
@[simp] theorem setNode_nodeCount (s : State) (id : Nat) (n : Node) : (setNode s id n).nodeCount = s.nodeCount := by simp only [setNode, setNodeWord_nodeCount]
@[simp] theorem setNode_heapSize (s : State) (id : Nat) (n : Node) : (setNode s id n).heapSize = s.heapSize := by simp only [setNode, setNodeWord_heapSize]
@[simp] theorem setNode_pqResult (s : State) (id : Nat) (n : Node) : (setNode s id n).pqResult = s.pqResult := by simp only [setNode, setNodeWord_pqResult]
@[simp] theorem setNode_bitLen (s : State) (id : Nat) (n : Node) : (setNode s id n).bitLen = s.bitLen := by simp only [setNode, setNodeWord_bitLen]
@[simp] theorem setNode_bitIdx (s : State) (id : Nat) (n : Node) : (setNode s id n).bitIdx = s.bitIdx := by simp only [setNode, setNodeWord_bitIdx]
@[simp] theorem setNode_outCount (s : State) (id : Nat) (n : Node) : (setNode s id n).outCount = s.outCount := by simp only [setNode, setNodeWord_outCount]
@[simp] theorem setNode_cmdlat (s : State) (id : Nat) (n : Node) : (setNode s id n).cmdlat = s.cmdlat := by simp only [setNode, setNodeWord_cmdlat]
@[simp] theorem setNode_freq (s : State) (id : Nat) (n : Node) : (setNode s id n).freq = s.freq := by simp only [setNode, setNodeWord_freq]
@[simp] theorem setNode_heap (s : State) (id : Nat) (n : Node) : (setNode s id n).heap = s.heap := by simp only [setNode, setNodeWord_heap]
@[simp] theorem setNode_code (s : State) (id : Nat) (n : Node) : (setNode s id n).code = s.code := by simp only [setNode, setNodeWord_code]
@[simp] theorem setNode_bits (s : State) (id : Nat) (n : Node) : (setNode s id n).bits = s.bits := by simp only [setNode, setNodeWord_bits]
@[simp] theorem setNode_out (s : State) (id : Nat) (n : Node) : (setNode s id n).out = s.out := by simp only [setNode, setNodeWord_out]
@[simp] theorem setNode_inReset (s : State) (id : Nat) (n : Node) : (setNode s id n).inReset = s.inReset := by simp only [setNode, setNodeWord_inReset]
@[simp] theorem setNode_script (s : State) (id : Nat) (n : Node) : (setNode s id n).script = s.script := by simp only [setNode, setNodeWord_script]
@[simp] theorem setNode_replies (s : State) (id : Nat) (n : Node) : (setNode s id n).replies = s.replies := by simp only [setNode, setNodeWord_replies]
@[simp] theorem setNode_draws (s : State) (id : Nat) (n : Node) : (setNode s id n).draws = s.draws := by simp only [setNode, setNodeWord_draws]
@[simp] theorem setNode_epoch (s : State) (id : Nat) (n : Node) : (setNode s id n).epoch = s.epoch := by simp only [setNode, setNodeWord_epoch]

/-! ### setHeap -/

@[simp] theorem setHeap_cfg (s : State) (i id : Nat) : (setHeap s i id).cfg = s.cfg := rfl
@[simp] theorem setHeap_ie (s : State) (i id : Nat) : (setHeap s i id).ie = s.ie := rfl
@[simp] theorem setHeap_status (s : State) (i id : Nat) : (setHeap s i id).status = s.status := rfl
@[simp] theorem setHeap_errInfo (s : State) (i id : Nat) : (setHeap s i id).errInfo = s.errInfo := rfl
@[simp] theorem setHeap_root (s : State) (i id : Nat) : (setHeap s i id).root = s.root := rfl
@[simp] theorem setHeap_leafCount (s : State) (i id : Nat) : (setHeap s i id).leafCount = s.leafCount := rfl
@[simp] theorem setHeap_nodeCount (s : State) (i id : Nat) : (setHeap s i id).nodeCount = s.nodeCount := rfl
@[simp] theorem setHeap_heapSize (s : State) (i id : Nat) : (setHeap s i id).heapSize = s.heapSize := rfl
@[simp] theorem setHeap_pqResult (s : State) (i id : Nat) : (setHeap s i id).pqResult = s.pqResult := rfl
@[simp] theorem setHeap_bitLen (s : State) (i id : Nat) : (setHeap s i id).bitLen = s.bitLen := rfl
@[simp] theorem setHeap_bitIdx (s : State) (i id : Nat) : (setHeap s i id).bitIdx = s.bitIdx := rfl
@[simp] theorem setHeap_outCount (s : State) (i id : Nat) : (setHeap s i id).outCount = s.outCount := rfl
@[simp] theorem setHeap_cmdlat (s : State) (i id : Nat) : (setHeap s i id).cmdlat = s.cmdlat := rfl
@[simp] theorem setHeap_freq (s : State) (i id : Nat) : (setHeap s i id).freq = s.freq := rfl
@[simp] theorem setHeap_node (s : State) (i id : Nat) : (setHeap s i id).node = s.node := rfl
@[simp] theorem setHeap_heap (s : State) (i id : Nat) :
    (setHeap s i id).heap = Memory.storeWord s.heap (heapAddr i) (low s.cfg.idW id) := rfl
@[simp] theorem setHeap_code (s : State) (i id : Nat) : (setHeap s i id).code = s.code := rfl
@[simp] theorem setHeap_bits (s : State) (i id : Nat) : (setHeap s i id).bits = s.bits := rfl
@[simp] theorem setHeap_out (s : State) (i id : Nat) : (setHeap s i id).out = s.out := rfl
@[simp] theorem setHeap_inReset (s : State) (i id : Nat) : (setHeap s i id).inReset = s.inReset := rfl
@[simp] theorem setHeap_script (s : State) (i id : Nat) : (setHeap s i id).script = s.script := rfl
@[simp] theorem setHeap_replies (s : State) (i id : Nat) : (setHeap s i id).replies = s.replies := rfl
@[simp] theorem setHeap_draws (s : State) (i id : Nat) : (setHeap s i id).draws = s.draws := rfl
@[simp] theorem setHeap_epoch (s : State) (i id : Nat) : (setHeap s i id).epoch = s.epoch := rfl

/-! ### swapHeap -/

@[simp] theorem swapHeap_cfg (s : State) (i j : Nat) : (swapHeap s i j).cfg = s.cfg := by rw [swapHeap, setHeap_cfg, setHeap_cfg]
@[simp] theorem swapHeap_ie (s : State) (i j : Nat) : (swapHeap s i j).ie = s.ie := by rw [swapHeap, setHeap_ie, setHeap_ie]
@[simp] theorem swapHeap_status (s : State) (i j : Nat) : (swapHeap s i j).status = s.status := by rw [swapHeap, setHeap_status, setHeap_status]
@[simp] theorem swapHeap_errInfo (s : State) (i j : Nat) : (swapHeap s i j).errInfo = s.errInfo := by rw [swapHeap, setHeap_errInfo, setHeap_errInfo]
@[simp] theorem swapHeap_root (s : State) (i j : Nat) : (swapHeap s i j).root = s.root := by rw [swapHeap, setHeap_root, setHeap_root]
@[simp] theorem swapHeap_leafCount (s : State) (i j : Nat) : (swapHeap s i j).leafCount = s.leafCount := by rw [swapHeap, setHeap_leafCount, setHeap_leafCount]
@[simp] theorem swapHeap_nodeCount (s : State) (i j : Nat) : (swapHeap s i j).nodeCount = s.nodeCount := by rw [swapHeap, setHeap_nodeCount, setHeap_nodeCount]
@[simp] theorem swapHeap_heapSize (s : State) (i j : Nat) : (swapHeap s i j).heapSize = s.heapSize := by rw [swapHeap, setHeap_heapSize, setHeap_heapSize]
@[simp] theorem swapHeap_pqResult (s : State) (i j : Nat) : (swapHeap s i j).pqResult = s.pqResult := by rw [swapHeap, setHeap_pqResult, setHeap_pqResult]
@[simp] theorem swapHeap_bitLen (s : State) (i j : Nat) : (swapHeap s i j).bitLen = s.bitLen := by rw [swapHeap, setHeap_bitLen, setHeap_bitLen]
@[simp] theorem swapHeap_bitIdx (s : State) (i j : Nat) : (swapHeap s i j).bitIdx = s.bitIdx := by rw [swapHeap, setHeap_bitIdx, setHeap_bitIdx]
@[simp] theorem swapHeap_outCount (s : State) (i j : Nat) : (swapHeap s i j).outCount = s.outCount := by rw [swapHeap, setHeap_outCount, setHeap_outCount]
@[simp] theorem swapHeap_cmdlat (s : State) (i j : Nat) : (swapHeap s i j).cmdlat = s.cmdlat := by rw [swapHeap, setHeap_cmdlat, setHeap_cmdlat]
@[simp] theorem swapHeap_freq (s : State) (i j : Nat) : (swapHeap s i j).freq = s.freq := by rw [swapHeap, setHeap_freq, setHeap_freq]
@[simp] theorem swapHeap_node (s : State) (i j : Nat) : (swapHeap s i j).node = s.node := by rw [swapHeap, setHeap_node, setHeap_node]
@[simp] theorem swapHeap_code (s : State) (i j : Nat) : (swapHeap s i j).code = s.code := by rw [swapHeap, setHeap_code, setHeap_code]
@[simp] theorem swapHeap_bits (s : State) (i j : Nat) : (swapHeap s i j).bits = s.bits := by rw [swapHeap, setHeap_bits, setHeap_bits]
@[simp] theorem swapHeap_out (s : State) (i j : Nat) : (swapHeap s i j).out = s.out := by rw [swapHeap, setHeap_out, setHeap_out]
@[simp] theorem swapHeap_inReset (s : State) (i j : Nat) : (swapHeap s i j).inReset = s.inReset := by rw [swapHeap, setHeap_inReset, setHeap_inReset]
@[simp] theorem swapHeap_script (s : State) (i j : Nat) : (swapHeap s i j).script = s.script := by rw [swapHeap, setHeap_script, setHeap_script]
@[simp] theorem swapHeap_replies (s : State) (i j : Nat) : (swapHeap s i j).replies = s.replies := by rw [swapHeap, setHeap_replies, setHeap_replies]
@[simp] theorem swapHeap_draws (s : State) (i j : Nat) : (swapHeap s i j).draws = s.draws := by rw [swapHeap, setHeap_draws, setHeap_draws]
@[simp] theorem swapHeap_epoch (s : State) (i j : Nat) : (swapHeap s i j).epoch = s.epoch := by rw [swapHeap, setHeap_epoch, setHeap_epoch]

/-! ### setCode -/

@[simp] theorem setCode_cfg (s : State) (sym : Nat) (e : CodeEntry) : (setCode s sym e).cfg = s.cfg := rfl
@[simp] theorem setCode_ie (s : State) (sym : Nat) (e : CodeEntry) : (setCode s sym e).ie = s.ie := rfl
@[simp] theorem setCode_status (s : State) (sym : Nat) (e : CodeEntry) : (setCode s sym e).status = s.status := rfl
@[simp] theorem setCode_errInfo (s : State) (sym : Nat) (e : CodeEntry) : (setCode s sym e).errInfo = s.errInfo := rfl
@[simp] theorem setCode_root (s : State) (sym : Nat) (e : CodeEntry) : (setCode s sym e).root = s.root := rfl
@[simp] theorem setCode_leafCount (s : State) (sym : Nat) (e : CodeEntry) : (setCode s sym e).leafCount = s.leafCount := rfl
@[simp] theorem setCode_nodeCount (s : State) (sym : Nat) (e : CodeEntry) : (setCode s sym e).nodeCount = s.nodeCount := rfl
@[simp] theorem setCode_heapSize (s : State) (sym : Nat) (e : CodeEntry) : (setCode s sym e).heapSize = s.heapSize := rfl
@[simp] theorem setCode_pqResult (s : State) (sym : Nat) (e : CodeEntry) : (setCode s sym e).pqResult = s.pqResult := rfl
@[simp] theorem setCode_bitLen (s : State) (sym : Nat) (e : CodeEntry) : (setCode s sym e).bitLen = s.bitLen := rfl
@[simp] theorem setCode_bitIdx (s : State) (sym : Nat) (e : CodeEntry) : (setCode s sym e).bitIdx = s.bitIdx := rfl
@[simp] theorem setCode_outCount (s : State) (sym : Nat) (e : CodeEntry) : (setCode s sym e).outCount = s.outCount := rfl
@[simp] theorem setCode_cmdlat (s : State) (sym : Nat) (e : CodeEntry) : (setCode s sym e).cmdlat = s.cmdlat := rfl
@[simp] theorem setCode_freq (s : State) (sym : Nat) (e : CodeEntry) : (setCode s sym e).freq = s.freq := rfl
@[simp] theorem setCode_node (s : State) (sym : Nat) (e : CodeEntry) : (setCode s sym e).node = s.node := rfl
@[simp] theorem setCode_heap (s : State) (sym : Nat) (e : CodeEntry) : (setCode s sym e).heap = s.heap := rfl
@[simp] theorem setCode_bits (s : State) (sym : Nat) (e : CodeEntry) : (setCode s sym e).bits = s.bits := rfl
@[simp] theorem setCode_out (s : State) (sym : Nat) (e : CodeEntry) : (setCode s sym e).out = s.out := rfl
@[simp] theorem setCode_inReset (s : State) (sym : Nat) (e : CodeEntry) : (setCode s sym e).inReset = s.inReset := rfl
@[simp] theorem setCode_script (s : State) (sym : Nat) (e : CodeEntry) : (setCode s sym e).script = s.script := rfl
@[simp] theorem setCode_replies (s : State) (sym : Nat) (e : CodeEntry) : (setCode s sym e).replies = s.replies := rfl
@[simp] theorem setCode_draws (s : State) (sym : Nat) (e : CodeEntry) : (setCode s sym e).draws = s.draws := rfl
@[simp] theorem setCode_epoch (s : State) (sym : Nat) (e : CodeEntry) : (setCode s sym e).epoch = s.epoch := rfl

/-! ### clearCodes -/

@[simp] theorem clearCodes_cfg (s : State) : (clearCodes s).cfg = s.cfg := rfl
@[simp] theorem clearCodes_ie (s : State) : (clearCodes s).ie = s.ie := rfl
@[simp] theorem clearCodes_status (s : State) : (clearCodes s).status = s.status := rfl
@[simp] theorem clearCodes_errInfo (s : State) : (clearCodes s).errInfo = s.errInfo := rfl
@[simp] theorem clearCodes_root (s : State) : (clearCodes s).root = s.root := rfl
@[simp] theorem clearCodes_leafCount (s : State) : (clearCodes s).leafCount = s.leafCount := rfl
@[simp] theorem clearCodes_nodeCount (s : State) : (clearCodes s).nodeCount = s.nodeCount := rfl
@[simp] theorem clearCodes_heapSize (s : State) : (clearCodes s).heapSize = s.heapSize := rfl
@[simp] theorem clearCodes_pqResult (s : State) : (clearCodes s).pqResult = s.pqResult := rfl
@[simp] theorem clearCodes_bitLen (s : State) : (clearCodes s).bitLen = s.bitLen := rfl
@[simp] theorem clearCodes_bitIdx (s : State) : (clearCodes s).bitIdx = s.bitIdx := rfl
@[simp] theorem clearCodes_outCount (s : State) : (clearCodes s).outCount = s.outCount := rfl
@[simp] theorem clearCodes_cmdlat (s : State) : (clearCodes s).cmdlat = s.cmdlat := rfl
@[simp] theorem clearCodes_freq (s : State) : (clearCodes s).freq = s.freq := rfl
@[simp] theorem clearCodes_node (s : State) : (clearCodes s).node = s.node := rfl
@[simp] theorem clearCodes_heap (s : State) : (clearCodes s).heap = s.heap := rfl
@[simp] theorem clearCodes_code (s : State) :
    (clearCodes s).code = clearedCode s.cfg.nsym := rfl
@[simp] theorem clearCodes_bits (s : State) : (clearCodes s).bits = s.bits := rfl
@[simp] theorem clearCodes_out (s : State) : (clearCodes s).out = s.out := rfl
@[simp] theorem clearCodes_inReset (s : State) : (clearCodes s).inReset = s.inReset := rfl
@[simp] theorem clearCodes_script (s : State) : (clearCodes s).script = s.script := rfl
@[simp] theorem clearCodes_replies (s : State) : (clearCodes s).replies = s.replies := rfl
@[simp] theorem clearCodes_draws (s : State) : (clearCodes s).draws = s.draws := rfl
@[simp] theorem clearCodes_epoch (s : State) : (clearCodes s).epoch = s.epoch := rfl

/-! ### setBits -/

@[simp] theorem setBits_cfg (s : State) (w v : Nat) : (setBits s w v).cfg = s.cfg := rfl
@[simp] theorem setBits_ie (s : State) (w v : Nat) : (setBits s w v).ie = s.ie := rfl
@[simp] theorem setBits_status (s : State) (w v : Nat) : (setBits s w v).status = s.status := rfl
@[simp] theorem setBits_errInfo (s : State) (w v : Nat) : (setBits s w v).errInfo = s.errInfo := rfl
@[simp] theorem setBits_root (s : State) (w v : Nat) : (setBits s w v).root = s.root := rfl
@[simp] theorem setBits_leafCount (s : State) (w v : Nat) : (setBits s w v).leafCount = s.leafCount := rfl
@[simp] theorem setBits_nodeCount (s : State) (w v : Nat) : (setBits s w v).nodeCount = s.nodeCount := rfl
@[simp] theorem setBits_heapSize (s : State) (w v : Nat) : (setBits s w v).heapSize = s.heapSize := rfl
@[simp] theorem setBits_pqResult (s : State) (w v : Nat) : (setBits s w v).pqResult = s.pqResult := rfl
@[simp] theorem setBits_bitLen (s : State) (w v : Nat) : (setBits s w v).bitLen = s.bitLen := rfl
@[simp] theorem setBits_bitIdx (s : State) (w v : Nat) : (setBits s w v).bitIdx = s.bitIdx := rfl
@[simp] theorem setBits_outCount (s : State) (w v : Nat) : (setBits s w v).outCount = s.outCount := rfl
@[simp] theorem setBits_cmdlat (s : State) (w v : Nat) : (setBits s w v).cmdlat = s.cmdlat := rfl
@[simp] theorem setBits_freq (s : State) (w v : Nat) : (setBits s w v).freq = s.freq := rfl
@[simp] theorem setBits_node (s : State) (w v : Nat) : (setBits s w v).node = s.node := rfl
@[simp] theorem setBits_heap (s : State) (w v : Nat) : (setBits s w v).heap = s.heap := rfl
@[simp] theorem setBits_code (s : State) (w v : Nat) : (setBits s w v).code = s.code := rfl
@[simp] theorem setBits_bits (s : State) (w v : Nat) :
    (setBits s w v).bits = Memory.storeWord s.bits (bitsAddr w) v := rfl
@[simp] theorem setBits_out (s : State) (w v : Nat) : (setBits s w v).out = s.out := rfl
@[simp] theorem setBits_inReset (s : State) (w v : Nat) : (setBits s w v).inReset = s.inReset := rfl
@[simp] theorem setBits_script (s : State) (w v : Nat) : (setBits s w v).script = s.script := rfl
@[simp] theorem setBits_replies (s : State) (w v : Nat) : (setBits s w v).replies = s.replies := rfl
@[simp] theorem setBits_draws (s : State) (w v : Nat) : (setBits s w v).draws = s.draws := rfl
@[simp] theorem setBits_epoch (s : State) (w v : Nat) : (setBits s w v).epoch = s.epoch := rfl

/-! ### setOut -/

@[simp] theorem setOut_cfg (s : State) (k sym : Nat) : (setOut s k sym).cfg = s.cfg := rfl
@[simp] theorem setOut_ie (s : State) (k sym : Nat) : (setOut s k sym).ie = s.ie := rfl
@[simp] theorem setOut_status (s : State) (k sym : Nat) : (setOut s k sym).status = s.status := rfl
@[simp] theorem setOut_errInfo (s : State) (k sym : Nat) : (setOut s k sym).errInfo = s.errInfo := rfl
@[simp] theorem setOut_root (s : State) (k sym : Nat) : (setOut s k sym).root = s.root := rfl
@[simp] theorem setOut_leafCount (s : State) (k sym : Nat) : (setOut s k sym).leafCount = s.leafCount := rfl
@[simp] theorem setOut_nodeCount (s : State) (k sym : Nat) : (setOut s k sym).nodeCount = s.nodeCount := rfl
@[simp] theorem setOut_heapSize (s : State) (k sym : Nat) : (setOut s k sym).heapSize = s.heapSize := rfl
@[simp] theorem setOut_pqResult (s : State) (k sym : Nat) : (setOut s k sym).pqResult = s.pqResult := rfl
@[simp] theorem setOut_bitLen (s : State) (k sym : Nat) : (setOut s k sym).bitLen = s.bitLen := rfl
@[simp] theorem setOut_bitIdx (s : State) (k sym : Nat) : (setOut s k sym).bitIdx = s.bitIdx := rfl
@[simp] theorem setOut_outCount (s : State) (k sym : Nat) : (setOut s k sym).outCount = s.outCount := rfl
@[simp] theorem setOut_cmdlat (s : State) (k sym : Nat) : (setOut s k sym).cmdlat = s.cmdlat := rfl
@[simp] theorem setOut_freq (s : State) (k sym : Nat) : (setOut s k sym).freq = s.freq := rfl
@[simp] theorem setOut_node (s : State) (k sym : Nat) : (setOut s k sym).node = s.node := rfl
@[simp] theorem setOut_heap (s : State) (k sym : Nat) : (setOut s k sym).heap = s.heap := rfl
@[simp] theorem setOut_code (s : State) (k sym : Nat) : (setOut s k sym).code = s.code := rfl
@[simp] theorem setOut_bits (s : State) (k sym : Nat) : (setOut s k sym).bits = s.bits := rfl
@[simp] theorem setOut_out (s : State) (k sym : Nat) :
    (setOut s k sym).out = Memory.storeWord s.out (outAddr k) (low s.cfg.symW sym) := rfl
@[simp] theorem setOut_inReset (s : State) (k sym : Nat) : (setOut s k sym).inReset = s.inReset := rfl
@[simp] theorem setOut_script (s : State) (k sym : Nat) : (setOut s k sym).script = s.script := rfl
@[simp] theorem setOut_replies (s : State) (k sym : Nat) : (setOut s k sym).replies = s.replies := rfl
@[simp] theorem setOut_draws (s : State) (k sym : Nat) : (setOut s k sym).draws = s.draws := rfl
@[simp] theorem setOut_epoch (s : State) (k sym : Nat) : (setOut s k sym).epoch = s.epoch := rfl

/-! ### writeCtrl -/

@[simp] theorem writeCtrl_cfg (v : Nat) (s : State) : (writeCtrl v s).cfg = s.cfg := rfl
@[simp] theorem writeCtrl_ie (v : Nat) (s : State) :
    (writeCtrl v s).ie = bitOf v 0 := rfl
@[simp] theorem writeCtrl_status (v : Nat) (s : State) : (writeCtrl v s).status = s.status := rfl
@[simp] theorem writeCtrl_errInfo (v : Nat) (s : State) : (writeCtrl v s).errInfo = s.errInfo := rfl
@[simp] theorem writeCtrl_root (v : Nat) (s : State) : (writeCtrl v s).root = s.root := rfl
@[simp] theorem writeCtrl_leafCount (v : Nat) (s : State) : (writeCtrl v s).leafCount = s.leafCount := rfl
@[simp] theorem writeCtrl_nodeCount (v : Nat) (s : State) : (writeCtrl v s).nodeCount = s.nodeCount := rfl
@[simp] theorem writeCtrl_heapSize (v : Nat) (s : State) : (writeCtrl v s).heapSize = s.heapSize := rfl
@[simp] theorem writeCtrl_pqResult (v : Nat) (s : State) : (writeCtrl v s).pqResult = s.pqResult := rfl
@[simp] theorem writeCtrl_bitLen (v : Nat) (s : State) : (writeCtrl v s).bitLen = s.bitLen := rfl
@[simp] theorem writeCtrl_bitIdx (v : Nat) (s : State) : (writeCtrl v s).bitIdx = s.bitIdx := rfl
@[simp] theorem writeCtrl_outCount (v : Nat) (s : State) : (writeCtrl v s).outCount = s.outCount := rfl
@[simp] theorem writeCtrl_cmdlat (v : Nat) (s : State) : (writeCtrl v s).cmdlat = s.cmdlat := rfl
@[simp] theorem writeCtrl_freq (v : Nat) (s : State) : (writeCtrl v s).freq = s.freq := rfl
@[simp] theorem writeCtrl_node (v : Nat) (s : State) : (writeCtrl v s).node = s.node := rfl
@[simp] theorem writeCtrl_heap (v : Nat) (s : State) : (writeCtrl v s).heap = s.heap := rfl
@[simp] theorem writeCtrl_code (v : Nat) (s : State) : (writeCtrl v s).code = s.code := rfl
@[simp] theorem writeCtrl_bits (v : Nat) (s : State) : (writeCtrl v s).bits = s.bits := rfl
@[simp] theorem writeCtrl_out (v : Nat) (s : State) : (writeCtrl v s).out = s.out := rfl
@[simp] theorem writeCtrl_inReset (v : Nat) (s : State) : (writeCtrl v s).inReset = s.inReset := rfl
@[simp] theorem writeCtrl_script (v : Nat) (s : State) : (writeCtrl v s).script = s.script := rfl
@[simp] theorem writeCtrl_replies (v : Nat) (s : State) : (writeCtrl v s).replies = s.replies := rfl
@[simp] theorem writeCtrl_draws (v : Nat) (s : State) : (writeCtrl v s).draws = s.draws := rfl
@[simp] theorem writeCtrl_epoch (v : Nat) (s : State) : (writeCtrl v s).epoch = s.epoch := rfl

/-! ### writeRoot -/

@[simp] theorem writeRoot_cfg (v : Nat) (s : State) : (writeRoot v s).cfg = s.cfg := rfl
@[simp] theorem writeRoot_ie (v : Nat) (s : State) : (writeRoot v s).ie = s.ie := rfl
@[simp] theorem writeRoot_status_busy (v : Nat) (s : State) : (writeRoot v s).status.busy = s.status.busy := rfl
@[simp] theorem writeRoot_status_done (v : Nat) (s : State) : (writeRoot v s).status.done = s.status.done := rfl
@[simp] theorem writeRoot_status_treeValid (v : Nat) (s : State) : (writeRoot v s).status.treeValid = false := rfl
@[simp] theorem writeRoot_status_codesValid (v : Nat) (s : State) : (writeRoot v s).status.codesValid = false := rfl
@[simp] theorem writeRoot_status_overrun (v : Nat) (s : State) : (writeRoot v s).status.overrun = s.status.overrun := rfl
@[simp] theorem writeRoot_status_err (v : Nat) (s : State) : (writeRoot v s).status.err = s.status.err := rfl
@[simp] theorem writeRoot_errInfo (v : Nat) (s : State) : (writeRoot v s).errInfo = s.errInfo := rfl
@[simp] theorem writeRoot_root (v : Nat) (s : State) :
    (writeRoot v s).root = low s.cfg.idW v := rfl
@[simp] theorem writeRoot_leafCount (v : Nat) (s : State) : (writeRoot v s).leafCount = s.leafCount := rfl
@[simp] theorem writeRoot_nodeCount (v : Nat) (s : State) : (writeRoot v s).nodeCount = s.nodeCount := rfl
@[simp] theorem writeRoot_heapSize (v : Nat) (s : State) : (writeRoot v s).heapSize = s.heapSize := rfl
@[simp] theorem writeRoot_pqResult (v : Nat) (s : State) : (writeRoot v s).pqResult = s.pqResult := rfl
@[simp] theorem writeRoot_bitLen (v : Nat) (s : State) : (writeRoot v s).bitLen = s.bitLen := rfl
@[simp] theorem writeRoot_bitIdx (v : Nat) (s : State) : (writeRoot v s).bitIdx = s.bitIdx := rfl
@[simp] theorem writeRoot_outCount (v : Nat) (s : State) : (writeRoot v s).outCount = s.outCount := rfl
@[simp] theorem writeRoot_cmdlat (v : Nat) (s : State) : (writeRoot v s).cmdlat = s.cmdlat := rfl
@[simp] theorem writeRoot_freq (v : Nat) (s : State) : (writeRoot v s).freq = s.freq := rfl
@[simp] theorem writeRoot_node (v : Nat) (s : State) : (writeRoot v s).node = s.node := rfl
@[simp] theorem writeRoot_heap (v : Nat) (s : State) : (writeRoot v s).heap = s.heap := rfl
@[simp] theorem writeRoot_code (v : Nat) (s : State) : (writeRoot v s).code = s.code := rfl
@[simp] theorem writeRoot_bits (v : Nat) (s : State) : (writeRoot v s).bits = s.bits := rfl
@[simp] theorem writeRoot_out (v : Nat) (s : State) : (writeRoot v s).out = s.out := rfl
@[simp] theorem writeRoot_inReset (v : Nat) (s : State) : (writeRoot v s).inReset = s.inReset := rfl
@[simp] theorem writeRoot_script (v : Nat) (s : State) : (writeRoot v s).script = s.script := rfl
@[simp] theorem writeRoot_replies (v : Nat) (s : State) : (writeRoot v s).replies = s.replies := rfl
@[simp] theorem writeRoot_draws (v : Nat) (s : State) : (writeRoot v s).draws = s.draws := rfl
@[simp] theorem writeRoot_epoch (v : Nat) (s : State) : (writeRoot v s).epoch = s.epoch := rfl

/-! ### writeBitLen -/

@[simp] theorem writeBitLen_cfg (v : Nat) (s : State) : (writeBitLen v s).cfg = s.cfg := rfl
@[simp] theorem writeBitLen_ie (v : Nat) (s : State) : (writeBitLen v s).ie = s.ie := rfl
@[simp] theorem writeBitLen_status (v : Nat) (s : State) : (writeBitLen v s).status = s.status := rfl
@[simp] theorem writeBitLen_errInfo (v : Nat) (s : State) : (writeBitLen v s).errInfo = s.errInfo := rfl
@[simp] theorem writeBitLen_root (v : Nat) (s : State) : (writeBitLen v s).root = s.root := rfl
@[simp] theorem writeBitLen_leafCount (v : Nat) (s : State) : (writeBitLen v s).leafCount = s.leafCount := rfl
@[simp] theorem writeBitLen_nodeCount (v : Nat) (s : State) : (writeBitLen v s).nodeCount = s.nodeCount := rfl
@[simp] theorem writeBitLen_heapSize (v : Nat) (s : State) : (writeBitLen v s).heapSize = s.heapSize := rfl
@[simp] theorem writeBitLen_pqResult (v : Nat) (s : State) : (writeBitLen v s).pqResult = s.pqResult := rfl
@[simp] theorem writeBitLen_bitLen (v : Nat) (s : State) :
    (writeBitLen v s).bitLen = low 17 v := rfl
@[simp] theorem writeBitLen_bitIdx (v : Nat) (s : State) : (writeBitLen v s).bitIdx = s.bitIdx := rfl
@[simp] theorem writeBitLen_outCount (v : Nat) (s : State) : (writeBitLen v s).outCount = s.outCount := rfl
@[simp] theorem writeBitLen_cmdlat (v : Nat) (s : State) : (writeBitLen v s).cmdlat = s.cmdlat := rfl
@[simp] theorem writeBitLen_freq (v : Nat) (s : State) : (writeBitLen v s).freq = s.freq := rfl
@[simp] theorem writeBitLen_node (v : Nat) (s : State) : (writeBitLen v s).node = s.node := rfl
@[simp] theorem writeBitLen_heap (v : Nat) (s : State) : (writeBitLen v s).heap = s.heap := rfl
@[simp] theorem writeBitLen_code (v : Nat) (s : State) : (writeBitLen v s).code = s.code := rfl
@[simp] theorem writeBitLen_bits (v : Nat) (s : State) : (writeBitLen v s).bits = s.bits := rfl
@[simp] theorem writeBitLen_out (v : Nat) (s : State) : (writeBitLen v s).out = s.out := rfl
@[simp] theorem writeBitLen_inReset (v : Nat) (s : State) : (writeBitLen v s).inReset = s.inReset := rfl
@[simp] theorem writeBitLen_script (v : Nat) (s : State) : (writeBitLen v s).script = s.script := rfl
@[simp] theorem writeBitLen_replies (v : Nat) (s : State) : (writeBitLen v s).replies = s.replies := rfl
@[simp] theorem writeBitLen_draws (v : Nat) (s : State) : (writeBitLen v s).draws = s.draws := rfl
@[simp] theorem writeBitLen_epoch (v : Nat) (s : State) : (writeBitLen v s).epoch = s.epoch := rfl

/-! ### resetBlock -/

@[simp] theorem resetBlock_cfg (s : State) : (resetBlock s).cfg = s.cfg := rfl
@[simp] theorem resetBlock_ie (s : State) : (resetBlock s).ie = (State.resetWith s.cfg).ie := rfl
@[simp] theorem resetBlock_status (s : State) : (resetBlock s).status = (State.resetWith s.cfg).status := rfl
@[simp] theorem resetBlock_errInfo (s : State) : (resetBlock s).errInfo = (State.resetWith s.cfg).errInfo := rfl
@[simp] theorem resetBlock_root (s : State) : (resetBlock s).root = (State.resetWith s.cfg).root := rfl
@[simp] theorem resetBlock_leafCount (s : State) : (resetBlock s).leafCount = (State.resetWith s.cfg).leafCount := rfl
@[simp] theorem resetBlock_nodeCount (s : State) : (resetBlock s).nodeCount = (State.resetWith s.cfg).nodeCount := rfl
@[simp] theorem resetBlock_heapSize (s : State) : (resetBlock s).heapSize = (State.resetWith s.cfg).heapSize := rfl
@[simp] theorem resetBlock_pqResult (s : State) : (resetBlock s).pqResult = (State.resetWith s.cfg).pqResult := rfl
@[simp] theorem resetBlock_bitLen (s : State) : (resetBlock s).bitLen = (State.resetWith s.cfg).bitLen := rfl
@[simp] theorem resetBlock_bitIdx (s : State) : (resetBlock s).bitIdx = (State.resetWith s.cfg).bitIdx := rfl
@[simp] theorem resetBlock_outCount (s : State) : (resetBlock s).outCount = (State.resetWith s.cfg).outCount := rfl
@[simp] theorem resetBlock_cmdlat (s : State) : (resetBlock s).cmdlat = (State.resetWith s.cfg).cmdlat := rfl
@[simp] theorem resetBlock_freq (s : State) : (resetBlock s).freq = (State.resetWith s.cfg).freq := rfl
@[simp] theorem resetBlock_node (s : State) : (resetBlock s).node = (State.resetWith s.cfg).node := rfl
@[simp] theorem resetBlock_heap (s : State) : (resetBlock s).heap = (State.resetWith s.cfg).heap := rfl
@[simp] theorem resetBlock_code (s : State) : (resetBlock s).code = (State.resetWith s.cfg).code := rfl
@[simp] theorem resetBlock_bits (s : State) : (resetBlock s).bits = (State.resetWith s.cfg).bits := rfl
@[simp] theorem resetBlock_out (s : State) : (resetBlock s).out = (State.resetWith s.cfg).out := rfl
@[simp] theorem resetBlock_inReset (s : State) : (resetBlock s).inReset = s.inReset := rfl
@[simp] theorem resetBlock_script (s : State) : (resetBlock s).script = s.script := rfl
@[simp] theorem resetBlock_replies (s : State) : (resetBlock s).replies = s.replies := rfl
@[simp] theorem resetBlock_draws (s : State) : (resetBlock s).draws = s.draws := rfl
@[simp] theorem resetBlock_epoch (s : State) : (resetBlock s).epoch = s.epoch + 1 := rfl

end Sys2Proof.Machine
end

