-- ==== Sys2Proof/Laws/Operands.lean ====
section
/-! SUPPORT. The elements of the memories: an element read back is what was written, and writing one element leaves
every other alone. -/

namespace Sys2Proof.Machine

/-! ## Bit fields of word 0 -/

theorem bitOf_top (b : Bool) {v : Nat} (h : v < 2 ^ 31) : bitOf (2 ^ 31 * b.toNat + v) 31 = b := by
  cases b <;> simp [bitOf] <;> omega

theorem low_top (b : Bool) (v : Nat) {w : Nat} (h : w ≤ 31) : low w (2 ^ 31 * b.toNat + v) = low w v := by
  obtain ⟨k, hk⟩ := Nat.exists_eq_add_of_le h
  rw [low, hk, Nat.pow_add, Nat.mul_assoc, Nat.mul_add_mod, low]

/-! ## Reads do not see writes elsewhere -/

section
variable (s : State)

theorem freqAt_congr {t : State} (hc : t.cfg = s.cfg) (he : t.epoch = s.epoch) (hf : t.freq = s.freq) :
    t.freqAt = s.freqAt := by
  funext sym; simp [State.freqAt, hc, he, hf]

theorem nodeAt_congr {t : State} (hc : t.cfg = s.cfg) (he : t.epoch = s.epoch) (hn : t.node = s.node) :
    t.nodeAt = s.nodeAt := by
  funext id; simp [State.nodeAt, hc, he, hn]

theorem heapAt_congr {t : State} (hc : t.cfg = s.cfg) (he : t.epoch = s.epoch) (hh : t.heap = s.heap) :
    t.heapAt = s.heapAt := by
  funext i; simp [State.heapAt, hc, he, hh]

theorem codeAt_congr {t : State} (hc : t.cfg = s.cfg) (he : t.epoch = s.epoch) (hh : t.code = s.code) :
    t.codeAt = s.codeAt := by
  funext i; simp [State.codeAt, hc, he, hh]

theorem bitAt_congr {t : State} (he : t.epoch = s.epoch) (hb : t.bits = s.bits) : t.bitAt = s.bitAt := by
  funext i; simp [State.bitAt, he, hb]

theorem outAt_congr {t : State} (hc : t.cfg = s.cfg) (he : t.epoch = s.epoch) (ho : t.out = s.out) :
    t.outAt = s.outAt := by
  funext i; simp [State.outAt, hc, he, ho]

theorem key_congr {t : State} (h : t.nodeAt = s.nodeAt) : t.key = s.key := by
  funext id; simp [State.key, h]

end

/-! ## FREQ -/

theorem freqAt_lt (s : State) (sym : Nat) : s.freqAt sym < 2 ^ s.cfg.weightW := low_lt _ _

theorem freqAt_setFreq_same (s : State) (h : s.cfg.Legal) (sym v : Nat) :
    (setFreq s sym v).freqAt sym = low s.cfg.weightW v := by
  have hw := Config.two_pow_weightW_le h
  have hl := low_lt s.cfg.weightW v
  simp only [State.freqAt, setFreq, loadWord_storeWord_same]
  rw [low_of_lt (w := 32) (by omega), low_low]

theorem freqAt_setFreq_other (s : State) {sym sym' : Nat} (v : Nat) (h : sym' ≠ sym) :
    (setFreq s sym v).freqAt sym' = s.freqAt sym' := by
  simp only [State.freqAt, setFreq]
  rw [loadWord_storeWord_other _ _ _ (by unfold freqAddr; omega)]

/-! ## NODE -/

theorem nodeAt_sym_lt (s : State) (id : Nat) : (s.nodeAt id).sym < s.cfg.nsym := low_lt _ _

theorem nodeAt_weight_lt (s : State) (id : Nat) : (s.nodeAt id).weight < 2 ^ s.cfg.weightW := low_lt _ _

theorem nodeAt_left_lt (s : State) (id : Nat) : (s.nodeAt id).left < 2 ^ s.cfg.idW := low_lt _ _

theorem nodeAt_right_lt (s : State) (id : Nat) : (s.nodeAt id).right < 2 ^ s.cfg.idW := low_lt _ _

theorem nodeAt_setNodeWord_other (s : State) {id id' j : Nat} (v : Nat) (h : id' ≠ id) (hj : j < 4) :
    (setNodeWord s id j v).nodeAt id' = s.nodeAt id' := by
  simp only [State.nodeAt, setNodeWord]
  rw [loadWord_storeWord_other _ _ _ (by unfold nodeAddr; omega),
    loadWord_storeWord_other _ _ _ (by unfold nodeAddr; omega),
    loadWord_storeWord_other _ _ _ (by unfold nodeAddr; omega),
    loadWord_storeWord_other _ _ _ (by unfold nodeAddr; omega)]

theorem nodeAt_setNode_other (s : State) {id id' : Nat} (n : Node) (h : id' ≠ id) :
    (setNode s id n).nodeAt id' = s.nodeAt id' := by
  simp only [setNode]
  rw [nodeAt_setNodeWord_other _ _ h (by omega), nodeAt_setNodeWord_other _ _ h (by omega),
    nodeAt_setNodeWord_other _ _ h (by omega), nodeAt_setNodeWord_other _ _ h (by omega)]

/-- Every field of the node fits its width. -/
structure Node.Fits (c : Config) (n : Node) : Prop where
  sym : n.sym < 2 ^ c.symW
  weight : n.weight < 2 ^ c.weightW
  left : n.left < 2 ^ c.idW
  right : n.right < 2 ^ c.idW

theorem nodeAt_fits (s : State) (id : Nat) : (s.nodeAt id).Fits s.cfg :=
  ⟨low_lt _ _, low_lt _ _, low_lt _ _, low_lt _ _⟩

/-- The four words of a slot, each written by its own store. -/
theorem setNode_words (s : State) (id : Nat) (n : Node) :
    Memory.loadWord s.epoch (setNode s id n).node (nodeAddr id) = low 32 (nodeField s.cfg 0 (n.word 0)) ∧
    Memory.loadWord s.epoch (setNode s id n).node (nodeAddr id + 4) = low 32 (nodeField s.cfg 1 (n.word 1)) ∧
    Memory.loadWord s.epoch (setNode s id n).node (nodeAddr id + 8) = low 32 (nodeField s.cfg 2 (n.word 2)) ∧
    Memory.loadWord s.epoch (setNode s id n).node (nodeAddr id + 12) = low 32 (nodeField s.cfg 3 (n.word 3)) := by
  simp only [setNode, setNodeWord, Nat.mul_zero, Nat.add_zero, Nat.mul_one]
  refine ⟨?_, ?_, ?_, ?_⟩
  · rw [loadWord_storeWord_other _ _ _ (by omega), loadWord_storeWord_other _ _ _ (by omega),
      loadWord_storeWord_other _ _ _ (by omega), loadWord_storeWord_same]
  · rw [loadWord_storeWord_other _ _ _ (by omega), loadWord_storeWord_other _ _ _ (by omega),
      loadWord_storeWord_same]
  · rw [loadWord_storeWord_other _ _ _ (by omega), loadWord_storeWord_same]
  · rw [loadWord_storeWord_same]

theorem nodeAt_setNode_same (s : State) (h : s.cfg.Legal) (id : Nat) {n : Node} (hn : n.Fits s.cfg) :
    (setNode s id n).nodeAt id = n := by
  obtain ⟨h0, h1, h2, h3⟩ := setNode_words s id n
  have hs := Config.two_pow_symW_le h
  have hw := Config.two_pow_weightW_le h
  have hi := Config.two_pow_idW_le h
  have hs8 : s.cfg.symW ≤ 31 := by have := h.2.1; omega
  have := hn.sym
  have := hn.weight
  have := hn.left
  have := hn.right
  have f0 : nodeField s.cfg 0 (n.word 0) = 2 ^ 31 * n.isLeaf.toNat + n.sym := by
    simp only [nodeField, Node.word]
    rw [bitOf_top _ (by omega), low_top _ _ hs8, low_of_lt hn.sym]
  have f1 : nodeField s.cfg 1 (n.word 1) = n.weight := low_of_lt hn.weight
  have f2 : nodeField s.cfg 2 (n.word 2) = n.left := low_of_lt hn.left
  have f3 : nodeField s.cfg 3 (n.word 3) = n.right := low_of_lt hn.right
  have hb : n.isLeaf.toNat ≤ 1 := by cases n.isLeaf <;> simp
  rw [f0, low_of_lt (by omega)] at h0
  rw [f1, low_of_lt (by omega)] at h1
  rw [f2, low_of_lt (by omega)] at h2
  rw [f3, low_of_lt (by omega)] at h3
  simp only [State.nodeAt, setNode_cfg, setNode_epoch, h0, h1, h2, h3]
  rw [bitOf_top _ (by omega), low_top _ _ hs8, low_of_lt hn.sym, low_of_lt hn.weight, low_of_lt hn.left,
    low_of_lt hn.right]

/-! ## HEAP -/

theorem heapAt_lt (s : State) (i : Nat) : s.heapAt i < 2 ^ s.cfg.idW := low_lt _ _

theorem heapAt_setHeap_same (s : State) (h : s.cfg.Legal) (i id : Nat) :
    (setHeap s i id).heapAt i = low s.cfg.idW id := by
  have hi := Config.two_pow_idW_le h
  have hl := low_lt s.cfg.idW id
  simp only [State.heapAt, setHeap, loadWord_storeWord_same]
  rw [low_of_lt (w := 32) (by omega), low_low]

theorem heapAt_setHeap_other (s : State) {i j : Nat} (id : Nat) (h : j ≠ i) :
    (setHeap s i id).heapAt j = s.heapAt j := by
  simp only [State.heapAt, setHeap]
  rw [loadWord_storeWord_other _ _ _ (by unfold heapAddr; omega)]

/-- A swap exchanges the two entries and leaves the others. -/
theorem heapAt_swapHeap (s : State) (h : s.cfg.Legal) (i j k : Nat) :
    (swapHeap s i j).heapAt k = if k = i then s.heapAt j else if k = j then s.heapAt i else s.heapAt k := by
  unfold swapHeap
  by_cases hj : k = j
  · subst hj
    rw [heapAt_setHeap_same _ (by simpa using h)]
    by_cases hi : k = i
    · subst hi; simp [low_of_lt (heapAt_lt s k)]
    · simp [hi, low_of_lt (heapAt_lt s i)]
  · rw [heapAt_setHeap_other _ _ hj]
    by_cases hi : k = i
    · subst hi; rw [heapAt_setHeap_same _ h]; simp [low_of_lt (heapAt_lt s j)]
    · rw [heapAt_setHeap_other _ _ hi]; simp [hi, hj]

@[simp] theorem nodeAt_setHeap (s : State) (i id : Nat) : (setHeap s i id).nodeAt = s.nodeAt :=
  nodeAt_congr s rfl rfl rfl

@[simp] theorem nodeAt_swapHeap (s : State) (i j : Nat) : (swapHeap s i j).nodeAt = s.nodeAt := by
  simp [swapHeap]

@[simp] theorem key_setHeap (s : State) (i id : Nat) : (setHeap s i id).key = s.key := key_congr s (by simp)

@[simp] theorem key_swapHeap (s : State) (i j : Nat) : (swapHeap s i j).key = s.key := key_congr s (by simp)

@[simp] theorem heapAt_setNode (s : State) (id : Nat) (n : Node) : (setNode s id n).heapAt = s.heapAt :=
  heapAt_congr s (by simp) (by simp) (by simp)

@[simp] theorem freqAt_setNode (s : State) (id : Nat) (n : Node) : (setNode s id n).freqAt = s.freqAt :=
  freqAt_congr s (by simp) (by simp) (by simp)

@[simp] theorem freqAt_setHeap (s : State) (i id : Nat) : (setHeap s i id).freqAt = s.freqAt :=
  freqAt_congr s rfl rfl rfl

/-! ## CODE -/

/-- Every field of the entry fits its width. -/
structure CodeEntry.Fits (c : Config) (e : CodeEntry) : Prop where
  len : e.len < 2 ^ 16
  bits : e.bits < 2 ^ c.maxCodeLen

theorem codeAt_setCode_same (s : State) (h : s.cfg.Legal) (sym : Nat) {e : CodeEntry} (he : e.Fits s.cfg) :
    (setCode s sym e).codeAt sym = e := by
  have hlen := he.len
  have hb : e.valid.toNat ≤ 1 := by cases e.valid <;> simp
  have hm : e.bits % 2 ^ (8 * 32) = e.bits :=
    Nat.mod_eq_of_lt (lt_of_lt_of_le he.bits
      (Nat.pow_le_pow_right (by omega) (by have := Config.maxCodeLen_le h; omega)))
  have h0 : Memory.loadWord s.epoch (setCode s sym e).code (codeAddr sym) = 2 ^ 31 * e.valid.toNat + e.len := by
    simp only [setCode, Memory.loadWord]
    rw [load_store_outside _ _ (by omega), ← Memory.loadWord, loadWord_storeWord_same, low_of_lt hlen,
      low_of_lt (by omega)]
  have h1 : Memory.load s.epoch (setCode s sym e).code (codeAddr sym + 4) 32 = e.bits := by
    simp only [setCode]
    rw [load_store_same, low_of_lt he.bits, hm]
  simp only [State.codeAt, setCode_cfg, setCode_epoch, h0, h1]
  rw [bitOf_top _ (by omega), low_top _ _ (by omega), low_of_lt hlen, low_of_lt he.bits]

theorem codeAt_setCode_other (s : State) {sym sym' : Nat} (e : CodeEntry) (h : sym' ≠ sym) :
    (setCode s sym e).codeAt sym' = s.codeAt sym' := by
  have hd : codeAddr sym' + 64 ≤ codeAddr sym ∨ codeAddr sym + 64 ≤ codeAddr sym' := by
    unfold codeAddr; omega
  simp only [State.codeAt, setCode, Memory.loadWord, Memory.storeWord]
  rw [load_store_outside _ _ (by simp; omega), load_store_outside _ _ (by simp; omega),
    load_store_outside _ _ (by simp; omega), load_store_outside _ _ (by simp; omega)]

@[simp] theorem nodeAt_setCode (s : State) (sym : Nat) (e : CodeEntry) : (setCode s sym e).nodeAt = s.nodeAt :=
  nodeAt_congr s rfl rfl rfl

@[simp] theorem nodeAt_clearCodes (s : State) : (clearCodes s).nodeAt = s.nodeAt := nodeAt_congr s rfl rfl rfl

theorem clearedCode_lookup {nsym sym i : Nat} (hs : sym < nsym) (hi : i < 36) :
    Memory.lookup (clearedCode nsym) (codeAddr sym + i) = some 0 := by
  unfold clearedCode
  induction nsym with
  | zero => omega
  | succ n ih =>
    rw [List.range_succ, List.flatMap_append, lookup_append]
    by_cases h : sym < n
    · rw [ih h]; simp
    · have hn : sym = n := by omega
      subst hn
      have hnone : Memory.lookup ((List.range sym).flatMap fun x => cellsAt (codeAddr x) (List.replicate 36 0))
          (codeAddr sym + i) = none := by
        refine lookup_eq_none fun c hc => ?_
        obtain ⟨x, hx, hcx⟩ := List.mem_flatMap.1 hc
        have hr := cellsAt_range hcx
        have hx' := List.mem_range.1 hx
        simp only [List.length_replicate, codeAddr] at *
        omega
      have hlast : Memory.lookup (cellsAt (codeAddr sym) (List.replicate 36 0)) (codeAddr sym + i) = some 0 := by
        rw [lookup_cellsAt, List.getElem?_replicate, if_pos hi]
      rw [hnone, Option.none_or]
      simpa only [List.flatMap_cons, List.flatMap_nil, List.append_nil] using hlast

theorem clearedCode_wf (nsym : Nat) : (clearedCode nsym).wf := by
  unfold clearedCode
  induction nsym with
  | zero => exact List.Pairwise.nil
  | succ n ih =>
    rw [List.range_succ, List.flatMap_append]
    refine List.pairwise_append.2 ⟨ih, by simpa using cellsAt_wf _ _, ?_⟩
    intro c hc d hd
    obtain ⟨x, hx, hcx⟩ := List.mem_flatMap.1 hc
    obtain ⟨y, hy, hdy⟩ := List.mem_flatMap.1 hd
    have h1 := cellsAt_range hcx
    have h2 := cellsAt_range hdy
    have hx' := List.mem_range.1 hx
    have hy' : y = n := by simpa using hy
    simp only [List.length_replicate, codeAddr] at *
    omega

/-- After clearing, every entry has VALID = 0, LEN = 0, BITS = 0 (43_code_generator.md R128). -/
theorem codeAt_clearCodes (s : State) {sym : Nat} (h : sym < s.cfg.nsym) :
    (clearCodes s).codeAt sym = { valid := false, len := 0, bits := 0 } := by
  have hz : ∀ n j, j + n ≤ 36 → Memory.load s.epoch (clearedCode s.cfg.nsym) (codeAddr sym + j) n = 0 := by
    intro n
    induction n with
    | zero => intros; rfl
    | succ n ih =>
      intro j hj
      have hb : Memory.byte s.epoch (clearedCode s.cfg.nsym) (codeAddr sym + j) = 0 := by
        simp [Memory.byte, clearedCode_lookup h (show j < 36 by omega)]
      have := ih (j + 1) (by omega)
      rw [← Nat.add_assoc] at this
      simp [Memory.load, hb, this]
  have h0 := hz 4 0 (by omega)
  have h1 := hz 32 4 (by omega)
  simp only [Nat.add_zero] at h0
  simp [State.codeAt, clearCodes, Memory.loadWord, h0, h1, bitOf, low]

/-! ## BITS and OUT -/

theorem bitAt_setBits (s : State) (w : Nat) {v : Nat} (hv : v < 2 ^ 32) (i : Nat) :
    (setBits s w v).bitAt i = if i / 32 = w then bitOf v (i % 32) else s.bitAt i := by
  simp only [State.bitAt, setBits]
  by_cases h : i / 32 = w
  · subst h
    rw [loadWord_storeWord_same, low_of_lt hv]; simp
  · rw [loadWord_storeWord_other _ _ _ (by unfold bitsAddr; omega)]; simp [h]

theorem outAt_setOut_same (s : State) (h : s.cfg.Legal) (k sym : Nat) :
    (setOut s k sym).outAt k = low s.cfg.symW sym := by
  have hs := Config.two_pow_symW_le h
  have hl := low_lt s.cfg.symW sym
  simp only [State.outAt, setOut, loadWord_storeWord_same]
  rw [low_of_lt (w := 32) (by omega), low_low]

theorem outAt_setOut_other (s : State) {k k' : Nat} (sym : Nat) (h : k' ≠ k) :
    (setOut s k sym).outAt k' = s.outAt k' := by
  simp only [State.outAt, setOut]
  rw [loadWord_storeWord_other _ _ _ (by unfold outAddr; omega)]

@[simp] theorem nodeAt_setOut (s : State) (k sym : Nat) : (setOut s k sym).nodeAt = s.nodeAt :=
  nodeAt_congr s rfl rfl rfl

@[simp] theorem bitAt_setOut (s : State) (k sym : Nat) : (setOut s k sym).bitAt = s.bitAt :=
  bitAt_congr s rfl rfl

/-! ## Bytes -/

/-- A write of OUT[k] leaves every byte outside its word. -/
theorem memByte_setOut (s : State) {k off : Nat} (sym : Nat) (h : off < outAddr k ∨ outAddr k + 4 ≤ off) :
    (setOut s k sym).memByte off = s.memByte off := by
  unfold State.memByte State.memoryAt
  simp only [setOut_epoch, setOut_freq, setOut_node, setOut_heap, setOut_code, setOut_bits, setOut_out]
  split_ifs <;> first | rfl | exact byte_storeWord_outside _ _ _ h

end Sys2Proof.Machine
end

