-- ==== Sys2Proof/Laws/Queue.lean ====
section
/-! SUPPORT. What the heap primitives change and what they keep (41_priority_queue.md R111, R112). -/

namespace Sys2Proof.Machine

/-! ## Sift-up -/

/-- Sifting up changes HEAP only. -/
theorem siftUp_eq : ∀ (fuel i : Nat) (s : State), siftUp fuel i s = { s with heap := (siftUp fuel i s).heap }
  | 0, _, _ => rfl
  | fuel + 1, i, s => by
    unfold siftUp
    split
    · rfl
    · split
      · rw [siftUp_eq fuel]; simp [swapHeap, setHeap]
      · rfl

/-- A property of HEAP that every swap keeps is kept by sifting up. -/
theorem siftUp_induct {P : State → Prop} (hP : ∀ s i j, i ≤ j → P s → P (swapHeap s j i)) :
    ∀ (fuel i : Nat) (s : State), P s → P (siftUp fuel i s)
  | 0, _, _, h => h
  | fuel + 1, i, s, h => by
    unfold siftUp
    split
    · exact h
    · split
      · exact siftUp_induct hP fuel _ _ (hP s _ i (by omega) h)
      · exact h

/-! ## Sift-down -/

/-- Sifting down changes HEAP only. -/
theorem siftDown_eq : ∀ (fuel i : Nat) (s : State), siftDown fuel i s = { s with heap := (siftDown fuel i s).heap }
  | 0, _, _ => rfl
  | fuel + 1, i, s => by
    unfold siftDown
    split
    · rfl
    · split
      · rw [siftDown_eq fuel]; simp [swapHeap, setHeap]
      · rfl

theorem smallerChild_cases (s : State) (i : Nat) (h : 2 * i + 1 < s.heapSize) :
    (smallerChild s i = 2 * i + 1 ∨ smallerChild s i = 2 * i + 2) ∧ smallerChild s i < s.heapSize := by
  unfold smallerChild
  split <;> omega

/-! ## PQInsert and PQExtract -/

/-- `PQInsert` changes HEAP and HEAP_SIZE only, and HEAP_SIZE grows by one. -/
theorem pqInsert_eq (id : Nat) (s : State) :
    pqInsert id s = { s with heap := (pqInsert id s).heap, heapSize := s.heapSize + 1 } := by
  unfold pqInsert
  rw [siftUp_eq]
  simp [setHeap]

@[simp] theorem pqInsert_heapSize (id : Nat) (s : State) : (pqInsert id s).heapSize = s.heapSize + 1 := by
  rw [pqInsert_eq]

@[simp] theorem pqInsert_cfg (id : Nat) (s : State) : (pqInsert id s).cfg = s.cfg := by rw [pqInsert_eq]

@[simp] theorem pqInsert_epoch (id : Nat) (s : State) : (pqInsert id s).epoch = s.epoch := by rw [pqInsert_eq]

@[simp] theorem pqInsert_freqAt (id : Nat) (s : State) : (pqInsert id s).freqAt = s.freqAt := by
  rw [pqInsert_eq]; rfl

@[simp] theorem pqInsert_nodeAt (id : Nat) (s : State) : (pqInsert id s).nodeAt = s.nodeAt := by
  rw [pqInsert_eq]; rfl

/-- `PQExtract` changes HEAP and HEAP_SIZE only, and HEAP_SIZE shrinks by one. -/
theorem pqRemoveRoot_eq (s : State) :
    pqRemoveRoot s = { s with heap := (pqRemoveRoot s).heap, heapSize := s.heapSize - 1 } := by
  unfold pqRemoveRoot
  by_cases h : s.heapSize - 1 = 0
  · simp [h]
  · simp only [h, if_false]
    rw [siftDown_eq]
    simp [setHeap]

@[simp] theorem pqRemoveRoot_heapSize (s : State) : (pqRemoveRoot s).heapSize = s.heapSize - 1 := by
  rw [pqRemoveRoot_eq]

@[simp] theorem pqRemoveRoot_cfg (s : State) : (pqRemoveRoot s).cfg = s.cfg := by rw [pqRemoveRoot_eq]

@[simp] theorem pqRemoveRoot_epoch (s : State) : (pqRemoveRoot s).epoch = s.epoch := by rw [pqRemoveRoot_eq]

@[simp] theorem pqRemoveRoot_freqAt (s : State) : (pqRemoveRoot s).freqAt = s.freqAt := by
  rw [pqRemoveRoot_eq]; rfl

@[simp] theorem pqRemoveRoot_nodeAt (s : State) : (pqRemoveRoot s).nodeAt = s.nodeAt := by
  rw [pqRemoveRoot_eq]; rfl

/-! ## The canonical form of HEAP -/

/-- A write of HEAP[i] within `n` keeps the form of the memory. -/
theorem setHeap_form {s : State} {n i : Nat} (id : Nat) (hi : i < n)
    (h : s.heap.wf ∧ s.heap.inRange (heapAddr 0) (heapAddr n)) :
    (setHeap s i id).heap.wf ∧ (setHeap s i id).heap.inRange (heapAddr 0) (heapAddr n) := by
  refine ⟨storeWord_wf h.1 _ _, fun c hc => ?_⟩
  rcases mem_store hc with hc | hc
  · exact h.2 c hc
  · simp only [leBytes_length, heapAddr] at hc ⊢; omega

theorem swapHeap_form {s : State} {n i j : Nat} (hi : i < n) (hj : j < n)
    (h : s.heap.wf ∧ s.heap.inRange (heapAddr 0) (heapAddr n)) :
    (swapHeap s i j).heap.wf ∧ (swapHeap s i j).heap.inRange (heapAddr 0) (heapAddr n) :=
  setHeap_form _ hj (setHeap_form _ hi h)

theorem siftUp_form {n : Nat} : ∀ (fuel i : Nat) (s : State), i < n →
    s.heap.wf ∧ s.heap.inRange (heapAddr 0) (heapAddr n) →
    (siftUp fuel i s).heap.wf ∧ (siftUp fuel i s).heap.inRange (heapAddr 0) (heapAddr n)
  | 0, _, _, _, h => h
  | fuel + 1, i, s, hi, h => by
    unfold siftUp
    split
    · exact h
    · split
      · exact siftUp_form fuel _ _ (by omega) (swapHeap_form hi (by omega) h)
      · exact h

theorem siftDown_form {n : Nat} : ∀ (fuel i : Nat) (s : State), i < n → s.heapSize ≤ n →
    s.heap.wf ∧ s.heap.inRange (heapAddr 0) (heapAddr n) →
    (siftDown fuel i s).heap.wf ∧ (siftDown fuel i s).heap.inRange (heapAddr 0) (heapAddr n)
  | 0, _, _, _, _, h => h
  | fuel + 1, i, s, hi, hs, h => by
    unfold siftDown
    split
    · exact h
    · have hc := (smallerChild_cases s i (by omega)).2
      split
      · exact siftDown_form fuel _ _ (by omega) (by simpa using hs) (swapHeap_form (by omega) hi h)
      · exact h

theorem pqInsert_form {s : State} {n : Nat} (id : Nat) (hn : s.heapSize < n)
    (h : s.heap.wf ∧ s.heap.inRange (heapAddr 0) (heapAddr n)) :
    (pqInsert id s).heap.wf ∧ (pqInsert id s).heap.inRange (heapAddr 0) (heapAddr n) :=
  siftUp_form _ _ _ hn (setHeap_form id hn h)

theorem pqRemoveRoot_form {s : State} {n : Nat} (h0 : 0 < n) (hn : s.heapSize ≤ n)
    (h : s.heap.wf ∧ s.heap.inRange (heapAddr 0) (heapAddr n)) :
    (pqRemoveRoot s).heap.wf ∧ (pqRemoveRoot s).heap.inRange (heapAddr 0) (heapAddr n) := by
  unfold pqRemoveRoot
  by_cases hz : s.heapSize - 1 = 0
  · simpa [hz] using h
  · simp only [hz, if_false]
    exact siftDown_form _ _ _ h0 (by simp; omega) (setHeap_form _ h0 h)

end Sys2Proof.Machine
end

