-- ==== Sys2Proof/Laws/Builder.lean ====
section
/-! SUPPORT. What BUILD's loops change and how far they count (42_tree_builder.md R117, R118, R121). -/

namespace Sys2Proof.Machine

/-- From `s` to `t` at most NODE, HEAP and HEAP_SIZE changed. -/
def OnlyArena (s t : State) : Prop := t = { s with node := t.node, heap := t.heap, heapSize := t.heapSize }

namespace OnlyArena

variable {s t u : State}

theorem refl (s : State) : OnlyArena s s := rfl

theorem trans (h1 : OnlyArena s t) (h2 : OnlyArena t u) : OnlyArena s u := by
  unfold OnlyArena at *
  exact h2.trans (by rw [h1])

theorem setNode (s : State) (id : Nat) (n : Node) : OnlyArena s (setNode s id n) := rfl

theorem pqInsert (id : Nat) (s : State) : OnlyArena s (pqInsert id s) := by
  have h := pqInsert_eq id s
  unfold OnlyArena
  generalize Machine.pqInsert id s = t at h
  rw [h]

theorem pqRemoveRoot (s : State) : OnlyArena s (pqRemoveRoot s) := by
  have h := pqRemoveRoot_eq s
  unfold OnlyArena
  generalize Machine.pqRemoveRoot s = t at h
  rw [h]

theorem cfg (h : OnlyArena s t) : t.cfg = s.cfg := by rw [h]

theorem epoch (h : OnlyArena s t) : t.epoch = s.epoch := by rw [h]

theorem freq (h : OnlyArena s t) : t.freq = s.freq := by rw [h]

theorem freqAt (h : OnlyArena s t) : t.freqAt = s.freqAt := freqAt_congr s h.cfg h.epoch h.freq

end OnlyArena

/-! ## The leaf loop -/

theorem addLeaves_only : ∀ (syms : List Nat) (k : Nat) (s : State), OnlyArena s (addLeaves syms k s).2
  | [], _, s => .refl s
  | sym :: syms, k, s => by
    unfold addLeaves
    split
    · exact addLeaves_only syms k s
    · exact ((OnlyArena.setNode s _ _).trans (.pqInsert _ _)).trans (addLeaves_only syms (k + 1) _)

/-- The ids count the present symbols. -/
theorem addLeaves_nextId : ∀ (syms : List Nat) (k : Nat) (s : State),
    (addLeaves syms k s).1 = k + syms.countP (fun sym => decide (s.freqAt sym ≠ 0))
  | [], _, _ => rfl
  | sym :: syms, k, s => by
    unfold addLeaves
    split
    · next h => rw [addLeaves_nextId]; simp [h]
    · next h => rw [addLeaves_nextId]; simp [h]; omega

/-- The queue grows with the ids. -/
theorem addLeaves_heapSize : ∀ (syms : List Nat) (k : Nat) (s : State),
    (addLeaves syms k s).2.heapSize = s.heapSize + syms.countP (fun sym => decide (s.freqAt sym ≠ 0))
  | [], _, _ => rfl
  | sym :: syms, k, s => by
    unfold addLeaves
    split
    · next h => rw [addLeaves_heapSize]; simp [h]
    · next h => rw [addLeaves_heapSize]; simp [h]; omega

/-! ## The merge loop -/

theorem mergeOnce_only (k : Nat) (s : State) : OnlyArena s (mergeOnce k s) :=
  (((OnlyArena.pqRemoveRoot s).trans (.pqRemoveRoot _)).trans (.setNode _ _ _)).trans (.pqInsert _ _)

/-- A merge takes two entries off the queue and adds one. -/
@[simp] theorem mergeOnce_heapSize (k : Nat) (s : State) : (mergeOnce k s).heapSize = s.heapSize - 1 - 1 + 1 := by
  simp [mergeOnce, pqExtract]

theorem mergeAll_only : ∀ (fuel k : Nat) (s : State), OnlyArena s (mergeAll fuel k s).2
  | 0, _, s => .refl s
  | fuel + 1, k, s => by
    unfold mergeAll
    split
    · exact (mergeOnce_only k s).trans (mergeAll_only fuel (k + 1) _)
    · exact .refl s

/-- With HEAP_SIZE turns or more, HEAP_SIZE - 1 merges run and one entry is left. -/
theorem mergeAll_counts : ∀ (fuel k : Nat) (s : State), s.heapSize ≤ fuel → 1 ≤ s.heapSize →
    (mergeAll fuel k s).1 = k + (s.heapSize - 1) ∧ (mergeAll fuel k s).2.heapSize = 1
  | 0, k, s, h, h1 => by omega
  | fuel + 1, k, s, h, h1 => by
    unfold mergeAll
    by_cases hs : 1 < s.heapSize
    · rw [if_pos hs]
      obtain ⟨ha, hb⟩ := mergeAll_counts fuel (k + 1) (mergeOnce k s) (by simp; omega) (by simp)
      refine ⟨?_, hb⟩
      rw [ha, mergeOnce_heapSize]; omega
    · rw [if_neg hs]; exact ⟨by simp; omega, by simp; omega⟩

/-! ## The whole of BUILD -/

theorem present_eq (s : State) :
    s.present = (List.range s.cfg.nsym).countP (fun sym => decide (s.freqAt sym ≠ 0)) := by
  simp [State.present, State.freqs, List.countP_map, Function.comp_def]

theorem present_le (s : State) : s.present ≤ s.cfg.nsym := by
  rw [present_eq]
  exact le_trans List.countP_le_length (by simp)

theorem leafPhase_only (s : State) : OnlyArena s (leafPhase s).2 :=
  OnlyArena.trans (t := { s with heapSize := 0 }) rfl (addLeaves_only _ _ _)

/-- The leaf loop makes ids 0..n-1 and queues them all. -/
theorem leafPhase_counts (s : State) : (leafPhase s).1 = s.present ∧ (leafPhase s).2.heapSize = s.present := by
  have hf : ({ s with heapSize := 0 } : State).freqAt = s.freqAt := rfl
  unfold leafPhase
  rw [addLeaves_nextId, addLeaves_heapSize, present_eq, hf]
  simp

theorem mergePhase_only (s : State) : OnlyArena s (mergePhase s).2 := (leafPhase_only s).trans (mergeAll_only _ _ _)

/-- With n leaves, n-1 merges leave 2n-1 nodes and one entry in the queue. -/
theorem mergePhase_counts (s : State) (h : s.present ≠ 0) :
    (mergePhase s).1 = 2 * s.present - 1 ∧ (mergePhase s).2.heapSize = 1 := by
  obtain ⟨h1, h2⟩ := leafPhase_counts s
  have := mergeAll_counts (leafPhase s).2.heapSize (leafPhase s).1 (leafPhase s).2 (by omega) (by omega)
  unfold mergePhase
  refine ⟨?_, this.2⟩
  rw [this.1]; omega

/-- After BUILD the queue is empty (R120). -/
theorem buildTree_heapSize (s : State) (h : s.present ≠ 0) : (buildTree s).heapSize = 0 := by
  simp [buildTree, pqExtract, (mergePhase_counts s h).2]

/-- BUILD changes no register and no memory but NODE, HEAP, HEAP_SIZE, ROOT, LEAF_COUNT, NODE_COUNT and
TREE_VALID. -/
theorem buildTree_frame (s : State) (h : s.present ≠ 0) :
    buildTree s =
      { s with
        node := (buildTree s).node
        heap := (buildTree s).heap
        heapSize := 0
        root := (buildTree s).root
        leafCount := s.present
        nodeCount := 2 * s.present - 1
        status := { s.status with treeValid := true } } := by
  have hz := buildTree_heapSize s h
  have ho := (mergePhase_only s).trans (.pqRemoveRoot _)
  unfold buildTree pqExtract at hz ⊢
  simp only [(mergePhase_counts s h).1] at hz ⊢
  generalize pqRemoveRoot (mergePhase s).2 = t at ho hz ⊢
  rw [ho]
  simp [hz]

end Sys2Proof.Machine
end

