-- ==== Sys2Proof/Laws/Bus.lean ====
section
/-! SUPPORT. What a host access can do (20_memory.md R77, R78; 40_command_cycle.md R105, R106). -/

namespace Sys2Proof.Machine

/-- A read changes nothing but the replies and the count of draws (20_memory.md R77). -/
theorem hostRead_eq (addr off : Nat) (s : State) :
    hostRead addr off s = { s with replies := (hostRead addr off s).replies, draws := (hostRead addr off s).draws } := by
  unfold hostRead
  simp only
  split <;> rfl

/-- A write of STATUS changes DONE and OVERRUN only. -/
theorem writeStatus_eq (v : Nat) (s : State) :
    writeStatus v s =
      { s with status := { s.status with
        done := s.status.done && !bitOf v 1
        overrun := s.status.overrun && !bitOf v 4 } } := by
  unfold writeStatus
  cases bitOf v 1 <;> cases bitOf v 4 <;> simp [acknowledge, clearOverrun]

/-- Everything an admitted access can do. -/
theorem hostAccess_cases (a : Access) (s : State) :
    (∃ r, hostAccess a s = .refused r) ∨
    (∃ addr off, a = .read addr 4 ∧ admission s addr 4 = .ok off ∧ hostAccess a s = .next (hostRead addr off s)) ∨
    (∃ addr off v, a = .write addr 4 v ∧ admission s addr 4 = .ok off ∧ hostAccess a s = .next (hostWrite off v s)) := by
  have h4 : ∀ {addr bytes off : Nat}, admission s addr bytes = .ok off → bytes = 4 := by
    intro addr bytes off h
    unfold admission at h
    split at h
    · simp at h
    · split at h
      · simp at h
      · split at h
        · simp at h
        · next h' => omega
  cases a with
  | read addr bytes =>
    cases had : admission s addr bytes with
    | error r => exact .inl ⟨r, by simp [hostAccess, had]⟩
    | ok off =>
      obtain rfl := h4 had
      exact .inr (.inl ⟨addr, off, rfl, had, by simp [hostAccess, had]⟩)
  | write addr bytes v =>
    cases had : admission s addr bytes with
    | error r => exact .inl ⟨r, by simp [hostAccess, had]⟩
    | ok off =>
      obtain rfl := h4 had
      exact .inr (.inr ⟨addr, off, v, rfl, had, by simp [hostAccess, had]⟩)

/-- An admitted access is in the window, at a multiple of 4, outside reset (20_memory.md R75). -/
theorem admission_ok {s : State} {addr off : Nat} (h : admission s addr 4 = .ok off) :
    s.inReset = false ∧ addr = s.cfg.base + off ∧ off < Config.windowSize ∧ off % 4 = 0 := by
  unfold admission at h
  split at h
  · simp at h
  · next hr =>
    split at h
    · simp at h
    · split at h
      · simp at h
      · simp only [Except.ok.injEq] at h
        subst h
        refine ⟨by simpa using hr, ?_, ?_, ?_⟩ <;> omega

theorem within_eq {ok : Bool} {p q : Place} (h : within ok p = q) (hq : q ≠ .nothing) : ok = true ∧ q = p := by
  cases ok
  · exact absurd h.symm hq
  · exact ⟨rfl, h.symm⟩

/-! ## The address map, inverted -/

theorem locate_reg (c : Config) (off : Nat) (r : Reg) (h : regAt off = some r) : locate c off = .reg r := by
  have : off < 0x01000 := by
    by_contra hge
    have hge' : 0x03C < off := by omega
    unfold regAt at h
    split at h <;> first | omega | simp at h
  simp [locate, this, h]

theorem locate_freq {c : Config} (h : c.Legal) {sym : Nat} (hs : sym < c.nsym) :
    locate c (freqAddr sym) = .freq sym := by
  have := Config.nsym_le h
  unfold locate freqAddr
  repeat rw [if_neg (by omega)]
  rw [if_pos (by omega), show (0x01000 + 4 * sym - 0x01000) / 4 = sym by omega]
  simp [within, hs]

theorem locate_node {c : Config} (h : c.Legal) {id j : Nat} (hi : id < c.nodeMax) (hj : j < 4) :
    locate c (nodeAddr id + 4 * j) = .node id j := by
  have := Config.nodeMax_le h
  unfold locate nodeAddr
  repeat rw [if_neg (by omega)]
  rw [if_pos (by omega), show (0x02000 + 16 * id + 4 * j - 0x02000) / 16 = id by omega,
    show (0x02000 + 16 * id + 4 * j - 0x02000) % 16 / 4 = j by omega]
  simp [within, hi]

theorem locate_heap {c : Config} (h : c.Legal) {i : Nat} (hi : i < c.heapMax) : locate c (heapAddr i) = .heap i := by
  have := Config.nsym_le h
  have hi' : i < c.nsym := hi
  unfold locate heapAddr
  repeat rw [if_neg (by omega)]
  rw [if_pos (by omega), show (0x04000 + 4 * i - 0x04000) / 4 = i by omega]
  simp [within, hi]

theorem locate_code {c : Config} (h : c.Legal) {sym j : Nat} (hs : sym < c.nsym) (hj : j < 16) :
    locate c (codeAddr sym + 4 * j) = .code sym j := by
  have := Config.nsym_le h
  unfold locate codeAddr
  repeat rw [if_neg (by omega)]
  rw [if_pos (by omega), show (0x08000 + 64 * sym + 4 * j - 0x08000) / 64 = sym by omega,
    show (0x08000 + 64 * sym + 4 * j - 0x08000) % 64 / 4 = j by omega]
  simp [within, hs]

theorem locate_bits {c : Config} (h : c.Legal) {w : Nat} (hw : w < c.bitsMax / 32) :
    locate c (bitsAddr w) = .bits w := by
  have := h.2.2.2.2.2.1
  unfold locate bitsAddr
  repeat rw [if_neg (by omega)]
  rw [if_pos (by omega), show (0x10000 + 4 * w - 0x10000) / 4 = w by omega]
  simp [within, hw]

theorem locate_out {c : Config} (h : c.Legal) {k : Nat} (hk : k < c.outMax) : locate c (outAddr k) = .out k := by
  have := h.2.2.2.2.2.1
  have hk' : k < c.bitsMax := hk
  unfold locate outAddr
  repeat rw [if_neg (by omega)]
  rw [if_pos (by omega), show (0x40000 + 4 * k - 0x40000) / 4 = k by omega]
  simp [within, hk]

/-- What a located place says of its indices. -/
theorem locate_eq_freq {c : Config} {off sym : Nat} (h : locate c off = .freq sym) : sym < c.nsym := by
  unfold locate at h
  split at h
  · split at h <;> simp at h
  · unfold within at h
    split_ifs at h; simp_all

theorem locate_eq_node {c : Config} {off id j : Nat} (h : locate c off = .node id j) : id < c.nodeMax ∧ j < 4 := by
  unfold locate at h
  split at h
  · split at h <;> simp at h
  · unfold within at h
    split_ifs at h; simp_all; omega

theorem locate_eq_bits {c : Config} {off w : Nat} (h : locate c off = .bits w) : w < c.bitsMax / 32 := by
  unfold locate at h
  split at h
  · split at h <;> simp at h
  · unfold within at h
    split_ifs at h; simp_all

/-! ## The canonical form of the host-written memories -/

theorem setFreq_form {s : State} {n sym : Nat} (v : Nat) (hs : sym < n)
    (h : s.freq.wf ∧ s.freq.inRange (freqAddr 0) (freqAddr n)) :
    (setFreq s sym v).freq.wf ∧ (setFreq s sym v).freq.inRange (freqAddr 0) (freqAddr n) := by
  refine ⟨storeWord_wf h.1 _ _, fun c hc => ?_⟩
  rcases mem_store hc with hc | hc
  · exact h.2 c hc
  · simp only [leBytes_length, freqAddr] at hc ⊢; omega

theorem setNodeWord_form {s : State} {n id j : Nat} (v : Nat) (hi : id < n) (hj : j < 4)
    (h : s.node.wf ∧ s.node.inRange (nodeAddr 0) (nodeAddr n)) :
    (setNodeWord s id j v).node.wf ∧ (setNodeWord s id j v).node.inRange (nodeAddr 0) (nodeAddr n) := by
  refine ⟨storeWord_wf h.1 _ _, fun c hc => ?_⟩
  rcases mem_store hc with hc | hc
  · exact h.2 c hc
  · simp only [leBytes_length, nodeAddr] at hc ⊢; omega

theorem setNode_form {s : State} {n id : Nat} (d : Node) (hi : id < n)
    (h : s.node.wf ∧ s.node.inRange (nodeAddr 0) (nodeAddr n)) :
    (setNode s id d).node.wf ∧ (setNode s id d).node.inRange (nodeAddr 0) (nodeAddr n) :=
  setNodeWord_form _ hi (by omega) (setNodeWord_form _ hi (by omega) (setNodeWord_form _ hi (by omega)
    (setNodeWord_form _ hi (by omega) h)))

theorem setBits_form {s : State} {n w : Nat} (v : Nat) (hw : w < n)
    (h : s.bits.wf ∧ s.bits.inRange (bitsAddr 0) (bitsAddr n)) :
    (setBits s w v).bits.wf ∧ (setBits s w v).bits.inRange (bitsAddr 0) (bitsAddr n) := by
  refine ⟨storeWord_wf h.1 _ _, fun c hc => ?_⟩
  rcases mem_store hc with hc | hc
  · exact h.2 c hc
  · simp only [leBytes_length, bitsAddr] at hc ⊢; omega

end Sys2Proof.Machine
end

