-- ==== Sys2Proof/Laws/Codes.lean ====
section
/-! SUPPORT. What GENCODES changes and keeps (43_code_generator.md R128, R131). -/

namespace Sys2Proof.Machine

/-- The walk changes CODE only. -/
theorem walkTree_eq : ∀ {fuel : Nat} {stack : List StackItem} {s t : State},
    walkTree fuel stack s = some t → t = { s with code := t.code }
  | _, [], s, t, h => by
    simp only [walkTree, Option.some.injEq] at h
    subst h; rfl
  | 0, _ :: _, _, _, h => by simp [walkTree] at h
  | fuel + 1, x :: stack, s, t, h => by
    simp only [walkTree] at h
    split at h
    · rw [walkTree_eq h]; simp [setCode]
    · exact walkTree_eq h

/-- The table generation changes CODE only. -/
theorem generateCodes_eq {s t : State} (h : generateCodes s = some t) : t = { s with code := t.code } := by
  simp only [generateCodes] at h
  split at h
  · simp only [Option.some.injEq] at h
    subst h; rfl
  · rw [walkTree_eq h]; simp [clearCodes]

/-- More turns than the walk needs change nothing. -/
theorem walkTree_mono : ∀ {fuel : Nat} {stack : List StackItem} {s t : State} (k : Nat),
    walkTree fuel stack s = some t → walkTree (fuel + k) stack s = some t
  | _, [], s, t, k, h => by
    simp only [walkTree, Option.some.injEq] at h ⊢
    exact h
  | 0, _ :: _, _, _, _, h => by simp [walkTree] at h
  | fuel + 1, x :: stack, s, t, k, h => by
    rw [show fuel + 1 + k = fuel + k + 1 by omega]
    simp only [walkTree] at h ⊢
    split
    · next hl => rw [if_pos hl] at h; exact walkTree_mono k h
    · next hl => rw [if_neg hl] at h; exact walkTree_mono k h

/-- A write of a CODE entry within `n` keeps the form of the memory. -/
theorem setCode_form {s : State} {n sym : Nat} (e : CodeEntry) (hs : sym < n)
    (h : s.code.wf ∧ s.code.inRange (codeAddr 0) (codeAddr n)) :
    (setCode s sym e).code.wf ∧ (setCode s sym e).code.inRange (codeAddr 0) (codeAddr n) := by
  refine ⟨store_wf (storeWord_wf h.1 _ _) _ _, fun c hc => ?_⟩
  rcases mem_store hc with hc | hc
  · rcases mem_store hc with hc | hc
    · exact h.2 c hc
    · simp only [leBytes_length, codeAddr] at hc ⊢; omega
  · simp only [leBytes_length, codeAddr] at hc ⊢; omega

theorem clearCodes_form (s : State) :
    (clearCodes s).code.wf ∧ (clearCodes s).code.inRange (codeAddr 0) (codeAddr s.cfg.nsym) := by
  refine ⟨clearedCode_wf _, fun c hc => ?_⟩
  obtain ⟨x, hx, hcx⟩ := List.mem_flatMap.1 hc
  have h1 := cellsAt_range hcx
  have hx' := List.mem_range.1 hx
  simp only [List.length_replicate, codeAddr] at h1 ⊢
  omega

theorem walkTree_form {n : Nat} : ∀ {fuel : Nat} {stack : List StackItem} {s t : State},
    walkTree fuel stack s = some t → s.cfg.nsym = n →
    s.code.wf ∧ s.code.inRange (codeAddr 0) (codeAddr n) → t.code.wf ∧ t.code.inRange (codeAddr 0) (codeAddr n)
  | _, [], s, t, h, _, hf => by
    simp only [walkTree, Option.some.injEq] at h
    subst h; exact hf
  | 0, _ :: _, _, _, h, _, _ => by simp [walkTree] at h
  | fuel + 1, x :: stack, s, t, h, hn, hf => by
    simp only [walkTree] at h
    split at h
    · exact walkTree_form h hn (setCode_form _ (hn ▸ nodeAt_sym_lt s x.id) hf)
    · exact walkTree_form h hn hf

theorem generateCodes_form {s t : State} (h : generateCodes s = some t) :
    t.code.wf ∧ t.code.inRange (codeAddr 0) (codeAddr s.cfg.nsym) := by
  simp only [generateCodes] at h
  split at h
  · simp only [Option.some.injEq] at h
    subst h
    exact setCode_form _ (nodeAt_sym_lt (clearCodes s) s.root) (clearCodes_form s)
  · exact walkTree_form h rfl (clearCodes_form s)

/-- Everything GENCODES can do (R128, R131). -/
theorem execGenCodes_cases (s : State) :
    (s.status.treeValid = false ∧ execGenCodes s = .next (raise .noTree 0 s)) ∨
    (s.status.treeValid = true ∧ ∃ t, generateCodes s = some t ∧
      execGenCodes s = .next (succeed (setCodesValid t))) ∨
    (s.status.treeValid = true ∧ generateCodes s = none ∧ execGenCodes s = .fault .traversalEndless) := by
  unfold execGenCodes
  cases hv : s.status.treeValid with
  | false => simp
  | true =>
    cases hg : generateCodes s with
    | none => simp
    | some t => simp

end Sys2Proof.Machine
end

