-- ==== Sys2Proof/Laws/Decoder.lean ====
section
/-! SUPPORT. What DECODE changes and keeps (44_decoder.md R134, R140, R141). -/

namespace Sys2Proof.Machine

/-- Everything a DECODE can end with, told from the state `s` it began in: OUT changed, BIT_IDX and OUT_COUNT written,
and a completion. A failure exposes no result, and each symbol consumed a bit. -/
structure DecodeEnds (s t : State) : Prop where
  frame : t = { s with out := t.out, bitIdx := t.bitIdx, outCount := t.outCount, status := t.status, errInfo := t.errInfo }
  flags : t.status = { s.status with busy := false, done := true, err := t.status.err }
  error : (t.status.err = .ok ∧ t.errInfo = 0) ∨
    ((t.status.err = .badOperand ∨ t.status.err = .malformedEncoding ∨ t.status.err = .truncatedEncoding) ∧
      t.outCount = 0)

theorem decodeFail_ends (s : State) {e : ErrCode} (info b : Nat)
    (he : e = .badOperand ∨ e = .malformedEncoding ∨ e = .truncatedEncoding) : DecodeEnds s (decodeFail e info b s) where
  frame := rfl
  flags := rfl
  error := .inr ⟨he, rfl⟩

theorem decodeDone_ends (s : State) (b k : Nat) : DecodeEnds s (decodeDone b k s) where
  frame := rfl
  flags := rfl
  error := .inl ⟨rfl, rfl⟩

theorem DecodeEnds.of_setOut {s t : State} {k sym : Nat} (h : DecodeEnds (setOut s k sym) t) : DecodeEnds s t where
  frame := by rw [h.frame]; rfl
  flags := h.flags
  error := h.error

theorem decodeSingle_ends (r : Nat) : ∀ (n i k : Nat) (s : State), DecodeEnds s (decodeSingle r n i k s)
  | 0, i, k, s => decodeDone_ends s i k
  | n + 1, i, k, s => by
    unfold decodeSingle
    split
    · exact decodeFail_ends s i i (by simp)
    · exact (decodeSingle_ends r n (i + 1) (k + 1) _).of_setOut

theorem decodeWalk_ends (r : Nat) : ∀ (n i k cur start : Nat) (s : State),
    DecodeEnds s (decodeWalk r n i k cur start s)
  | 0, i, k, cur, start, s => by
    unfold decodeWalk
    split
    · exact decodeDone_ends s i k
    · exact decodeFail_ends s start i (by simp)
  | n + 1, i, k, cur, start, s => by
    unfold decodeWalk
    simp only
    split
    · exact decodeFail_ends s i i (by simp)
    · split
      · exact (decodeWalk_ends r n (i + 1) (k + 1) r (i + 1) _).of_setOut
      · exact decodeWalk_ends r n (i + 1) k _ start s

theorem decodeBody_ends (s : State) : DecodeEnds s (decodeBody s) := by
  unfold decodeBody
  split
  · exact decodeFail_ends s _ 0 (by simp)
  · split
    · exact decodeFail_ends s _ 0 (by simp)
    · split
      · exact decodeSingle_ends _ _ _ _ s
      · exact decodeWalk_ends _ _ _ _ _ _ s

/-! ## Bounds and the canonical form of OUT -/

theorem setOut_form {s : State} {n k : Nat} (sym : Nat) (hk : k < n)
    (h : s.out.wf ∧ s.out.inRange (outAddr 0) (outAddr n)) :
    (setOut s k sym).out.wf ∧ (setOut s k sym).out.inRange (outAddr 0) (outAddr n) := by
  refine ⟨storeWord_wf h.1 _ _, fun c hc => ?_⟩
  rcases mem_store hc with hc | hc
  · exact h.2 c hc
  · simp only [leBytes_length, outAddr] at hc ⊢; omega

/-- What the loops keep, `b` being the end of the bits: OUT in form, BIT_IDX at most `b`, OUT_COUNT at most BIT_IDX. -/
structure DecodeBound (b : Nat) (t : State) : Prop where
  out : t.out.wf ∧ t.out.inRange (outAddr 0) (outAddr b)
  bitIdx : t.bitIdx ≤ b
  outCount : t.outCount ≤ t.bitIdx

theorem decodeSingle_bound (r b : Nat) : ∀ (n i k : Nat) (s : State), i + n = b → k ≤ i →
    s.out.wf ∧ s.out.inRange (outAddr 0) (outAddr b) → DecodeBound b (decodeSingle r n i k s)
  | 0, i, k, s, hb, hk, h => ⟨h, by simp [decodeSingle, decodeDone]; omega, by simp [decodeSingle, decodeDone, hk]⟩
  | n + 1, i, k, s, hb, hk, h => by
    unfold decodeSingle
    split
    · exact ⟨h, by simp [decodeFail]; omega, by simp [decodeFail]⟩
    · exact decodeSingle_bound r b n (i + 1) (k + 1) _ (by omega) (by omega) (setOut_form _ (by omega) h)

theorem decodeWalk_bound (r b : Nat) : ∀ (n i k cur start : Nat) (s : State), i + n = b → k ≤ i →
    s.out.wf ∧ s.out.inRange (outAddr 0) (outAddr b) → DecodeBound b (decodeWalk r n i k cur start s)
  | 0, i, k, cur, start, s, hb, hk, h => by
    unfold decodeWalk
    split
    · exact ⟨h, by simp [decodeDone]; omega, by simp [decodeDone, hk]⟩
    · exact ⟨h, by simp [decodeFail]; omega, by simp [decodeFail]⟩
  | n + 1, i, k, cur, start, s, hb, hk, h => by
    unfold decodeWalk
    simp only
    split
    · exact ⟨h, by simp [decodeFail]; omega, by simp [decodeFail]⟩
    · split
      · exact decodeWalk_bound r b n (i + 1) (k + 1) _ _ _ (by omega) (by omega) (setOut_form _ (by omega) h)
      · exact decodeWalk_bound r b n (i + 1) k _ _ _ (by omega) (by omega) h

/-! ## Which part of OUT a DECODE writes (44_decoder.md R140, 70_reset_and_hazards.md R164) -/

/-- From bit `i` and symbol count `k`, with `n` bits left, the loop wrote OUT[k..k'-1] and nothing else; `k'` is
OUT_COUNT after a success, and each symbol consumed a bit. -/
def DecodeWrites (i n k : Nat) (s t : State) : Prop :=
  ∃ k', k ≤ k' ∧ k' + i ≤ k + t.bitIdx ∧ t.bitIdx ≤ i + n ∧ (t.status.err = .ok → t.outCount = k') ∧
    ∀ off, off < outAddr k ∨ outAddr k' ≤ off → t.memByte off = s.memByte off

theorem decodeFail_writes {e : ErrCode} (he : e ≠ .ok) (info i n k : Nat) (s : State) :
    DecodeWrites i n k s (decodeFail e info i s) :=
  ⟨k, le_refl k, le_refl _, Nat.le_add_right i n, fun h => absurd h he, fun _ _ => rfl⟩

theorem decodeDone_writes (i n k : Nat) (s : State) : DecodeWrites i n k s (decodeDone i k s) :=
  ⟨k, le_refl k, le_refl _, Nat.le_add_right i n, fun _ => rfl, fun _ _ => rfl⟩

theorem DecodeWrites.of_setOut {i n k sym : Nat} {s t : State}
    (h : DecodeWrites (i + 1) n (k + 1) (setOut s k sym) t) : DecodeWrites i (n + 1) k s t := by
  obtain ⟨k', h1, h2, h3, h4, h5⟩ := h
  refine ⟨k', by omega, by omega, by omega, h4, fun off ho => ?_⟩
  simp only [outAddr] at ho h5
  rw [h5 off (by omega), memByte_setOut]
  simp only [outAddr]; omega

/-- A bit that emits nothing. -/
theorem DecodeWrites.of_bit {i n k : Nat} {s t : State} (h : DecodeWrites (i + 1) n k s t) :
    DecodeWrites i (n + 1) k s t := by
  obtain ⟨k', h1, h2, h3, h4, h5⟩ := h
  exact ⟨k', h1, by omega, by omega, h4, h5⟩

theorem decodeSingle_writes (r : Nat) : ∀ (n i k : Nat) (s : State), DecodeWrites i n k s (decodeSingle r n i k s)
  | 0, i, k, s => decodeDone_writes i 0 k s
  | n + 1, i, k, s => by
    unfold decodeSingle
    split
    · exact decodeFail_writes (by decide) i i _ k s
    · exact (decodeSingle_writes r n (i + 1) (k + 1) _).of_setOut

theorem decodeWalk_writes (r : Nat) : ∀ (n i k cur start : Nat) (s : State),
    DecodeWrites i n k s (decodeWalk r n i k cur start s)
  | 0, i, k, cur, start, s => by
    unfold decodeWalk
    split
    · exact decodeDone_writes i 0 k s
    · exact decodeFail_writes (by decide) start i _ k s
  | n + 1, i, k, cur, start, s => by
    unfold decodeWalk
    simp only
    split
    · exact decodeFail_writes (by decide) i i _ k s
    · split
      · exact (decodeWalk_writes r n (i + 1) (k + 1) r (i + 1) _).of_setOut
      · exact (decodeWalk_writes r n (i + 1) k _ start s).of_bit

/-- What a whole DECODE wrote. -/
theorem decodeBody_writes (s : State) : DecodeWrites 0 s.bitLen 0 s (decodeBody s) := by
  unfold decodeBody
  split
  · exact decodeFail_writes (by decide) _ 0 _ 0 s
  · split
    · exact decodeFail_writes (by decide) _ 0 _ 0 s
    · split
      · exact decodeSingle_writes _ _ _ _ s
      · exact decodeWalk_writes _ _ _ _ _ _ s

end Sys2Proof.Machine
end

