-- ==== Sys2Proof/Laws/PerInstr.lean ====
section
/-! SUPPORT. What is said of each command as syntax, one lemma per constructor. -/

namespace Sys2Proof.Laws.TableRow

/-- The mask of the command's row of the opcode table (30_encoding.md R93). -/
def mask : Instr → Nat
  | .nop => 0xFFFFFFFF
  | .build => 0xFFFFFFFF
  | .genCodes => 0xFFFFFFFF
  | .decode => 0xFFFFFFFF
  | .pqClear => 0xFFFFFFFF
  | .pqInsert _ => 0x0000FFFF
  | .pqExtract => 0xFFFFFFFF

/-- The match column of the command's row (R93). -/
def pattern : Instr → Nat
  | .nop => 0x00000000
  | .build => 0x00000001
  | .genCodes => 0x00000002
  | .decode => 0x00000003
  | .pqClear => 0x00000004
  | .pqInsert _ => 0x00000005
  | .pqExtract => 0x00000006

/-- The word of a well-formed command matches the command's row: `(word AND mask) = match` (R93). -/
def Statement (i : Instr) : Prop :=
  i.wellFormed = true → (encode i).toNat &&& mask i = pattern i

theorem nop : Statement .nop := fun _ => by decide

theorem build : Statement .build := fun _ => by decide

theorem genCodes : Statement .genCodes := fun _ => by decide

theorem decode : Statement .decode := fun _ => by decide

theorem pqClear : Statement .pqClear := fun _ => by decide

theorem pqInsert (id : Nat) : Statement (.pqInsert id) := by
  intro h
  simp only [Instr.wellFormed, decide_eq_true_eq] at h
  show (BitVec.ofNat 32 (id * 2 ^ 16 + 5)).toNat &&& (2 ^ 16 - 1) = 5
  rw [Nat.and_two_pow_sub_one_eq_mod, BitVec.toNat_ofNat]
  omega

theorem pqExtract : Statement .pqExtract := fun _ => by decide

end Sys2Proof.Laws.TableRow
end

