-- ==== Sys2Proof/Laws/Step.lean ====
section
/-! SUPPORT. What a step can do: its cases, and the cases of the commands' meanings. -/

namespace Sys2Proof.Machine

/-- Everything an engine turn can do (40_command_cycle.md R100, 30_encoding.md R94). -/
theorem engineTurn_cases (run : Instr → State → Host.Outcome State Fault Refusal) (s : State) :
    (s.status.busy = false ∧ engineTurn run s = .next s) ∨
    (s.status.busy = true ∧ ∃ i, decodeCmd s.cmdlat = .ok i ∧ engineTurn run s = run i s) ∨
    (s.status.busy = true ∧ ∃ e, decodeCmd s.cmdlat = .error e ∧
      engineTurn run s = .next (complete .illegalCommand s.cmdlat s)) := by
  unfold engineTurn
  cases hb : s.status.busy with
  | false => simp
  | true => cases hd : decodeCmd s.cmdlat <;> simp

/-- Everything a step can do: the engine's turn, or the script's first event. -/
theorem step_cases (s : State) :
    (s.script = [] ∧ step s = engineTurn exec s) ∨
    (∃ rest, s.script = .engine :: rest ∧ step s = engineTurn exec { s with script := rest }) ∨
    (∃ a rest, s.script = .host a :: rest ∧ step s = hostAccess a { s with script := rest }) ∨
    (∃ rest, s.script = .assertReset :: rest ∧ step s = .next (assertReset { s with script := rest })) ∨
    (∃ rest, s.script = .releaseReset :: rest ∧ step s = .next (releaseReset { s with script := rest })) := by
  unfold step turn
  cases hs : s.script with
  | nil => simp
  | cons e rest => cases e <;> simp [takeEvent]

/-- Everything BUILD can do (42_tree_builder.md R117, R121). -/
theorem execBuild_cases (s : State) :
    (s.present = 0 ∧ execBuild s = .next (raise .emptyInput 0 (clearValid s))) ∨
    (s.present ≠ 0 ∧ ∃ sym, firstOverflow (2 ^ s.cfg.weightW) s.freqs 0 0 = some sym ∧
      execBuild s = .next (raise .weightOverflow sym (clearValid s))) ∨
    (s.present ≠ 0 ∧ firstOverflow (2 ^ s.cfg.weightW) s.freqs 0 0 = none ∧
      execBuild s = .next (succeed (buildTree (clearValid s)))) := by
  have hp : (clearValid s).present = s.present := rfl
  have hf : (clearValid s).freqs = s.freqs := rfl
  unfold execBuild
  simp only [hp, hf, clearValid_cfg]
  by_cases h : s.present = 0
  · simp [h]
  · cases ho : firstOverflow (2 ^ s.cfg.weightW) s.freqs 0 0 <;> simp [h]

/-- Everything PQ_INSERT can do (41_priority_queue.md R115). -/
theorem execPqInsert_cases (id : Nat) (s : State) :
    (s.cfg.nodeMax ≤ id ∧ execPqInsert id s = .next (raise .badOperand id s)) ∨
    (id < s.cfg.nodeMax ∧ s.heapSize = s.cfg.heapMax ∧ execPqInsert id s = .next (raise .heapFull 0 s)) ∨
    (id < s.cfg.nodeMax ∧ s.heapSize ≠ s.cfg.heapMax ∧ execPqInsert id s = .next (succeed (pqInsert id s))) := by
  unfold execPqInsert
  by_cases h : s.cfg.nodeMax ≤ id
  · simp [h]
  · have h' : id < s.cfg.nodeMax := by omega
    by_cases hf : s.heapSize = s.cfg.heapMax <;> simp [h', hf]

/-- Everything PQ_EXTRACT can do (41_priority_queue.md R116). -/
theorem execPqExtract_cases (s : State) :
    (s.heapSize = 0 ∧ execPqExtract s = .next (raise .emptyQueue 0 { s with pqResult := s.cfg.nil })) ∨
    (0 < s.heapSize ∧
      execPqExtract s = .next (succeed { pqRemoveRoot s with pqResult := s.heapAt 0 })) := by
  unfold execPqExtract pqExtract
  by_cases h : s.heapSize = 0
  · simp [h]
  · exact .inr ⟨by omega, by simp [h]⟩

end Sys2Proof.Machine
end

