-- ==== Sys2Proof/Tests/Slice0.lean ====
section
/-! SUPPORT. The model's own tests: ill-formed terms refused, words decoded, each command on a small state, and for
each statement with hypotheses a state that meets them. Expected values come from 95_test_vectors.md, whose symbols
'a', 'b', .. are 0, 1, .. here because the test instances are small. -/

namespace Sys2Proof.Tests

set_option Elab.async false

open Sys2Proof.Machine

/-! ## WellFormed and Config refuse what they should -/

theorem test_wellFormed_refuses_wide_id : (Instr.pqInsert 65536).wellFormed = false := by decide

theorem test_wellFormed_accepts_largest_id : (Instr.pqInsert 65535).wellFormed = true := by decide

theorem test_legal_refuses_symW_9 : ¬ (Config.mk 9 32 65536 0).Legal := by decide

theorem test_legal_refuses_weightW_0 : ¬ (Config.mk 8 0 65536 0).Legal := by decide

theorem test_legal_refuses_bitsMax_33 : ¬ (Config.mk 8 32 33 0).Legal := by decide

theorem test_legal_refuses_base_4 : ¬ (Config.mk 8 32 65536 4).Legal := by decide

/-- 00_scope.md R12 at the defaults: NSYM 256, NODE_MAX 511, ID_W 9, NIL 0x1FF, HEAP_MAX 256, MAX_CODE_LEN 255. -/
theorem test_standard_sizes : Config.standard.Legal ∧ Config.standard.nsym = 256 ∧ Config.standard.nodeMax = 511 ∧
    Config.standard.idW = 9 ∧ Config.standard.nil = 0x1FF ∧ Config.standard.heapMax = 256 ∧
    Config.standard.maxCodeLen = 255 := by decide

/-! ## Decoding: words written out from 30_encoding.md R93 -/

theorem test_decode_nop : decodeCmd 0b00000000000000000000000000000000 = .ok .nop := by rfl

theorem test_decode_build : decodeCmd 0b00000000000000000000000000000001 = .ok .build := by rfl

theorem test_decode_genCodes : decodeCmd 0b00000000000000000000000000000010 = .ok .genCodes := by rfl

theorem test_decode_decode : decodeCmd 0b00000000000000000000000000000011 = .ok .decode := by rfl

theorem test_decode_pqClear : decodeCmd 0b00000000000000000000000000000100 = .ok .pqClear := by rfl

theorem test_decode_pqInsert : decodeCmd 0b10000000000000010000000000000101 = .ok (.pqInsert 0x8001) := by rfl

theorem test_decode_pqExtract : decodeCmd 0b00000000000000000000000000000110 = .ok .pqExtract := by rfl

/-- CYC-3: illegal words. -/
theorem test_decode_refuses : decodeCmd 0x00000007 = .error .illegalOpcode ∧
    decodeCmd 0xFFFFFFFF = .error .illegalOpcode ∧ decodeCmd 0x00010001 = .error .reservedBitsSet ∧
    decodeCmd 0x80000006 = .error .reservedBitsSet ∧ decodeCmd 0x00000015 = .error .reservedBitsSet :=
  ⟨rfl, rfl, rfl, rfl, rfl⟩

theorem test_encode_pqInsert : encode (.pqInsert 3) = 0x00030005 := by decide

theorem test_decodeTableWord : decodeTableWord 32 0x01FE0005 = some (.pqInsert 510) ∧
    decodeTableWord 32 0x00000017 = none := ⟨rfl, rfl⟩

/-! ## Small states -/

/-- The state a command gives, or the state after reset if it stops. -/
def after (o : Host.Outcome State Fault Refusal) : State :=
  match o with
  | .next t => t
  | .fault _ => .reset
  | .refused _ => .reset

/-- The instance of the tests: NSYM 8, NODE_MAX 15, NIL 15, MAX_CODE_LEN 7. -/
def small : Config where
  symW := 3
  weightW := 8
  bitsMax := 32
  base := 0x80000

/-- Right after reset. -/
def blank : State := State.resetWith small

/-- FREQ written from symbol `k` on. -/
def withFreq : List Nat → Nat → State → State
  | [], _, s => s
  | f :: fs, k, s => withFreq fs (k + 1) (setFreq s k f)

/-- An instance with NSYM 4, NODE_MAX 7, NIL 7, MAX_CODE_LEN 3. -/
def quad : Config where
  symW := 2
  weightW := 8
  bitsMax := 32
  base := 0x80000

/-- FREQ written in full. -/
def counted (fs : List Nat) : State := withFreq fs 0 (State.resetWith quad)

/-- After BUILD. -/
def built (fs : List Nat) : State := after (exec .build (counted fs))

/-- After BUILD and GENCODES. -/
def coded (fs : List Nat) : State := after (exec .genCodes (built fs))

/-- "aaabbc" (BLD-3). -/
def aaabbc : List Nat := [3, 2, 1, 0]

/-- "aaaa" (BLD-5). -/
def one : List Nat := [4, 0, 0, 0]

/-- The encoded bits written, with BIT_LEN. -/
def withBits (ds : List Bool) (s : State) : State := { setBits s 0 (packBits ds) with bitLen := ds.length }

/-- The digits of a number's low bits, bit 0 first. -/
def digits (n v : Nat) : List Bool := (List.range n).map (bitOf v)

/-- DEC-10's arena, with ROOT 0. -/
def hostArena : State := { setNode (setNode blank 0 { isLeaf := false, sym := 0, weight := 0, left := 1, right := 15 })
  1 { isLeaf := true, sym := 7, weight := 0, left := 15, right := 15 } with root := 0 }

/-- P2's two slots, queued: HEAP = [1, 0]. -/
def queued : State :=
  let s := setNode blank 0 { isLeaf := false, sym := 0, weight := 5, left := 15, right := 15 }
  let s := setNode s 1 { isLeaf := false, sym := 0, weight := 3, left := 15, right := 15 }
  after (exec (.pqInsert 1) (after (exec (.pqInsert 0) s)))

/-- `s` with a command in progress. -/
def busy (v : Word) (s : State) : State := accept v s

/-! ## Each command -/

/-- R108: with IE = 1, NOP gives STATUS 0x2 plus the validity flags, and IRQ. -/
theorem test_nop_sets_done : (after (exec .nop { built aaabbc with ie := true })).status.word = 0x6 ∧
    (after (exec .nop { built aaabbc with ie := true })).irq = true := by decide +kernel

/-- BLD-3: every node. -/
theorem test_build_nodes : (List.range 5).map (built aaabbc).nodeAt =
    [{ isLeaf := true, sym := 0, weight := 3, left := 7, right := 7 },
      { isLeaf := true, sym := 1, weight := 2, left := 7, right := 7 },
      { isLeaf := true, sym := 2, weight := 1, left := 7, right := 7 },
      { isLeaf := false, sym := 0, weight := 3, left := 2, right := 1 },
      { isLeaf := false, sym := 0, weight := 6, left := 0, right := 3 }] := by decide +kernel

/-- BLD-3: the registers and HEAP[0..2]. BLD-8, BLD-9: the overflow at the symbol that reaches 2^WEIGHT_W, here 2^8. -/
theorem test_build_registers : (built aaabbc).root = 4 ∧ (built aaabbc).leafCount = 3 ∧ (built aaabbc).nodeCount = 5 ∧
    (built aaabbc).heapSize = 0 ∧ (List.range 3).map (built aaabbc).heapAt = [4, 3, 1] ∧
    (built aaabbc).status.word = 0x6 ∧ (built [0, 128, 0, 128]).errInfo = 3 ∧
    (built [0, 128, 0, 127]).status.err = .ok := by decide +kernel

/-- GEN-4, and VALID = 0 elsewhere. -/
theorem test_genCodes_table : (List.range 4).map (coded aaabbc).codeAt =
    [{ valid := true, len := 1, bits := 0 }, { valid := true, len := 2, bits := 3 },
      { valid := true, len := 2, bits := 1 }, { valid := false, len := 0, bits := 0 }] ∧
    (coded aaabbc).status.word = 0xE := by decide +kernel

/-- GEN-3 and GEN-7. -/
theorem test_genCodes_single_and_none : (coded one).codeAt 0 = { valid := true, len := 1, bits := 0 } ∧
    (after (exec .genCodes blank)).status.word = 0x702 := by decide +kernel

/-- DEC-12: "aaabbc". -/
theorem test_decode_word : let t := after (exec .decode (withBits (digits 9 0x0F8) (built aaabbc)))
    t.status.word = 0x6 ∧ t.outCount = 6 ∧ t.bitIdx = 9 ∧ t.decoded 6 = [0, 0, 0, 1, 1, 2] := by
  decide +kernel

/-- DEC-3: TRUNCATED_ENCODING at 0, and OUT as it was. -/
theorem test_decode_writes_nothing : let s := withBits [true] (built aaabbc)
    (after (exec .decode s)).errInfo = 0 ∧ (after (exec .decode s)).bitIdx = 1 ∧
      (after (exec .decode s)).status.word = 0x506 ∧ (after (exec .decode s)).out = s.out := by decide +kernel

/-- 44_decoder.md R138 and DEC-10: TRUNCATED_ENCODING at 1, MALFORMED_ENCODING at 2. -/
theorem test_decode_failures : let t := after (exec .decode (withBits [false, true] (built aaabbc)))
    let u := after (exec .decode (withBits [false, false, true] hostArena))
    t.status.word = 0x506 ∧ t.errInfo = 1 ∧ t.bitIdx = 2 ∧ t.outCount = 0 ∧ t.outAt 0 = 0 ∧
      u.status.word = 0x402 ∧ u.errInfo = 2 ∧ u.bitIdx = 2 ∧ u.outCount = 0 ∧ u.decoded 2 = [7, 7] := by
  decide +kernel

/-- PQ-7. -/
theorem test_pqClear_keeps_heap : (after (exec .pqClear queued)).heapSize = 0 ∧
    (List.range 2).map (after (exec .pqClear queued)).heapAt = [1, 0] := by decide +kernel

/-- P2: HEAP = [1, 0]; then BAD_OPERAND for NIL. -/
theorem test_pqInsert : queued.heapSize = 2 ∧ (List.range 2).map queued.heapAt = [1, 0] ∧
    (after (exec (.pqInsert 15) queued)).status.word = 0xA02 ∧ (after (exec (.pqInsert 15) queued)).errInfo = 15 := by
  decide +kernel

/-- P2: 1, then 0, then EMPTY_QUEUE with NIL, the slots stale. -/
theorem test_pqExtract : let t := after (exec .pqExtract queued)
    let u := after (exec .pqExtract t)
    let v := after (exec .pqExtract u)
    t.pqResult = 1 ∧ t.heapSize = 1 ∧ u.pqResult = 0 ∧ u.heapSize = 0 ∧ (List.range 2).map u.heapAt = [0, 0] ∧
      v.pqResult = 15 ∧ v.status.word = 0x202 := by decide +kernel

/-- Every command runs as the first instruction after reset. -/
theorem test_first_after_reset : ∀ w ∈ [0x0, 0x1, 0x2, 0x3, 0x4, 0x00030005, 0x6, 0x7],
    ∃ t, step (State.reset.withFetchWord 32 w) = .next t := by
  intro w hw
  simp only [List.mem_cons, List.not_mem_nil, or_false] at hw
  rcases hw with rfl | rfl | rfl | rfl | rfl | rfl | rfl | rfl <;> exact ⟨_, rfl⟩

/-- BLD-11: a write to NODE[2].WEIGHT clears the validity flags. -/
theorem test_node_write_clears_valid :
    (hostWrite 0x02024 9 (coded aaabbc)).status.word = 0x2 ∧
      ((hostWrite 0x02024 9 (coded aaabbc)).nodeAt 2).weight = 9 := by decide +kernel

/-- CYC-1: ID and CFG of the default instance. -/
theorem test_reset_reads : readPlace State.reset (locate State.reset.cfg 0x000) = 0x48554646 ∧
    readPlace State.reset (locate State.reset.cfg 0x004) = 0x00012008 ∧
    readPlace State.reset (locate State.reset.cfg 0x008) = 0x00010000 ∧
    readPlace State.reset (locate State.reset.cfg 0x030) = 0x000001FF := by decide

/-! ## Witnesses: for each statement with hypotheses, states and operands that meet them -/

/-- The smallest instance: NSYM 2, NODE_MAX 3, NIL 3, HEAP_MAX 2, MAX_CODE_LEN 1. -/
def tiny : Config where
  symW := 1
  weightW := 8
  bitsMax := 32
  base := 0x80000

/-- FREQ of "aabb" (BLD-1) in the smallest instance. -/
def pairFreq : State := withFreq [2, 2] 0 (State.resetWith tiny)

/-- BLD-1. -/
def pairTree : State := after (exec .build pairFreq)

/-- GEN-1. -/
def pairCode : State := after (exec .genCodes pairTree)

/-- BLD-1's tree. -/
def pairShape : HTree := .node 2 (.leaf 0 0 2) (.leaf 1 1 2)

/-- FREQ of "aaaa" in the smallest instance. -/
def oneFreq : State := withFreq [4, 0] 0 (State.resetWith tiny)

/-- A host-written arena: ROOT 0 has leaf 1 (symbol 7) on the left and node 2 on the right, whose right child is absent
and whose left child is the leaf. -/
def arena : State :=
  let s := setNode blank 0 { isLeaf := false, sym := 0, weight := 0, left := 1, right := 2 }
  let s := setNode s 1 { isLeaf := true, sym := 7, weight := 0, left := 15, right := 15 }
  setNode s 2 { isLeaf := false, sym := 0, weight := 0, left := 1, right := 15 }

/-- A host-written arena whose ROOT 0 is its own left child. -/
def loopArena : State := setNode blank 0 { isLeaf := false, sym := 0, weight := 0, left := 0, right := 15 }

/-- The full queue of the smallest instance: HEAP_SIZE = HEAP_MAX. -/
def fullQueue : State :=
  let s := setNode (State.resetWith tiny) 0 { isLeaf := false, sym := 0, weight := 5, left := 3, right := 3 }
  let s := setNode s 1 { isLeaf := false, sym := 0, weight := 3, left := 3, right := 3 }
  after (exec (.pqInsert 1) (after (exec (.pqInsert 0) s)))

/-- The queue with one place left. -/
def halfQueue : State := after (exec .pqExtract fullQueue)

/-- `s`, with the host about to read the word at `off`. -/
def reading (s : State) (off : Nat) : State := { s with script := [.host (.read (s.cfg.base + off) 4)] }

/-- `s`, with the host about to write the word at `off`. -/
def writing (s : State) (off : Nat) (v : Word) : State := { s with script := [.host (.write (s.cfg.base + off) 4 v)] }

theorem reading_reads {s : State} {off : Nat} (hr : s.inReset = false) (h : off < Config.windowSize ∧ off % 4 = 0) :
    (reading s off).Reads off [] := ⟨hr, h.1, h.2, rfl⟩

theorem writing_writes {s : State} {off : Nat} {v : Word} (hr : s.inReset = false)
    (h : off < Config.windowSize ∧ off % 4 = 0) : (writing s off v).Writes off v [] := ⟨hr, h.1, h.2, rfl⟩

/-- A state whose registers and queue pass a check meets the invariant. -/
theorem inv_of {s : State} (hl : s.cfg.Legal)
    (hf : s.freq.wf ∧ s.freq.inRange (freqAddr 0) (freqAddr s.cfg.nsym))
    (hn : s.node.wf ∧ s.node.inRange (nodeAddr 0) (nodeAddr s.cfg.nodeMax))
    (hh : s.heap.wf ∧ s.heap.inRange (heapAddr 0) (heapAddr s.cfg.heapMax))
    (hc : s.code.wf ∧ s.code.inRange (codeAddr 0) (codeAddr s.cfg.nsym))
    (hb : s.bits.wf ∧ s.bits.inRange (bitsAddr 0) (bitsAddr (s.cfg.bitsMax / 32)))
    (ho : s.out = [])
    (hr : s.status.busy = false ∧ (s.status.err = .ok ∧ s.errInfo = 0) ∧
      (s.status.codesValid = true → s.status.treeValid = true) ∧ s.root < 2 ^ s.cfg.idW ∧ s.leafCount ≤ s.cfg.nsym ∧
      s.nodeCount = 2 * s.leafCount - 1 ∧ s.heapSize ≤ s.cfg.heapMax ∧ (∀ i < s.heapSize, s.heapAt i < s.cfg.nodeMax) ∧
      s.pqResult ≤ s.cfg.nil ∧ s.bitLen < 2 ^ 17 ∧ s.outCount ≤ s.bitIdx ∧ s.bitIdx ≤ s.cfg.bitsMax) : s.Inv where
  legal := hl
  canonical := ⟨hf, hn, hh, hc, hb, by simp [ho]⟩
  busy h := by simp [hr.1] at h
  noError _ := hr.2.1.2
  noUnknown h := by simp [hr.2.1.1] at h
  codesTree := hr.2.2.1
  root := hr.2.2.2.1
  leafCount := hr.2.2.2.2.1
  nodeCount := hr.2.2.2.2.2.1
  heapSize := hr.2.2.2.2.2.2.1
  queueIds := hr.2.2.2.2.2.2.2.1
  pqResult := hr.2.2.2.2.2.2.2.2.1
  bitLen := hr.2.2.2.2.2.2.2.2.2.1
  outCount := hr.2.2.2.2.2.2.2.2.2.2.1
  bitIdx := hr.2.2.2.2.2.2.2.2.2.2.2

theorem blank_inv : blank.Inv := by
  apply inv_of <;> decide +kernel

theorem pairFreq_inv : pairFreq.Inv := by
  apply inv_of <;> decide +kernel

theorem pairCode_inv : pairCode.Inv := by
  apply inv_of <;> decide +kernel

theorem queue_inv : fullQueue.Inv ∧ halfQueue.Inv := by
  constructor <;> apply inv_of <;> decide +kernel

/-! ### Encoding and the command cycle -/

theorem witness_DecodeInvertsEncode : (Instr.pqInsert 0).wellFormed = true ∧ (Instr.pqInsert 65535).wellFormed = true ∧
    Instr.nop.wellFormed = true := by decide

theorem witness_EncodeInvertsDecode : decodeCmd 0xFFFF0005 = .ok (.pqInsert 0xFFFF) ∧ decodeCmd 0x6 = .ok .pqExtract :=
  ⟨rfl, rfl⟩

theorem witness_IllegalWordCompletesWithItself : ∀ w ∈ ([0x7, 0xF, 0x10, 0x80000006, 0x15, 0xFFF5] : List Word),
    (7 ≤ w.toNat % 16 ∨ (w.toNat % 16 ≠ 5 ∧ w.toNat / 16 ≠ 0) ∨ (w.toNat % 16 = 5 ∧ w.toNat / 16 % 2 ^ 12 ≠ 0)) ∧
    (let s := { blank with script := [.host (.write (small.base + 0x014) 4 w), .engine] };
      s.status.busy = false ∧ s.Writes 0x014 w [.engine]) ∧
    (let s := { busy w blank with script := [.engine] };
      s.status.busy = true ∧ s.cmdlat = w ∧ s.script = [.engine]) := by
  intro w hw
  refine ⟨?_, ⟨rfl, rfl, by decide, by decide, rfl⟩, rfl, rfl, rfl⟩
  simp only [List.mem_cons, List.not_mem_nil, or_false] at hw
  rcases hw with rfl | rfl | rfl | rfl | rfl | rfl <;> decide

theorem witness_StepRunsDecodedCommand :
    ((busy 0x5 blank).status.busy = true ∧ decodeCmd (busy 0x5 blank).cmdlat = .ok (.pqInsert 0) ∧
      (busy 0x5 blank).script = []) ∧
    ((busy 0x7 blank).status.busy = true ∧ decodeCmd (busy 0x7 blank).cmdlat = .error .illegalOpcode) ∧
    blank.status.busy = false ∧ { busy 0x5 blank with script := [.engine] }.script = .engine :: [] :=
  ⟨⟨rfl, rfl, rfl⟩, ⟨rfl, rfl⟩, rfl, rfl⟩

theorem witness_DeliveredWordRunsNext : decodeTableWord 32 0xFFFF0005 = some (.pqInsert 0xFFFF) := rfl

theorem witness_AcceptanceLatchesTheWord :
    (writing blank 0x014 0xFFFFFFFF).status.busy = false ∧ (writing blank 0x014 0xFFFFFFFF).Writes 0x014 0xFFFFFFFF [] :=
  ⟨rfl, writing_writes rfl (by decide)⟩

theorem pairShape_inArena : pairShape.InArena pairCode ∧ pairShape.id = pairCode.root := by
  refine ⟨⟨⟨by decide +kernel, by decide +kernel⟩, ⟨by decide +kernel, by decide +kernel⟩, by decide +kernel,
    by decide +kernel⟩, by decide +kernel⟩

theorem pairCode_treeInv : pairCode.TreeInv := fun _ =>
  ⟨pairShape, pairShape_inArena.1, pairShape_inArena.2, by decide +kernel, by decide, by decide +kernel,
    fun _ => by unfold State.CodesOf; decide +kernel⟩

theorem witness_EveryCommandCompletes : pairCode.Inv ∧ pairCode.TreeInv := ⟨pairCode_inv, pairCode_treeInv⟩

/-- A command ended, with an error. -/
def fails : Host.Outcome State Fault Refusal → Bool
  | .next t => decide (t.status.err ≠ .ok)
  | .fault _ => false
  | .refused _ => false

theorem of_fails {i : Instr} {s : State} (h : fails (exec i s) = true) :
    ∃ t, exec i s = .next t ∧ t.status.err ≠ .ok := by
  cases ho : exec i s with
  | next t => exact ⟨t, rfl, by simpa [ho, fails] using h⟩
  | fault _ => simp [ho, fails] at h
  | refused _ => simp [ho, fails] at h

/-- Each command that can fail. -/
theorem witness_FailedCommandFailsAgain :
    ∀ p ∈ [(Instr.build, withFreq [0, 0] 0 (State.resetWith tiny)), (.genCodes, blank), (.decode, { blank with root := 15 }),
        (.pqInsert 15, blank), (.pqInsert 2, fullQueue), (.pqExtract, blank)],
      ∃ t, exec p.1 p.2 = .next t ∧ t.status.err ≠ .ok := by
  intro p hp
  apply of_fails
  simp only [List.mem_cons, List.not_mem_nil, or_false] at hp
  rcases hp with rfl | rfl | rfl | rfl | rfl | rfl <;> decide +kernel

theorem witness_NopOnlyCompletes :
    (busy 0xFFFFFFF0 blank).cmdlat.toNat % 16 = 0 ∧ (busy 0xFFFFFFF0 blank).cmdlat ≠ 0 ∧
      (busy 0xFFFFFFF0 blank).status.busy = true ∧ (busy 0xFFFFFFF0 blank).script = [] :=
  ⟨rfl, (by decide : (0xFFFFFFF0 : Word) ≠ 0), rfl, rfl⟩

theorem witness_BusyAccessesDoNotReachTheCommand :
    (busy 0x4 blank).status.busy = true ∧
      (∃ s', hostAccess (.read (small.base + 0x018) 4) (busy 0x4 blank) = .next s') ∧
      (∃ s', hostAccess (.write (small.base + 0x010) 4 1) (busy 0x4 blank) = .next s') ∧
      (∃ s', hostAccess (.write (small.base + 0x7FFFC) 4 1) (busy 0x4 blank) = .next s') ∧
      ∃ t, exec .pqClear (busy 0x4 blank) = .next t :=
  ⟨rfl, ⟨_, rfl⟩, ⟨_, rfl⟩, ⟨_, rfl⟩, _, rfl⟩

theorem witness_EachResultHasItsWriter :
    (∃ t, exec .build pairFreq = .next t ∧ t.node ≠ pairFreq.node) ∧
    (∃ t, exec .decode (withBits [false] pairCode) = .next t ∧ t.outCount ≠ (withBits [false] pairCode).outCount) ∧
    ∃ t, exec .pqExtract fullQueue = .next t ∧ t.pqResult ≠ fullQueue.pqResult ∧ t.heapSize ≠ fullQueue.heapSize :=
  ⟨⟨_, rfl, by decide +kernel⟩, ⟨_, rfl, by decide +kernel⟩, _, rfl, by decide +kernel⟩

/-! ### Flags -/

theorem witness_BusyFollowsTheCommandCycle :
    (step blank = .next blank ∧ blank.status.busy = false) ∧
    (∃ t, step (writing blank 0x014 0) = .next t ∧ (writing blank 0x014 0).status.busy = false) ∧
    (∃ t, step (busy 0x4 blank) = .next t ∧ (busy 0x4 blank).status.busy = true) ∧
    ∃ t, step { busy 0x4 blank with script := [.assertReset] } = .next t ∧ t.status.busy = false :=
  ⟨⟨rfl, rfl⟩, ⟨_, rfl, rfl⟩, ⟨_, rfl, rfl⟩, _, rfl, rfl⟩

/-- After a completion: DONE = 1. -/
def finished : State := after (exec .nop blank)

theorem witness_DoneFollowsCompletion :
    (∃ t, step (busy 0x4 blank) = .next t ∧ (busy 0x4 blank).status.busy = true ∧ (busy 0x4 blank).script = []) ∧
    (∃ t, step (writing finished 0x018 0x2) = .next t ∧ (writing finished 0x018 0x2).Writes 0x018 0x2 [] ∧
      finished.status.done = true ∧ t.status.done = false) ∧
    ∃ t, step (writing finished 0x014 0) = .next t ∧ (writing finished 0x014 0).Writes 0x014 0 [] ∧
      (writing finished 0x014 0).status.busy = false :=
  ⟨⟨_, rfl, rfl, rfl⟩, ⟨_, rfl, writing_writes rfl (by decide), rfl, rfl⟩, _, rfl, writing_writes rfl (by decide), rfl⟩

theorem witness_TreeValidChangesOnlyAsStated :
    tiny.Legal ∧
    (∃ t, step (busy 0x1 pairFreq) = .next t ∧ (busy 0x1 pairFreq).Runs .build) ∧
    (∃ t, step { pairTree with script := [.assertReset] } = .next t ∧
      State.Resets { pairTree with script := [.assertReset] } ∧ pairTree.status.treeValid = true) ∧
    (∀ off ∈ [0x020, nodeAddr 0, nodeAddr 2 + 12], (∃ t, step (writing pairTree off 0) = .next t) ∧
      (writing pairTree off 0).status.busy = false ∧ (writing pairTree off 0).Writes off 0 [] ∧
      (off = 0x020 ∨ (nodeAddr 0 ≤ off ∧ off < nodeAddr tiny.nodeMax))) := by
  refine ⟨by decide, ⟨_, rfl, rfl, rfl, .inl rfl⟩, ⟨_, rfl, .inl ⟨_, rfl⟩, by decide +kernel⟩, ?_⟩
  intro off h
  simp only [List.mem_cons, List.not_mem_nil, or_false] at h
  rcases h with rfl | rfl | rfl <;>
    exact ⟨⟨_, rfl⟩, by decide +kernel, writing_writes (by decide +kernel) (by decide), by decide⟩

theorem witness_OverrunIsSticky :
    (∀ off ∈ [0x014, 0x01C, 0x7FFFC], ∃ t, step (writing (busy 0x4 blank) off 0) = .next t ∧
      (writing (busy 0x4 blank) off 0).Writes off 0 [] ∧ (writing (busy 0x4 blank) off 0).status.busy = true ∧
      off ≠ 0x010 ∧ off ≠ 0x018) ∧
    let s := setOverrun (busy 0x4 blank)
    s.status.overrun = true ∧ ∃ t, step (writing s 0x018 0x10) = .next t ∧ (writing s 0x018 0x10).Writes 0x018 0x10 [] := by
  refine ⟨?_, rfl, _, rfl, writing_writes rfl (by decide)⟩
  intro off h
  simp only [List.mem_cons, List.not_mem_nil, or_false] at h
  rcases h with rfl | rfl | rfl <;> exact ⟨_, rfl, writing_writes rfl (by decide), rfl, by decide, by decide⟩

/-! ### Host accesses -/

theorem witness_NarrowOrMisalignedAccessRefused :
    blank.inReset = false ∧ (∀ p ∈ [(0, 1), (0, 2), (0x7FFFF, 4), (1, 4)], p.1 < Config.windowSize ∧ (p.2 ≠ 4 ∨ p.1 % 4 ≠ 0)) ∧
      { blank with script := [.host (.read (small.base + 1) 4)] }.script = .host (.read (small.base + 1) 4) :: [] :=
  ⟨rfl, by decide, rfl⟩

/-- The first and the last word of each memory. -/
theorem witness_IdleReadReturnsTheElement :
    small.Legal ∧ blank.status.busy = false ∧
    ∀ off ∈ [freqAddr 0, freqAddr 7, nodeAddr 0, nodeAddr 14, nodeAddr 14 + 4, nodeAddr 14 + 8, nodeAddr 14 + 12,
        heapAddr 0, heapAddr 7, codeAddr 0, codeAddr 7, codeAddr 7 + 4 * 1, codeAddr 7 + 4 * 8, codeAddr 7 + 4 * 9,
        codeAddr 7 + 4 * 15, bitsAddr 0, outAddr 0, outAddr 31],
      off < Config.windowSize ∧ off % 4 = 0 ∧ (reading blank off).script = .host (.read (small.base + off) 4) :: [] :=
  ⟨by decide, rfl, fun off h => by
    refine ⟨?_, ?_, rfl⟩ <;> (revert off; decide)⟩

theorem witness_IdleReadReturnsTheRegister :
    (reading blank 0x000).Inv ∧ (reading blank 0x03C).Inv ∧ (reading blank 0x000).status.busy = false ∧
      (reading blank 0x000).Reads 0x000 [] ∧ (reading blank 0x03C).Reads 0x03C [] :=
  ⟨by apply inv_of <;> decide +kernel, by apply inv_of <;> decide +kernel, rfl, reading_reads rfl (by decide),
    reading_reads rfl (by decide)⟩

/-- The ends of the unmapped ranges, and of the read-only ones. -/
theorem witness_UnmappedReadsZeroAndIgnoresWrites :
    small.Legal ∧ blank.status.busy = false ∧
    (∀ off ∈ [0x00C, 0x040, 0xFFC, freqAddr 8, 0x1FFC, nodeAddr 15, 0x3FFC, heapAddr 8, 0x7FFC, codeAddr 8, 0xFFFC,
        bitsAddr 1, 0x3FFFC, outAddr 32, 0x7FFFC],
      (off = 0x00C ∨ (0x040 ≤ off ∧ off < 0x1000) ∨ (freqAddr small.nsym ≤ off ∧ off < 0x2000) ∨
        (nodeAddr small.nodeMax ≤ off ∧ off < 0x4000) ∨ (heapAddr small.heapMax ≤ off ∧ off < 0x8000) ∨
        (codeAddr small.nsym ≤ off ∧ off < 0x10000) ∨ (bitsAddr (small.bitsMax / 32) ≤ off ∧ off < 0x40000) ∨
        (outAddr small.outMax ≤ off ∧ off < 0x80000)) ∧ off < Config.windowSize ∧ off % 4 = 0) ∧
    (∀ off ∈ [0x4000, 0x4FFC, 0x8000, 0xFFFC, 0x40000, 0x7FFFC, 0x000, 0x03C],
      ((0x4000 ≤ off ∧ off < 0x5000) ∨ (0x8000 ≤ off ∧ off < 0x10000) ∨ (0x40000 ≤ off ∧ off < 0x80000) ∨
        off ∈ [0x000, 0x004, 0x008, 0x01C, 0x024, 0x028, 0x02C, 0x030, 0x038, 0x03C]) ∧
        off < Config.windowSize ∧ off % 4 = 0) ∧
    (reading blank 0x00C).Reads 0x00C [] ∧ (writing blank 0x4000 1).Writes 0x4000 1 [] :=
  ⟨by decide, rfl, by decide, by decide, reading_reads rfl (by decide), writing_writes rfl (by decide)⟩

theorem witness_NodeWriteStoresItsFields :
    small.Legal ∧ blank.status.busy = false ∧ 14 < small.nodeMax ∧
      (writing blank (nodeAddr 0 + 4 * 0) 0xFFFFFFFF).Writes (nodeAddr 0 + 4 * 0) 0xFFFFFFFF [] ∧
      (writing blank (nodeAddr 14 + 4 * 3) 0xFFFFFFFF).Writes (nodeAddr 14 + 4 * 3) 0xFFFFFFFF [] :=
  ⟨by decide, rfl, by decide, writing_writes rfl (by decide), writing_writes rfl (by decide)⟩

theorem witness_IdleWriteStoresTheLowBits :
    small.Legal ∧ blank.status.busy = false ∧
    ∀ off ∈ [freqAddr 0, freqAddr 7, bitsAddr 0, 0x010, 0x020, 0x034],
      (writing blank off 0xFFFFFFFF).Writes off 0xFFFFFFFF [] :=
  ⟨by decide, rfl, fun off h => writing_writes rfl (by revert off; decide)⟩

theorem witness_BusyWriteIsDroppedAndSetsOverrun :
    (busy 0x4 blank).status.busy = true ∧
    ∀ off ∈ [0x010, 0x018, 0x000, 0x014, 0x7FFFC], (writing (busy 0x4 blank) off 0x13).Writes off 0x13 [] :=
  ⟨rfl, fun off h => writing_writes rfl (by revert off; decide)⟩

theorem witness_BusyReadIsKnownOrFree :
    small.Legal ∧ (busy 0x4 blank).status.busy = true ∧
    ∀ off ∈ [0x000, 0x004, 0x008, 0x010, 0x018, 0x014, 0x03C, freqAddr 0, freqAddr 7, nodeAddr 14 + 12, heapAddr 7,
        codeAddr 7 + 60, bitsAddr 0, outAddr 31], (reading (busy 0x4 blank) off).Reads off [] :=
  ⟨by decide, rfl, fun off h => reading_reads rfl (by revert off; decide)⟩

theorem witness_RepeatedWriteIsIdempotent :
    let s : State := { blank with script :=
      [.host (.write (small.base + 0x020) 4 7), .host (.write (small.base + 0x020) 4 7)] }
    s.status.busy = false ∧ s.Writes 0x020 7 [.host (.write (s.cfg.base + 0x020) 4 7)] ∧ ∃ t, step s = .next t :=
  ⟨rfl, ⟨rfl, by decide, by decide, rfl⟩, _, rfl⟩

/-! ### Reset -/

theorem witness_ResetGivesTheStatedRegisters : small.Legal ∧ tiny.Legal ∧ (Config.mk 8 32 65536 0).Legal ∧
    (Config.mk 1 1 32 0x80000).Legal := by decide

theorem witness_ResetAbandonsTheCommand :
    { busy 0x4 blank with script := [.assertReset] }.script = .assertReset :: [] ∧
    (let s := { assertReset (busy 0x4 blank) with script := [.host (.read small.base 4)] };
      s.inReset = true ∧ s.script = .host (.read small.base 4) :: []) ∧
    (let s := { assertReset (busy 0x4 blank) with script := [.releaseReset] };
      s.inReset = true ∧ s.script = .releaseReset :: []) :=
  ⟨rfl, ⟨rfl, rfl⟩, rfl, rfl⟩

/-! ### The queue -/

/-- The last arena id into the last place, and into the empty queue. -/
theorem witness_PqInsertAddsTheEntry :
    (halfQueue.Inv ∧ 2 < halfQueue.cfg.nodeMax ∧ halfQueue.heapSize + 1 = halfQueue.cfg.heapMax) ∧
    blank.Inv ∧ 14 < blank.cfg.nodeMax ∧ blank.heapSize < blank.cfg.heapMax :=
  ⟨⟨queue_inv.2, by decide +kernel, by decide +kernel⟩, blank_inv, by decide, by decide⟩

theorem witness_PqInsertFailsByName :
    fullQueue.cfg.nodeMax ≤ 3 ∧ 2 < fullQueue.cfg.nodeMax ∧ fullQueue.heapSize = fullQueue.cfg.heapMax := by
  decide +kernel

theorem witness_PqExtractTakesTheRoot : (fullQueue.Inv ∧ 0 < fullQueue.heapSize) ∧ halfQueue.Inv ∧ halfQueue.heapSize = 1 :=
  ⟨⟨queue_inv.1, by decide +kernel⟩, queue_inv.2, by decide +kernel⟩

theorem witness_PqExtractOnEmptyQueueFails : blank.heapSize = 0 := rfl

theorem queue_order : fullQueue.HeapOrder ∧ halfQueue.HeapOrder := by
  have h2 : fullQueue.heapSize = 2 := by decide +kernel
  have h1 : halfQueue.heapSize = 1 := by decide +kernel
  refine ⟨fun i hi hs => ?_, fun i hi hs => absurd hs (by omega)⟩
  obtain rfl : i = 1 := by omega
  decide +kernel

theorem witness_QueueCommandsKeepHeapOrder :
    (halfQueue.Inv ∧ halfQueue.HeapOrder ∧ 2 < halfQueue.cfg.nodeMax ∧ halfQueue.heapSize < halfQueue.cfg.heapMax) ∧
    fullQueue.Inv ∧ fullQueue.HeapOrder ∧ 0 < fullQueue.heapSize ∧ fullQueue.queue.Nodup ∧ 0 ∈ fullQueue.queue :=
  ⟨⟨queue_inv.2, queue_order.2, by decide +kernel, by decide +kernel⟩, queue_inv.1, queue_order.1, by decide +kernel,
    by decide +kernel, by decide +kernel⟩

theorem witness_StepKeepsHeapOrder :
    fullQueue.Inv ∧ fullQueue.HeapOrder ∧ (∃ t, step fullQueue = .next t) ∧
    ¬ ∃ off v rest, fullQueue.status.busy = false ∧ fullQueue.Writes off v rest ∧
      nodeAddr 0 ≤ off ∧ off < nodeAddr fullQueue.cfg.nodeMax := by
  refine ⟨queue_inv.1, queue_order.1, ⟨_, rfl⟩, ?_⟩
  rintro ⟨off, v, rest, -, ⟨-, -, -, h⟩, -⟩
  have : fullQueue.script = [] := rfl
  simp [this] at h

/-! ### BUILD -/

theorem witness_FailedBuildChangesOnlyFlags :
    (let s := withFreq [0, 0] 0 (State.resetWith tiny)
      ∀ sym < s.cfg.nsym, s.freqAt sym = 0) ∧
    let s := withFreq [128, 128] 0 (State.resetWith tiny)
    1 < s.cfg.nsym ∧ 2 ^ s.cfg.weightW ≤ ((List.range (1 + 1)).map s.freqAt).sum ∧
      ((List.range 1).map s.freqAt).sum < 2 ^ s.cfg.weightW := by decide +kernel

/-- BLD-9: the largest total. -/
theorem witness_BuildPlantsTheTree :
    (pairFreq.Inv ∧ pairFreq.presentSyms ≠ [] ∧ pairFreq.freqs.sum < 2 ^ pairFreq.cfg.weightW) ∧
    let s := withFreq [128, 127] 0 (State.resetWith tiny)
    s.Inv ∧ s.presentSyms ≠ [] ∧ s.freqs.sum + 1 = 2 ^ s.cfg.weightW :=
  ⟨⟨pairFreq_inv, by decide +kernel, by decide +kernel⟩, by apply inv_of <;> decide +kernel, by decide +kernel,
    by decide +kernel⟩

theorem pairTree_next : exec .build pairFreq = .next pairTree ∧ pairTree.status.err = .ok := ⟨rfl, by decide +kernel⟩

theorem witness_BuildNumbersTheLeavesInSymbolOrder :
    pairFreq.Inv ∧ exec .build pairFreq = .next pairTree ∧ pairTree.status.err = .ok ∧
      pairFreq.presentSyms[1]? = some 1 ∧ pairFreq.presentSyms.length ≤ 2 ∧ 2 < pairTree.nodeCount :=
  ⟨pairFreq_inv, pairTree_next.1, pairTree_next.2, by decide +kernel, by decide +kernel, by decide +kernel⟩

theorem witness_BuildMergesTheTwoLeast :
    pairFreq.Inv ∧ exec .build pairFreq = .next pairTree ∧ pairTree.status.err = .ok ∧
      pairFreq.presentSyms.length ≤ 2 ∧ 2 < pairTree.nodeCount :=
  ⟨pairFreq_inv, pairTree_next.1, pairTree_next.2, by decide +kernel, by decide +kernel⟩

/-- BLD-5, and the largest count. -/
theorem witness_BuildOfOneSymbolIsItsLeaf :
    (oneFreq.Inv ∧ oneFreq.presentSyms = [0]) ∧
    let s := withFreq [0, 255] 0 (State.resetWith tiny)
    s.Inv ∧ s.presentSyms = [1] :=
  ⟨⟨by apply inv_of <;> decide +kernel, by decide +kernel⟩, by apply inv_of <;> decide +kernel, by decide +kernel⟩

theorem witness_BuildTreeIsOptimal :
    pairFreq.Inv ∧ exec .build pairFreq = .next pairTree ∧ pairTree.status.err = .ok ∧ pairShape.InArena pairTree ∧
      pairShape.id = pairTree.root ∧
      (HTree.node 2 (.leaf 1 1 2) (.leaf 0 0 2)).symbols.Perm pairShape.symbols :=
  ⟨pairFreq_inv, pairTree_next.1, pairTree_next.2,
    ⟨⟨by decide +kernel, by decide +kernel⟩, ⟨by decide +kernel, by decide +kernel⟩, by decide +kernel,
      by decide +kernel⟩, by decide +kernel, by decide⟩

/-! ### GENCODES -/

theorem witness_GenCodesWithoutTreeFails : blank.status.treeValid = false := rfl

theorem witness_GenCodesWritesTheTable :
    (pairCode.Inv ∧ pairCode.status.treeValid = true ∧ pairShape.InArena pairCode ∧ pairShape.id = pairCode.root ∧
      pairShape.symbols.Nodup) ∧
    let s := after (exec .build oneFreq)
    s.Inv ∧ s.status.treeValid = true ∧ (HTree.leaf 0 0 4).InArena s ∧ (HTree.leaf 0 0 4).id = s.root ∧
      (HTree.leaf 0 0 4).symbols.Nodup :=
  ⟨⟨pairCode_inv, by decide +kernel, pairShape_inArena.1, pairShape_inArena.2, by decide⟩,
    by apply inv_of <;> decide +kernel, by decide +kernel, ⟨by decide +kernel, by decide +kernel⟩, by decide +kernel,
    by decide⟩

theorem witness_GenCodesTableIsPrefixFree :
    pairCode.Inv ∧ pairCode.TreeInv ∧ pairCode.status.treeValid = true ∧ 2 ≤ pairCode.leafCount :=
  ⟨pairCode_inv, pairCode_treeInv, by decide +kernel, by decide +kernel⟩

/-! ### DECODE -/

theorem witness_DecodeBadOperandFails :
    { blank with root := 15 }.root = 2 ^ (small.symW + 1) - 1 ∧
    let s := { blank with bitLen := 33 }
    s.root ≠ 2 ^ (s.cfg.symW + 1) - 1 ∧ s.cfg.bitsMax < s.bitLen := by decide

/-- The digits 0, 10: leaf 1, then node 2 and its left child. -/
def arenaGood : State := withBits [false, true, false] arena

/-- The digits 0, 1: a cut codeword. -/
def arenaCut : State := withBits [false, true] arena

/-- The digits 0, 11: the second asks node 2 for its absent child. -/
def arenaBad : State := withBits [false, true, true] arena

theorem arena_inv : arenaGood.Inv ∧ arenaCut.Inv ∧ arenaBad.Inv := by
  refine ⟨?_, ?_, ?_⟩ <;> apply inv_of <;> decide +kernel

theorem withBits_eq (ds : List Bool) (s : State) :
    withBits ds s = { s with bits := (withBits ds s).bits, bitLen := ds.length } := rfl

theorem withBits_nodeAt (ds : List Bool) (s : State) : (withBits ds s).nodeAt = s.nodeAt := by
  rw [withBits_eq]; exact nodeAt_congr s rfl rfl rfl

theorem arena_nodes :
    arena.nodeAt 0 = { isLeaf := false, sym := 0, weight := 0, left := 1, right := 2 } ∧
    arena.nodeAt 1 = { isLeaf := true, sym := 7, weight := 0, left := 15, right := 15 } ∧
    arena.nodeAt 2 = { isLeaf := false, sym := 0, weight := 0, left := 1, right := 15 } := by decide +kernel

theorem arena_nil (ds : List Bool) : (withBits ds arena).cfg.nil = 15 := rfl

theorem arena_walk (ds : List Bool) : Walk (withBits ds arena) 0 [true] 2 := by
  refine .go (b := 2) ?_ ?_ ?_ (.stop 2)
  · rw [withBits_nodeAt, arena_nodes.1]; rfl
  · rw [arena_nil]; decide
  · rw [withBits_nodeAt, arena_nodes.2.2]

theorem arena_spells (ds : List Bool) :
    Spells (withBits ds arena) 0 [false] 7 ∧ Spells (withBits ds arena) 0 [true, false] 7 := by
  refine ⟨⟨[], false, 0, 1, rfl, .stop 0, ?_⟩, [true], false, 2, 1, rfl, arena_walk ds, ?_⟩ <;>
    rw [withBits_nodeAt, arena_nil] <;> simp [arena_nodes, childOf]

theorem loop_node : loopArena.nodeAt 0 = { isLeaf := false, sym := 0, weight := 0, left := 0, right := 15 } := by
  decide +kernel

theorem loop_walk (ds : List Bool) : Walk (withBits ds loopArena) 0 [false] 0 := by
  refine .go (b := 0) ?_ ?_ ?_ (.stop 0)
  · rw [withBits_nodeAt, loop_node]; rfl
  · show 0 ≠ loopArena.cfg.nil; decide
  · rw [withBits_nodeAt, loop_node]

/-- Codewords up to the end, and a walk that comes back to ROOT's id. -/
theorem witness_DecodeOfCodewordsSucceeds :
    (arenaGood.Inv ∧ arenaGood.root ≠ arenaGood.cfg.nil ∧ arenaGood.bitLen ≤ arenaGood.cfg.bitsMax ∧
      (arenaGood.nodeAt arenaGood.root).isLeaf = false ∧
      SpellsAll arenaGood arenaGood.root [([false], 7), ([true, false], 7)] ∧
      Walk arenaGood arenaGood.root [] arenaGood.root ∧
      arenaGood.stream = digitsOf [([false], 7), ([true, false], 7)] ++ []) ∧
    let s := withBits [false] loopArena
    s.Inv ∧ s.root ≠ s.cfg.nil ∧ s.bitLen ≤ s.cfg.bitsMax ∧ (s.nodeAt s.root).isLeaf = false ∧
      Walk s s.root [false] s.root ∧ s.stream = digitsOf [] ++ [false] := by
  refine ⟨⟨arena_inv.1, by decide, by decide, by decide +kernel, ?_, .stop _, by decide +kernel⟩, ?_⟩
  · intro c hc
    simp only [List.mem_cons, List.not_mem_nil, or_false] at hc
    rcases hc with rfl | rfl
    exacts [(arena_spells _).1, (arena_spells _).2]
  · exact ⟨by apply inv_of <;> decide +kernel, by decide, by decide, by decide +kernel,
      loop_walk _, by decide +kernel⟩

theorem arena_spellsAll (ds : List Bool) : SpellsAll (withBits ds arena) 0 [([false], 7)] := by
  intro c hc
  simp only [List.mem_cons, List.not_mem_nil, or_false] at hc
  rcases hc with rfl
  exact (arena_spells ds).1

/-- A codeword and a cut one; and a cut one at once (DEC-3), which emits nothing. -/
theorem witness_DecodeOfCutCodewordIsTruncated :
    (let s := withBits [true] arena;
      s.Inv ∧ s.root ≠ s.cfg.nil ∧ s.bitLen ≤ s.cfg.bitsMax ∧ (s.nodeAt s.root).isLeaf = false ∧
        SpellsAll s s.root [] ∧ Walk s s.root [true] 2 ∧ 2 ≠ s.root ∧ s.stream = digitsOf [] ++ [true]) ∧
    arenaCut.Inv ∧ arenaCut.root ≠ arenaCut.cfg.nil ∧ arenaCut.bitLen ≤ arenaCut.cfg.bitsMax ∧
      (arenaCut.nodeAt arenaCut.root).isLeaf = false ∧ SpellsAll arenaCut arenaCut.root [([false], 7)] ∧
      Walk arenaCut arenaCut.root [true] 2 ∧ 2 ≠ arenaCut.root ∧
      arenaCut.stream = digitsOf [([false], 7)] ++ [true] :=
  ⟨⟨by apply inv_of <;> decide +kernel, by decide, by decide, by decide +kernel, fun _ h => by simp at h, arena_walk _,
      by decide, by decide +kernel⟩,
    arena_inv.2.1, by decide, by decide, by decide +kernel, arena_spellsAll _, arena_walk _, by decide, by decide +kernel⟩

theorem witness_DecodeOfAbsentChildIsMalformed :
    arenaBad.Inv ∧ arenaBad.root ≠ arenaBad.cfg.nil ∧ arenaBad.bitLen ≤ arenaBad.cfg.bitsMax ∧
      (arenaBad.nodeAt arenaBad.root).isLeaf = false ∧ SpellsAll arenaBad arenaBad.root [([false], 7)] ∧
      Walk arenaBad arenaBad.root [true] 2 ∧ childOf (arenaBad.nodeAt 2) true = arenaBad.cfg.nil ∧
      arenaBad.stream = digitsOf [([false], 7)] ++ [true] ++ true :: [] :=
  ⟨arena_inv.2.2, by decide, by decide, by decide +kernel, arena_spellsAll _, arena_walk _, by decide +kernel,
    by decide +kernel⟩

/-- DEC-5, and the 1 bit at the first place. -/
theorem witness_DecodeOfOneLeafCountsZeros : ∀ n ∈ [0x0, 0x4, 0x1],
    let s := { withBits (digits 4 n) arena with root := 1 }
    s.Inv ∧ s.root ≠ s.cfg.nil ∧ s.bitLen ≤ s.cfg.bitsMax ∧ (s.nodeAt s.root).isLeaf = true ∧
      ((n = 0x0 ∧ ∀ i < s.bitLen, s.bitAt i = false) ∨
        ∃ i < s.bitLen, s.bitAt i = true ∧ ∀ j < i, s.bitAt j = false) := by
  intro n hn
  simp only [List.mem_cons, List.not_mem_nil, or_false] at hn
  rcases hn with rfl | rfl | rfl
  · exact ⟨by apply inv_of <;> decide +kernel, by decide, by decide, by decide +kernel, .inl (by decide +kernel)⟩
  · exact ⟨by apply inv_of <;> decide +kernel, by decide, by decide, by decide +kernel,
      .inr ⟨2, by decide, by decide +kernel, by decide +kernel⟩⟩
  · exact ⟨by apply inv_of <;> decide +kernel, by decide, by decide, by decide +kernel,
      .inr ⟨0, by decide, by decide +kernel, by decide +kernel⟩⟩

theorem witness_DecodeOfNoBitsSucceeds : blank.root ≠ blank.cfg.nil ∧ blank.bitLen = 0 := by decide

/-- P1: "aabb" through the whole pipeline. -/
theorem witness_RoundTripGivesTheSequenceBack :
    let seq := [0, 0, 1, 1]
    let ds := [false, false, true, true]
    let s3 := withBits ds pairCode
    pairFreq.Inv ∧ seq ≠ [] ∧ (∀ sym ∈ seq, sym < pairFreq.cfg.nsym) ∧ seq.length < 2 ^ pairFreq.cfg.weightW ∧
      pairFreq.freqs = hostCount pairFreq.cfg seq ∧ exec .build pairFreq = .next pairTree ∧
      exec .genCodes pairTree = .next pairCode ∧ hostEncode pairCode seq = .ok ds ∧
      s3 = { pairCode with bits := s3.bits, bitLen := ds.length } ∧ ds.length ≤ pairFreq.cfg.bitsMax ∧
      s3.stream = ds := by
  refine ⟨pairFreq_inv, by decide, by decide +kernel, by decide +kernel, by decide +kernel, pairTree_next.1, ?_, ?_, withBits_eq _ _,
    by decide +kernel,
    by decide +kernel⟩
  · have h : (match exec .genCodes pairTree with | .next _ => true | .fault _ => false | .refused _ => false) = true := by
      decide +kernel
    unfold pairCode
    revert h
    cases exec .genCodes pairTree <;> simp [after]
  · decide +kernel

theorem witness_EncodedLengthIsTheWeightedSum :
    pairCode.freqs = hostCount pairCode.cfg [0, 0, 1, 1] ∧ (∀ sym ∈ [0, 0, 1, 1], sym < pairCode.cfg.nsym) ∧
      hostEncode pairCode [0, 0, 1, 1] = .ok [false, false, true, true] :=
  ⟨by decide +kernel, by decide +kernel, by decide +kernel⟩

/-- PROP-2: 9 ≤ 6·2 for "aaabbc", 8 ≤ 4·2 for "abcd", and the widths of other alphabets. -/
theorem test_fixed_width_bound :
    [fixedWidth 2, fixedWidth 3, fixedWidth 4, fixedWidth 5, fixedWidth 256] = [1, 2, 2, 3, 8] ∧
    (match hostEncode (coded aaabbc) [0, 0, 0, 1, 1, 2] with
      | .ok ds => ds.length = 9 ∧ ds.length ≤ 6 * fixedWidth 3
      | .error _ => False) := by
  constructor
  · decide +kernel
  · have h : hostEncode (coded aaabbc) [0, 0, 0, 1, 1, 2] =
        .ok [false, false, false, true, true, true, true, true, false] := by decide +kernel
    rw [h]
    exact ⟨rfl, by decide +kernel⟩

/-- The smallest alphabet the law speaks of. -/
theorem witness_EncodedLengthIsWithinTheFixedWidth :
    pairFreq.Inv ∧ (∀ sym ∈ [0, 0, 1, 1], sym < pairFreq.cfg.nsym) ∧
      [0, 0, 1, 1].length < 2 ^ pairFreq.cfg.weightW ∧
      pairFreq.freqs = hostCount pairFreq.cfg [0, 0, 1, 1] ∧ 2 ≤ pairFreq.presentSyms.length :=
  ⟨pairFreq_inv, by decide +kernel, by decide +kernel, by decide +kernel, by decide +kernel⟩

/-! ### Invariants -/

theorem witness_ResetMeetsTheInvariants : small.Legal ∧ Config.standard.Legal := by decide

theorem witness_StepKeepsInv : blank.Inv ∧ (∃ t, step blank = .next t) ∧ pairCode.Inv ∧ ∃ t, step pairCode = .next t :=
  ⟨blank_inv, ⟨_, rfl⟩, pairCode_inv, by
    have h : pairCode.script = [] := by decide +kernel
    have hb : pairCode.status.busy = false := by decide +kernel
    exact ⟨pairCode, by unfold step turn; rw [h]; unfold engineTurn; rw [hb]; rfl⟩⟩

theorem witness_StepKeepsTreeInv : pairCode.Inv ∧ pairCode.TreeInv ∧ (∃ t, step pairCode = .next t) ∧
    pairCode.status.treeValid = true :=
  ⟨pairCode_inv, pairCode_treeInv, witness_StepKeepsInv.2.2.2, by decide +kernel⟩

end Sys2Proof.Tests
end

section
/-! The host's encoder (00_scope.md R25): when it succeeds, and how long its answer is. -/

namespace Sys2Proof.Machine

@[simp] theorem CodeEntry.digits_length (e : CodeEntry) : e.digits.length = e.len := by
  simp [CodeEntry.digits]

/-- With a codeword for each symbol HostEncode answers the codewords in order. -/
theorem hostEncode_of_valid (s : State) : ∀ seq : List Nat, (∀ sym ∈ seq, (s.codeAt sym).valid = true) →
    hostEncode s seq = .ok (seq.flatMap fun sym => (s.codeAt sym).digits)
  | [], _ => rfl
  | sym :: seq, h => by
    obtain ⟨hsym, hseq⟩ := List.forall_mem_cons.1 h
    simp [hostEncode, hsym, hostEncode_of_valid s seq hseq]

/-- What HostEncode answers is the codewords in order. -/
theorem hostEncode_eq {s : State} : ∀ {seq : List Nat} {ds : List Bool}, hostEncode s seq = .ok ds →
    ds = seq.flatMap fun sym => (s.codeAt sym).digits
  | [], ds, h => by simpa [hostEncode, eq_comm] using h
  | sym :: seq, ds, h => by
    cases hv : (s.codeAt sym).valid with
    | false => simp [hostEncode, hv] at h
    | true =>
      cases hr : hostEncode s seq with
      | error e => simp [hostEncode, hv, hr] at h
      | ok es =>
        have hds : (s.codeAt sym).digits ++ es = ds := by simpa [hostEncode, hv, hr] using h
        rw [← hds, hostEncode_eq hr, List.flatMap_cons]

theorem hostEncode_length {s : State} {seq : List Nat} {ds : List Bool} (h : hostEncode s seq = .ok ds) :
    ds.length = (seq.map fun sym => (s.codeAt sym).len).sum := by
  simp [hostEncode_eq h, List.length_flatMap]

/-! ## Counts -/

/-- A sum over a sequence of numbers below `n`, taken number by number. -/
theorem sum_map_eq_sum_count {n : Nat} {seq : List Nat} (g : Nat → Nat) (h : ∀ x ∈ seq, x < n) :
    (seq.map g).sum = ((List.range n).map fun x => seq.count x * g x).sum := by
  have hsub : seq.toFinset ⊆ Finset.range n := fun x hx => Finset.mem_range.2 (h x (List.mem_toFinset.1 hx))
  calc (seq.map g).sum = ∑ x ∈ seq.toFinset, seq.count x * g x := by
        simpa using Finset.sum_list_map_count seq g
    _ = ∑ x ∈ Finset.range n, seq.count x * g x := by
        refine Finset.sum_subset hsub fun x _ hx => ?_
        rw [List.count_eq_zero.2 fun hm => hx (List.mem_toFinset.2 hm), Nat.zero_mul]
    _ = ((List.range n).map fun x => seq.count x * g x).sum := by
        rw [← List.toFinset_range, List.sum_toFinset _ List.nodup_range]

/-- FREQ is the counts of `seq` (R24): entry by entry. -/
theorem freqAt_of_hostCount {s : State} {seq : List Nat} (h : s.freqs = hostCount s.cfg seq) {sym : Nat}
    (hsym : sym < s.cfg.nsym) : s.freqAt sym = seq.count sym :=
  List.map_inj_left.1 h sym (List.mem_range.2 hsym)

/-- A sum over a sequence, told from the counts of its symbols in FREQ. -/
theorem sum_map_eq_sum_freqAt {s : State} {seq : List Nat} (h : s.freqs = hostCount s.cfg seq)
    (hseq : ∀ sym ∈ seq, sym < s.cfg.nsym) (g : Nat → Nat) :
    (seq.map g).sum = ((List.range s.cfg.nsym).map fun sym => s.freqAt sym * g sym).sum := by
  rw [sum_map_eq_sum_count g hseq]
  exact congrArg List.sum (List.map_congr_left fun sym hsym => by
    rw [freqAt_of_hostCount h (List.mem_range.1 hsym)])

/-- The counts of a sequence add up to its length. -/
theorem freqs_sum_of_hostCount {s : State} {seq : List Nat} (h : s.freqs = hostCount s.cfg seq)
    (hseq : ∀ sym ∈ seq, sym < s.cfg.nsym) : s.freqs.sum = seq.length := by
  simpa [State.freqs] using (sum_map_eq_sum_freqAt h hseq fun _ => 1).symm

/-- Settles O53: HostEncode's answer is the codewords in order, so its length is the sum of their lengths, taken
symbol by symbol. -/
theorem encodedLengthIsTheWeightedSum : Obligations.EncodedLengthIsTheWeightedSum := by
  intro s seq ds hfreq hseq henc
  rw [hostEncode_length henc, sum_map_eq_sum_freqAt hfreq hseq]

end Sys2Proof.Machine
end

section
/-! The heap (41_priority_queue.md R110 to R113): the two sift loops permute the queue and mend its order. -/

namespace Sys2Proof.Machine

/-! ## Keys by position -/

/-- The key of the entry at position `j` of the heap. -/
def State.posKey (s : State) (j : Nat) : Nat × Nat := s.key (s.heapAt j)

theorem lexLt_asymm {p q : Nat × Nat} (h : lexLt p q) : ¬ lexLt q p := by omega

theorem not_lexLt_trans {p q r : Nat × Nat} (h1 : ¬ lexLt p q) (h2 : ¬ lexLt q r) : ¬ lexLt p r := by omega

section
variable {s : State} (hl : s.cfg.Legal)
include hl

/-- A swap exchanges the keys of the two positions. -/
theorem posKey_swapHeap (i j k : Nat) :
    (swapHeap s i j).posKey k = if k = i then s.posKey j else if k = j then s.posKey i else s.posKey k := by
  simp only [State.posKey, key_swapHeap, heapAt_swapHeap s hl]
  split_ifs <;> rfl

theorem posKey_swapHeap_fst (i j : Nat) : (swapHeap s i j).posKey i = s.posKey j := by
  simp [posKey_swapHeap hl]

theorem posKey_swapHeap_snd {i j : Nat} : (swapHeap s i j).posKey j = s.posKey i := by
  by_cases h : j = i <;> simp [posKey_swapHeap hl, h]

theorem posKey_swapHeap_other {i j k : Nat} (hi : k ≠ i) (hj : k ≠ j) :
    (swapHeap s i j).posKey k = s.posKey k := by
  simp [posKey_swapHeap hl, hi, hj]

end

/-- The entry at the root of an ordered heap has the least key (R113). -/
theorem State.HeapOrder.root_least {s : State} (h : s.HeapOrder) :
    ∀ j, j < s.heapSize → ¬ lexLt (s.posKey j) (s.posKey 0) := by
  intro j
  induction j using Nat.strong_induction_on with
  | h j ih =>
    intro hj
    by_cases h0 : j = 0
    · subst h0; omega
    · exact not_lexLt_trans (h j (by omega) hj) (ih _ (by omega) (by omega))

/-! ## Sift-up -/

/-- The heap is in order but for the entry at `i`, whose key may be below its parent's (R111). -/
structure State.OrderButUp (s : State) (i : Nat) : Prop where
  others : ∀ j, 1 ≤ j → j < s.heapSize → j ≠ i → ¬ lexLt (s.posKey j) (s.posKey ((j - 1) / 2))
  skip : ∀ j, 1 ≤ i → j < s.heapSize → 1 ≤ j → (j - 1) / 2 = i →
    ¬ lexLt (s.posKey j) (s.posKey ((i - 1) / 2))

/-- A turn of sift-up moves the exception to the parent. -/
theorem State.OrderButUp.swap {s : State} (hl : s.cfg.Legal) {i p : Nat} (h : s.OrderButUp i) (h0 : 1 ≤ i)
    (hi : i < s.heapSize) (hp : (i - 1) / 2 = p) (hlt : lexLt (s.posKey i) (s.posKey p)) :
    (swapHeap s i p).OrderButUp p where
  others j h1 hj hjp := by
    rw [swapHeap_heapSize] at hj
    by_cases hji : j = i
    · subst hji
      rw [hp, posKey_swapHeap_fst hl, posKey_swapHeap_snd hl]
      exact lexLt_asymm hlt
    · rw [posKey_swapHeap_other hl hji hjp]
      have hj' := h.others j h1 hj hji
      by_cases hpi : (j - 1) / 2 = i
      · rw [hpi, posKey_swapHeap_fst hl]
        exact hp ▸ h.skip j h0 hj h1 hpi
      · by_cases hpp : (j - 1) / 2 = p
        · rw [hpp] at hj' ⊢
          rw [posKey_swapHeap_snd hl]
          exact not_lexLt_trans hj' (lexLt_asymm hlt)
        · rwa [posKey_swapHeap_other hl hpi hpp]
  skip j hp1 hj h1 hjp := by
    rw [swapHeap_heapSize] at hj
    rw [posKey_swapHeap_other hl (k := (p - 1) / 2) (by omega) (by omega)]
    have hpar := h.others p hp1 (by omega) (by omega)
    by_cases hji : j = i
    · rw [hji, posKey_swapHeap_fst hl]
      exact hpar
    · rw [posKey_swapHeap_other hl hji (by omega)]
      exact not_lexLt_trans (hjp ▸ h.others j h1 hj hji) hpar

/-- Sifting up mends the order. -/
theorem siftUp_heapOrder : ∀ (fuel i : Nat) (s : State), s.cfg.Legal → i ≤ fuel → i < s.heapSize →
    s.OrderButUp i → (siftUp fuel i s).HeapOrder
  | 0, i, s, _, hf, _, h => fun j h1 hj => h.others j h1 hj (by omega)
  | fuel + 1, i, s, hl, hf, hi, h => by
    unfold siftUp
    split
    next h0 => exact fun j h1 hj => h.others j h1 hj (by omega)
    next h0 =>
      split
      next hlt =>
        exact siftUp_heapOrder fuel _ _ (by simpa using hl) (by omega) (by simp; omega)
          (h.swap hl (by omega) hi rfl hlt)
      next hnot =>
        intro j h1 hj
        by_cases hji : j = i
        · exact hji ▸ hnot
        · exact h.others j h1 hj hji

/-! ## Sift-down -/

/-- The heap is in order but for the entry at `i`, whose key may be above its children's (R112). -/
structure State.OrderButDown (s : State) (i : Nat) : Prop where
  others : ∀ j, 1 ≤ j → j < s.heapSize → (j - 1) / 2 ≠ i → ¬ lexLt (s.posKey j) (s.posKey ((j - 1) / 2))
  skip : ∀ j, 1 ≤ i → j < s.heapSize → 1 ≤ j → (j - 1) / 2 = i →
    ¬ lexLt (s.posKey j) (s.posKey ((i - 1) / 2))

/-- No child's key is below that of the smaller child. -/
theorem smallerChild_least (s : State) {i j : Nat} (hj : j < s.heapSize) (h1 : 1 ≤ j) (hp : (j - 1) / 2 = i) :
    ¬ lexLt (s.posKey j) (s.posKey (smallerChild s i)) := by
  have hcases : j = 2 * i + 1 ∨ j = 2 * i + 2 := by omega
  unfold smallerChild
  split
  next h =>
    obtain ⟨-, hlt⟩ := h
    rcases hcases with rfl | rfl
    · exact lexLt_asymm hlt
    · omega
  next h =>
    rcases hcases with rfl | rfl
    · omega
    · exact fun hlt => h ⟨hj, hlt⟩

/-- A turn of sift-down moves the exception to the smaller child. -/
theorem State.OrderButDown.swap {s : State} (hl : s.cfg.Legal) {i c : Nat} (h : s.OrderButDown i)
    (hc : smallerChild s i = c) (hi : 2 * i + 1 < s.heapSize) (hlt : lexLt (s.posKey c) (s.posKey i)) :
    (swapHeap s c i).OrderButDown c := by
  obtain ⟨hchild, hcs⟩ := smallerChild_cases s i hi
  rw [hc] at hchild hcs
  have hpc : (c - 1) / 2 = i := by omega
  refine ⟨fun j h1 hj hjc => ?_, fun j hc1 hj h1 hjc => ?_⟩
  · rw [swapHeap_heapSize] at hj
    by_cases hjc' : j = c
    · rw [hjc', hpc, posKey_swapHeap_fst hl, posKey_swapHeap_snd hl]
      exact lexLt_asymm hlt
    · by_cases hji : j = i
      · subst hji
        rw [posKey_swapHeap_snd hl, posKey_swapHeap_other hl hjc (by omega)]
        exact h.skip c h1 hcs (by omega) hpc
      · rw [posKey_swapHeap_other hl hjc' hji]
        by_cases hpi : (j - 1) / 2 = i
        · rw [hpi, posKey_swapHeap_snd hl]
          exact hc ▸ smallerChild_least s hj h1 hpi
        · rw [posKey_swapHeap_other hl hjc hpi]
          exact h.others j h1 hj hpi
  · rw [swapHeap_heapSize] at hj
    rw [hpc, posKey_swapHeap_snd hl, posKey_swapHeap_other hl (by omega) (by omega)]
    exact hjc ▸ h.others j h1 hj (by omega)

/-- Sifting down mends the order. -/
theorem siftDown_heapOrder : ∀ (fuel i : Nat) (s : State), s.cfg.Legal → s.heapSize ≤ fuel + i →
    s.OrderButDown i → (siftDown fuel i s).HeapOrder
  | 0, i, s, _, hf, h => fun j h1 hj => h.others j h1 hj (by simp only [siftDown] at hj; omega)
  | fuel + 1, i, s, hl, hf, h => by
    unfold siftDown
    split
    next hleaf => exact fun j h1 hj => h.others j h1 hj (by omega)
    next hin =>
      have hc := smallerChild_cases s i (by omega)
      split
      next hlt =>
        exact siftDown_heapOrder fuel _ _ (by simpa using hl) (by simp; omega) (h.swap hl rfl (by omega) hlt)
      next hnot =>
        intro j h1 hj
        by_cases hji : (j - 1) / 2 = i
        · have hleast := smallerChild_least s hj h1 hji
          exact hji ▸ not_lexLt_trans hleast hnot
        · exact h.others j h1 hj hji

/-! ## The queue is permuted -/

@[simp] theorem queue_length (s : State) : s.queue.length = s.heapSize := by simp [State.queue]

/-- A swap of two entries permutes the queue. -/
theorem queue_swapHeap {s : State} (hl : s.cfg.Legal) {i j : Nat} (hi : i < s.heapSize) (hj : j < s.heapSize) :
    (swapHeap s i j).queue.Perm s.queue := by
  have hat : (swapHeap s i j).heapAt = s.heapAt ∘ Equiv.swap i j := by
    funext k
    rw [heapAt_swapHeap s hl, Function.comp_apply, Equiv.swap_apply_def]
    split_ifs <;> rfl
  have hswap : ((List.range s.heapSize).map (Equiv.swap i j)).Perm (List.range s.heapSize) := by
    refine (List.perm_ext_iff_of_nodup (List.nodup_range.map (Equiv.injective _)) List.nodup_range).2 fun k => ?_
    simp only [List.mem_map, List.mem_range]
    constructor
    · rintro ⟨x, hx, rfl⟩
      rw [Equiv.swap_apply_def]; split_ifs <;> assumption
    · intro hk
      refine ⟨Equiv.swap i j k, ?_, Equiv.swap_apply_self i j k⟩
      rw [Equiv.swap_apply_def]; split_ifs <;> assumption
  have := hswap.map s.heapAt
  rwa [List.map_map, ← hat] at this

theorem queue_siftUp : ∀ (fuel i : Nat) (s : State), s.cfg.Legal → i < s.heapSize →
    (siftUp fuel i s).queue.Perm s.queue
  | 0, _, s, _, _ => .refl _
  | fuel + 1, i, s, hl, hi => by
    unfold siftUp
    split
    · exact .refl _
    · split
      · exact (queue_siftUp fuel _ _ (by simpa using hl) (by simp; omega)).trans
          (queue_swapHeap hl hi (by omega))
      · exact .refl _

theorem queue_siftDown : ∀ (fuel i : Nat) (s : State), s.cfg.Legal → i < s.heapSize →
    (siftDown fuel i s).queue.Perm s.queue
  | 0, _, s, _, _ => .refl _
  | fuel + 1, i, s, hl, hi => by
    unfold siftDown
    split
    · exact .refl _
    · have hc := (smallerChild_cases s i (by omega)).2
      split
      · exact (queue_siftDown fuel _ _ (by simpa using hl) (by simpa using hc)).trans
          (queue_swapHeap hl hc hi)
      · exact .refl _

/-! ## PQInsert -/

/-- `PQInsert` before it sifts: the new entry stands behind the queue (R111). -/
def appendEntry (id : Nat) (s : State) : State := { setHeap s s.heapSize id with heapSize := s.heapSize + 1 }

theorem pqInsert_eq_siftUp (id : Nat) (s : State) :
    pqInsert id s = siftUp s.heapSize s.heapSize (appendEntry id s) := rfl

theorem appendEntry_heapAt_other (id : Nat) (s : State) {j : Nat} (hj : j ≠ s.heapSize) :
    (appendEntry id s).heapAt j = s.heapAt j := heapAt_setHeap_other s id hj

theorem queue_appendEntry {s : State} (hl : s.cfg.Legal) {id : Nat} (hid : id < 2 ^ s.cfg.idW) :
    (appendEntry id s).queue = s.queue ++ [id] := by
  have hnew : (appendEntry id s).heapAt s.heapSize = id := (heapAt_setHeap_same s hl _ id).trans (low_of_lt hid)
  have hold : ∀ j ∈ List.range s.heapSize, (appendEntry id s).heapAt j = s.heapAt j := fun j hj =>
    appendEntry_heapAt_other id s (Nat.ne_of_lt (List.mem_range.1 hj))
  show (List.range (s.heapSize + 1)).map _ = _
  rw [List.range_succ, List.map_append, List.map_congr_left hold, List.map_singleton, hnew, State.queue]

/-- `PQInsert` adds its entry to the queue. -/
theorem queue_pqInsert {s : State} (hl : s.cfg.Legal) {id : Nat} (hid : id < 2 ^ s.cfg.idW) :
    (pqInsert id s).queue.Perm (id :: s.queue) := by
  have hsift := queue_siftUp s.heapSize s.heapSize (appendEntry id s) hl (Nat.lt_succ_self _)
  rw [queue_appendEntry hl hid] at hsift
  exact hsift.trans (List.perm_append_singleton id s.queue)

/-- `PQInsert` keeps the heap invariant (R113). -/
theorem pqInsert_heapOrder {s : State} (hl : s.cfg.Legal) (h : s.HeapOrder) (id : Nat) :
    (pqInsert id s).HeapOrder := by
  have hold : ∀ j, j ≠ s.heapSize → (appendEntry id s).posKey j = s.posKey j := fun j hj =>
    congrArg s.key (appendEntry_heapAt_other id s hj)
  have hsize : (appendEntry id s).heapSize = s.heapSize + 1 := rfl
  rw [pqInsert_eq_siftUp]
  refine siftUp_heapOrder _ _ _ hl le_rfl (Nat.lt_succ_self _) ⟨fun j h1 hj hne => ?_, fun j _ hj _ hp => ?_⟩
  · rw [hold j hne, hold _ (by omega)]
    exact h j h1 (by omega)
  · omega

/-! ## PQExtract -/

/-- `PQExtract` before it sifts: the last entry stands at the root (R112). -/
def lastToRoot (s : State) : State := setHeap { s with heapSize := s.heapSize - 1 } 0 (s.heapAt (s.heapSize - 1))

theorem pqRemoveRoot_of_one {s : State} (h : s.heapSize - 1 = 0) : pqRemoveRoot s = { s with heapSize := 0 } := by
  simp [pqRemoveRoot, h]

theorem pqRemoveRoot_of_more {s : State} (h : s.heapSize - 1 ≠ 0) :
    pqRemoveRoot s = siftDown (s.heapSize - 1) 0 (lastToRoot s) := by
  simp [pqRemoveRoot, lastToRoot, h]

theorem lastToRoot_heapAt_zero {s : State} (hl : s.cfg.Legal) :
    (lastToRoot s).heapAt 0 = s.heapAt (s.heapSize - 1) :=
  (heapAt_setHeap_same _ hl _ _).trans (low_of_lt (heapAt_lt s _))

theorem lastToRoot_heapAt_other (s : State) {j : Nat} (hj : j ≠ 0) : (lastToRoot s).heapAt j = s.heapAt j :=
  heapAt_setHeap_other _ _ hj

theorem queue_eq_cons {s : State} {n : Nat} (hn : s.heapSize = n + 1) :
    s.queue = s.heapAt 0 :: (List.range n).map (fun j => s.heapAt (j + 1)) := by
  simp [State.queue, hn, List.range_succ_eq_map, Function.comp_def]

/-- The queue is its root and what `PQExtract` leaves of it. -/
theorem queue_pqRemoveRoot {s : State} (hl : s.cfg.Legal) (h0 : 0 < s.heapSize) :
    s.queue.Perm (s.heapAt 0 :: (pqRemoveRoot s).queue) := by
  obtain ⟨n, hn⟩ : ∃ n, s.heapSize = n + 1 := ⟨s.heapSize - 1, by omega⟩
  rw [queue_eq_cons hn]
  refine List.Perm.cons _ ?_
  cases n with
  | zero => rw [pqRemoveRoot_of_one (by omega)]; simp [State.queue]
  | succ m =>
    have hsize : (lastToRoot s).heapSize = m + 1 := by simp [lastToRoot, hn]
    have hlast : (lastToRoot s).queue = s.heapAt (m + 1) :: (List.range m).map (fun j => s.heapAt (j + 1)) := by
      rw [queue_eq_cons hsize, lastToRoot_heapAt_zero hl, hn]
      exact congrArg _ (List.map_congr_left fun j _ => lastToRoot_heapAt_other s (by omega))
    have hsift := queue_siftDown (s.heapSize - 1) 0 (lastToRoot s) hl (by omega)
    rw [pqRemoveRoot_of_more (by omega), List.range_succ, List.map_append, List.map_singleton]
    exact (List.perm_append_singleton _ _).trans (hlast ▸ hsift.symm)

/-- `PQExtract` keeps the heap invariant (R113). -/
theorem pqRemoveRoot_heapOrder {s : State} (hl : s.cfg.Legal) (h : s.HeapOrder) : (pqRemoveRoot s).HeapOrder := by
  by_cases hz : s.heapSize - 1 = 0
  · rw [pqRemoveRoot_of_one hz]
    exact fun j h1 hj => absurd hj (by simp)
  · rw [pqRemoveRoot_of_more hz]
    have hold : ∀ j, j ≠ 0 → (lastToRoot s).posKey j = s.posKey j := fun j hj =>
      congrArg s.key (lastToRoot_heapAt_other s hj)
    have hsize : (lastToRoot s).heapSize = s.heapSize - 1 := rfl
    refine siftDown_heapOrder _ _ _ hl (by omega) ⟨fun j h1 hj hne => ?_, fun j h1 => by omega⟩
    rw [hold j (by omega), hold _ hne]
    exact h j h1 (by omega)

end Sys2Proof.Machine
end

section
/-! Trees: their slots, symbols, paths and costs, with no machine state but the arena they stand in. -/

namespace Sys2Proof.Machine.HTree

/-! ## Counting -/

theorem symbols_length_pos : ∀ T : HTree, 0 < T.symbols.length
  | .leaf _ _ _ => Nat.one_pos
  | .node _ l r => by
    have := symbols_length_pos l
    simp only [symbols, List.length_append]; omega

/-- A full binary tree has one node less than twice its leaves (10_state.md R45). -/
theorem ids_length : ∀ T : HTree, T.ids.length + 1 = 2 * T.symbols.length
  | .leaf _ _ _ => rfl
  | .node _ l r => by
    have hl := ids_length l
    have hr := ids_length r
    simp only [ids, symbols, List.length_cons, List.length_append]; omega

@[simp] theorem id_leaf (id sym w : Nat) : (leaf id sym w).id = id := rfl

@[simp] theorem id_node (id : Nat) (l r : HTree) : (node id l r).id = id := rfl

theorem id_mem_ids : ∀ T : HTree, T.id ∈ T.ids
  | .leaf _ _ _ => by simp [ids]
  | .node _ _ _ => by simp [ids]

/-! ## Paths -/

theorem paths_map_fst : ∀ T : HTree, T.paths.map Prod.fst = T.symbols
  | .leaf _ _ _ => rfl
  | .node _ l r => by
    simp [paths, symbols, Function.comp_def, ← paths_map_fst l, ← paths_map_fst r]

/-- A path passes fewer nodes than the tree has leaves. -/
theorem path_length_lt : ∀ {T : HTree} {p : Nat × List Bool}, p ∈ T.paths → p.2.length < T.symbols.length
  | .leaf _ _ _, p, h => by simp_all [paths, symbols]
  | .node _ l r, p, h => by
    have hl := symbols_length_pos l
    have hr := symbols_length_pos r
    simp only [paths, List.mem_append, List.mem_map] at h
    simp only [symbols, List.length_append]
    rcases h with ⟨q, hq, rfl⟩ | ⟨q, hq, rfl⟩
    · have := path_length_lt hq
      simp only [List.length_cons]; omega
    · have := path_length_lt hq
      simp only [List.length_cons]; omega

theorem table_map_fst (T : HTree) : T.table.map Prod.fst = T.symbols := by
  cases T with
  | leaf id sym w => rfl
  | node id l r => exact paths_map_fst _

/-- Two symbols or more are the paths' table: the codeword "0" of R129 is for one symbol only. -/
theorem table_eq_paths {T : HTree} (h : 2 ≤ T.symbols.length) : T.table = T.paths := by
  cases T with
  | leaf id sym w => simp [symbols] at h
  | node id l r => rfl

/-! ## Weights and costs -/

/-- Each leaf's weight is the count of its symbol. -/
def WeighedBy (count : Nat → Nat) : HTree → Prop
  | .leaf _ sym w => w = count sym
  | .node _ l r => l.WeighedBy count ∧ r.WeighedBy count

theorem WeighedBy.weight_eq {count : Nat → Nat} : ∀ {T : HTree}, T.WeighedBy count →
    T.weight = (T.symbols.map count).sum
  | .leaf _ _ _, h => by simpa [weight, symbols, WeighedBy] using h
  | .node _ l r, ⟨hl, hr⟩ => by simp [weight, symbols, hl.weight_eq, hr.weight_eq]

/-- The sum of the weights of the internal nodes. -/
def innerWeight : HTree → Nat
  | .leaf _ _ _ => 0
  | .node _ l r => l.innerWeight + r.innerWeight + (l.weight + r.weight)

/-- One more digit on every path costs the count of every symbol once more. -/
theorem sum_paths_cons (count : Nat → Nat) (d : Bool) (T : HTree) :
    ((T.paths.map fun p => (p.1, d :: p.2)).map fun p => count p.1 * p.2.length).sum =
      T.cost count + (T.symbols.map count).sum := by
  rw [cost, ← paths_map_fst, List.map_map, List.map_map, ← List.sum_map_add]
  rfl

/-- The weighted path length is the sum of the weights of the internal nodes. -/
theorem WeighedBy.cost_eq {count : Nat → Nat} : ∀ {T : HTree}, T.WeighedBy count → T.cost count = T.innerWeight
  | .leaf _ _ _, _ => by simp [cost, paths, innerWeight]
  | .node id l r, ⟨hl, hr⟩ => by
    rw [cost, paths, List.map_append, List.sum_append, sum_paths_cons, sum_paths_cons, hl.cost_eq, hr.cost_eq,
      ← hl.weight_eq, ← hr.weight_eq, innerWeight]
    omega

/-! ## In the arena -/

theorem InArena.id_lt {s : State} : ∀ {T : HTree}, T.InArena s → T.id < s.cfg.nodeMax
  | .leaf _ _ _, ⟨h, _⟩ => h
  | .node _ _ _, ⟨⟨h, _⟩, _⟩ => h

/-- The root's slot holds the tree's weight (42_tree_builder.md R122). -/
theorem InArena.key {s : State} : ∀ {T : HTree}, T.InArena s → s.key T.id = (T.weight, T.id)
  | .leaf _ _ _, ⟨_, h⟩ => by simp [State.key, weight, h]
  | .node _ _ _, ⟨⟨_, h⟩, _⟩ => by simp [State.key, weight, h]

theorem InArena.symbols_lt {s : State} : ∀ {T : HTree}, T.InArena s → ∀ sym ∈ T.symbols, sym < s.cfg.nsym
  | .leaf id sym _, ⟨_, h⟩ => by
    have hs := nodeAt_sym_lt s id
    rw [h] at hs
    simpa [symbols] using hs
  | .node _ l r, ⟨_, hl, hr⟩ => by
    intro sym hsym
    rcases List.mem_append.1 hsym with h | h
    · exact hl.symbols_lt sym h
    · exact hr.symbols_lt sym h

/-- Whether a tree stands in the arena depends on its own slots only. -/
theorem InArena.congr {s t : State} (hc : t.cfg = s.cfg) : ∀ {T : HTree}, T.InArena s →
    (∀ id ∈ T.ids, t.nodeAt id = s.nodeAt id) → T.InArena t
  | .leaf id _ _, ⟨hlt, hn⟩, h => ⟨hc ▸ hlt, by rw [h id (by simp [ids]), hn, hc]⟩
  | .node id l r, ⟨⟨hlt, hn⟩, hl, hr⟩, h =>
    ⟨⟨hc ▸ hlt, by rw [h id (by simp [ids]), hn]⟩,
      hl.congr hc fun i hi => h i (by simp [ids, hi]),
      hr.congr hc fun i hi => h i (by simp [ids, hi])⟩

theorem InArena.of_nodeAt_eq {s t : State} (hc : t.cfg = s.cfg) (hn : t.nodeAt = s.nodeAt) {T : HTree}
    (h : T.InArena s) : T.InArena t :=
  h.congr hc fun _ _ => by rw [hn]

/-- A tree with distinct symbols has no more nodes than the arena. -/
theorem InArena.ids_length_le {s : State} {T : HTree} (h : T.InArena s) (hnd : T.symbols.Nodup) :
    T.symbols.length ≤ s.cfg.nsym ∧ T.ids.length ≤ s.cfg.nodeMax := by
  have hsub : T.symbols ⊆ List.range s.cfg.nsym := fun sym hsym => List.mem_range.2 (h.symbols_lt sym hsym)
  have hle : T.symbols.length ≤ s.cfg.nsym := by simpa using (hnd.subperm hsub).length_le
  have := T.ids_length
  exact ⟨hle, by rw [Config.nodeMax]; omega⟩

end Sys2Proof.Machine.HTree
end

section
/-! Huffman's algorithm (42_tree_builder.md R127), on forests of trees with no machine state: no assignment of depths
that meets Kraft's inequality costs less than the tree it ends with. -/

namespace Sys2Proof.Machine

/-- Huffman's algorithm from a forest to a tree: two trees of least weight become siblings, until one tree is left. -/
inductive Huffman : List HTree → HTree → Prop where
  | single (T : HTree) : Huffman [T] T
  | merge {F rest : List HTree} {a b T : HTree} (id : Nat) (pick : F.Perm (a :: b :: rest))
      (first : a.weight ≤ b.weight) (second : ∀ c ∈ rest, b.weight ≤ c.weight)
      (next : Huffman (.node id a b :: rest) T) : Huffman F T

theorem Huffman.symbols_perm {F : List HTree} {T : HTree} (h : Huffman F T) :
    T.symbols.Perm (F.flatMap HTree.symbols) := by
  induction h with
  | single T => simp
  | merge id pick _ _ _ ih =>
    refine ih.trans (.trans ?_ (pick.flatMap_right _).symm)
    simp [HTree.symbols]

theorem Huffman.weighedBy {count : Nat → Nat} {F : List HTree} {T : HTree} (h : Huffman F T) :
    (∀ U ∈ F, U.WeighedBy count) → T.WeighedBy count := by
  induction h with
  | single T => exact fun hF => hF T (by simp)
  | merge id pick _ _ _ ih =>
    intro hF
    have hpick := fun U hU => hF U (pick.mem_iff.2 hU)
    refine ih fun U hU => ?_
    rcases List.mem_cons.1 hU with rfl | hU
    · exact ⟨hpick _ (by simp), hpick _ (by simp)⟩
    · exact hpick U (by simp [hU])

/-! ## Depths -/

/-- The room depths take of `2 ^ L`, if a node of depth `d` takes `2 ^ (L - d)`. -/
def room (L : Nat) (depths : List Nat) : Nat := (depths.map fun d => 2 ^ (L - d)).sum

/-- Kraft's inequality for depths up to `L`. -/
def Kraft (L : Nat) (depths : List Nat) : Prop := (∀ d ∈ depths, d ≤ L) ∧ room L depths ≤ 2 ^ L

theorem Kraft.of_perm {L : Nat} {D E : List Nat} (h : Kraft L D) (hp : D.Perm E) : Kraft L E :=
  ⟨fun d hd => h.1 d (hp.mem_iff.2 hd), le_of_eq_of_le (hp.map _).sum_eq.symm h.2⟩

/-- Cutting depths down to `L` takes the room of one node for each that was cut. -/
theorem room_min (L : Nat) : ∀ D : List Nat, (∀ d ∈ D, d ≤ L + 1) →
    2 * room L (D.map fun d => min d L) = room (L + 1) D + D.count (L + 1)
  | [], _ => by simp [room]
  | d :: D, h => by
    obtain ⟨hd, hD⟩ := List.forall_mem_cons.1 h
    have ih := room_min L D hD
    simp only [room, List.map_cons, List.sum_cons, List.count_cons] at ih ⊢
    by_cases hL : d = L + 1
    · subst hL
      simp only [Nat.min_eq_right (Nat.le_succ L), Nat.sub_self, pow_zero, beq_self_eq_true, if_true]
      omega
    · rw [Nat.min_eq_left (by omega), Nat.succ_sub (by omega), Nat.pow_succ, if_neg (by simpa using hL)]
      omega

/-- One node alone at the greatest depth can go one up: the room at that depth is even (this is the parity argument of
the optimality proof, hidden in the division by two). -/
theorem Kraft.cut {L : Nat} {D : List Nat} (h : Kraft (L + 1) D) (hone : D.count (L + 1) ≤ 1) :
    Kraft L (D.map fun d => min d L) := by
  obtain ⟨hle, hroom⟩ := h
  have := room_min L D hle
  refine ⟨fun d hd => ?_, by omega⟩
  obtain ⟨e, _, rfl⟩ := List.mem_map.1 hd
  exact Nat.min_le_right e L

/-! ## Weights at depths -/

/-- The cost of weights at depths: pairs of a weight and its depth. -/
def depthCost (G : List (Nat × Nat)) : Nat := (G.map fun p => p.1 * p.2).sum

@[simp] theorem depthCost_cons (p : Nat × Nat) (G : List (Nat × Nat)) :
    depthCost (p :: G) = p.1 * p.2 + depthCost G := by simp [depthCost]

theorem depthCost_perm {G H : List (Nat × Nat)} (h : G.Perm H) : depthCost G = depthCost H := (h.map _).sum_eq

/-- Exchange: a least weight can go to the greatest depth `L`, at no more cost. -/
theorem exists_least_deepest {L a : Nat} {G : List (Nat × Nat)} {W : List Nat}
    (hW : (G.map Prod.fst).Perm (a :: W)) (least : ∀ w ∈ W, a ≤ w) (hL : L ∈ G.map Prod.snd)
    (hmax : ∀ d ∈ G.map Prod.snd, d ≤ L) :
    ∃ R, (R.map Prod.fst).Perm W ∧ (G.map Prod.snd).Perm (L :: R.map Prod.snd) ∧
      a * L + depthCost R ≤ depthCost G := by
  obtain ⟨⟨a', d⟩, hmem, rfl⟩ := List.mem_map.1 (hW.mem_iff.2 (List.mem_cons_self ..))
  have hG := List.perm_cons_erase hmem
  generalize G.erase (a', d) = G1 at hG
  have hW1 : (G1.map Prod.fst).Perm W := ((hG.map Prod.fst).symm.trans hW).cons_inv
  have hcost := depthCost_perm hG
  have hD := hG.map Prod.snd
  rw [depthCost_cons] at hcost
  by_cases hd : d = L
  · subst hd
    exact ⟨G1, hW1, hD, hcost.ge⟩
  · have hL1 : L ∈ G1.map Prod.snd := by
      rcases List.mem_cons.1 (hD.mem_iff.1 hL) with h | h
      · exact absurd h.symm hd
      · exact h
    obtain ⟨⟨v, L'⟩, hv, rfl⟩ := List.mem_map.1 hL1
    have hG1 := List.perm_cons_erase hv
    generalize G1.erase (v, L') = G2 at hG1
    have hav : a' ≤ v := least v (hW1.mem_iff.1 (List.mem_map_of_mem (f := Prod.fst) hv))
    have hdL : d ≤ L' := hmax d (List.mem_map_of_mem (f := Prod.snd) hmem)
    refine ⟨(v, d) :: G2, (hG1.map Prod.fst).symm.trans hW1, ?_, ?_⟩
    · exact hD.trans (((hG1.map Prod.snd).cons d).trans (.swap L' d _))
    · have := mul_add_mul_le_mul_add_mul hav hdL
      rw [hcost, depthCost_perm hG1, depthCost_cons, depthCost_cons]
      simp only
      omega

/-- Two least weights can become siblings at no more cost: their parent then stands at depth `e`. -/
theorem exists_siblings {a b : Nat} {W : List Nat} (hab : a ≤ b) (hb : ∀ w ∈ W, b ≤ w) :
    ∀ (L : Nat) (G : List (Nat × Nat)), (G.map Prod.fst).Perm (a :: b :: W) → Kraft L (G.map Prod.snd) →
      ∃ e M R, (R.map Prod.fst).Perm W ∧ Kraft M (e :: R.map Prod.snd) ∧
        (a + b) * (e + 1) + depthCost R ≤ depthCost G
  | 0, G, hW, hK => by
    have hlen := hW.length_eq
    have hroom := hK.2
    simp [room, Function.comp_def] at hlen hroom
    omega
  | L + 1, G, hW, hK => by
    by_cases htwo : 2 ≤ (G.map Prod.snd).count (L + 1)
    · have hmax := hK.1
      obtain ⟨R1, hW1, hD1, hc1⟩ := exists_least_deepest hW
        (List.forall_mem_cons.2 ⟨hab, fun w hw => hab.trans (hb w hw)⟩)
        (List.count_pos_iff.1 (by omega)) hmax
      have hL1 : L + 1 ∈ R1.map Prod.snd := by
        rw [hD1.count_eq, List.count_cons_self] at htwo
        exact List.count_pos_iff.1 (by omega)
      obtain ⟨R, hW2, hD2, hc2⟩ := exists_least_deepest hW1 hb hL1
        fun d hd => hmax d (hD1.mem_iff.2 (List.mem_cons_of_mem _ hd))
      obtain ⟨hle, hroom⟩ := hK.of_perm (hD1.trans (hD2.cons _))
      refine ⟨L, L + 1, R, hW2, ⟨fun d hd => ?_, ?_⟩, ?_⟩
      · rcases List.mem_cons.1 hd with rfl | hd
        · omega
        · exact hle d (by simp [hd])
      · simp only [room, List.map_cons, List.sum_cons, Nat.sub_self, pow_zero, Nat.add_sub_cancel_left,
          pow_one] at hroom ⊢
        omega
      · rw [Nat.add_mul]; omega
    · obtain ⟨e, M, R, hR, hKR, hc⟩ := exists_siblings hab hb L (G.map fun p => (p.1, min p.2 L))
        (by simpa [Function.comp_def] using hW)
        (by simpa [Function.comp_def] using hK.cut (by omega))
      refine ⟨e, M, R, hR, hKR, hc.trans ?_⟩
      simp only [depthCost, List.map_map]
      exact List.sum_le_sum fun p _ => Nat.mul_le_mul_left _ (Nat.min_le_left _ _)

/-- The optimality of Huffman's algorithm (R127), against every assignment of depths that meets Kraft's inequality. -/
theorem Huffman.innerWeight_le {F : List HTree} {T : HTree} (h : Huffman F T) :
    ∀ {L : Nat} {G : List (Nat × Nat)}, (G.map Prod.fst).Perm (F.map HTree.weight) → Kraft L (G.map Prod.snd) →
      T.innerWeight ≤ (F.map HTree.innerWeight).sum + depthCost G := by
  induction h with
  | single T => intro L G _ _; simp
  | @merge F rest a b T id pick first second _ ih =>
    intro L G hW hK
    obtain ⟨e, M, R, hR, hKR, hc⟩ := exists_siblings (W := rest.map HTree.weight) first (by simpa using second)
      L G (hW.trans (pick.map _)) hK
    have hnext := ih (L := M) (G := (a.weight + b.weight, e) :: R) (hR.cons _) hKR
    have hsum := (pick.map HTree.innerWeight).sum_eq
    simp only [List.map_cons, List.sum_cons, depthCost_cons, HTree.innerWeight] at hnext hsum
    rw [Nat.mul_succ] at hc
    omega

/-- Huffman's tree costs no more than one with all its leaves at depth `B`. -/
theorem Huffman.innerWeight_le_fixed {F : List HTree} {T : HTree} (h : Huffman F T) {B : Nat}
    (hB : F.length ≤ 2 ^ B) :
    T.innerWeight ≤ (F.map HTree.innerWeight).sum + (F.map HTree.weight).sum * B := by
  have hle := h.innerWeight_le (L := B) (G := F.map fun U => (U.weight, B)) (by simp [Function.comp_def])
    ⟨by simp, by simpa [room, Function.comp_def] using hB⟩
  simpa [depthCost, Function.comp_def, List.sum_map_mul_right] using hle

end Sys2Proof.Machine
end

section
/-! BUILD (42_tree_builder.md R117 to R126): the trees whose roots are queued are a forest in the arena, each merge is
a step of Huffman's algorithm on it, and one tree is left. -/

namespace Sys2Proof.Machine

/-! ## The queue of a forest -/

/-- The queue of `s` holds the roots of the trees `F`, in heap order, and the trees stand in the arena. -/
structure State.Queues (s : State) (F : List HTree) : Prop where
  legal : s.cfg.Legal
  inArena : ∀ T ∈ F, T.InArena s
  roots : (F.map HTree.id).Perm s.queue
  order : s.HeapOrder

theorem State.HeapOrder.congr {s t : State} (h : s.HeapOrder) (hsize : t.heapSize = s.heapSize)
    (hkey : ∀ j < s.heapSize, t.posKey j = s.posKey j) : t.HeapOrder := by
  intro j h1 hj
  rw [hsize] at hj
  show ¬ lexLt (t.posKey j) (t.posKey _)
  rw [hkey j hj, hkey _ (by omega)]
  exact h j h1 hj

namespace State.Queues

variable {s : State} {F : List HTree}

theorem heapSize_eq (h : s.Queues F) : s.heapSize = F.length := by
  simpa using h.roots.length_eq.symm

theorem of_perm {F' : List HTree} (h : s.Queues F) (hp : F.Perm F') : s.Queues F' where
  legal := h.legal
  inArena T hT := h.inArena T (hp.mem_iff.2 hT)
  roots := (hp.map _).symm.trans h.roots
  order := h.order

/-- A tree whose root is written into a slot that no queued tree uses joins the queue. -/
theorem plant (h : s.Queues F) {T : HTree} {n : Node} (fresh : ∀ U ∈ F, T.id ∉ U.ids)
    (hT : T.InArena (setNode s T.id n)) : (pqInsert T.id (setNode s T.id n)).Queues (T :: F) := by
  have hl : (setNode s T.id n).cfg.Legal := by simpa using h.legal
  have hq : (setNode s T.id n).queue = s.queue := by simp [State.queue]
  have hkey : ∀ j < s.heapSize, (setNode s T.id n).posKey j = s.posKey j := fun j hj => by
    have hmem : s.heapAt j ∈ F.map HTree.id :=
      h.roots.mem_iff.2 (List.mem_map_of_mem (List.mem_range.2 hj))
    obtain ⟨U, hU, hid⟩ := List.mem_map.1 hmem
    have hne : s.heapAt j ≠ T.id := fun heq => fresh U hU (heq ▸ hid ▸ U.id_mem_ids)
    simp only [State.posKey, State.key, heapAt_setNode, nodeAt_setNode_other s n hne]
  refine ⟨by simpa using h.legal, fun U hU => ?_, ?_, pqInsert_heapOrder hl (h.order.congr (by simp) hkey) _⟩
  · refine HTree.InArena.of_nodeAt_eq (s := setNode s T.id n) (by simp) (by simp) ?_
    rcases List.mem_cons.1 hU with rfl | hU
    · exact hT
    · exact (h.inArena U hU).congr (by simp) fun id hid =>
        nodeAt_setNode_other s n fun heq => fresh U hU (heq ▸ hid)
  · have hid := lt_trans hT.id_lt (Config.nodeMax_lt _)
    exact (h.roots.cons _).trans (hq ▸ (queue_pqInsert hl hid).symm)

/-- `PQExtract` takes out the root of a tree of least key. -/
theorem extract (h : s.Queues F) (hF : F ≠ []) :
    ∃ T rest, F.Perm (T :: rest) ∧ T.id = s.heapAt 0 ∧ (pqRemoveRoot s).Queues rest ∧
      ∀ U ∈ rest, ¬ lexLt (U.weight, U.id) (T.weight, T.id) := by
  have hpos : 0 < s.heapSize := by rw [h.heapSize_eq]; exact List.length_pos_iff.2 hF
  have hroots := h.roots.trans (queue_pqRemoveRoot h.legal hpos)
  obtain ⟨T, hT, hid⟩ := List.mem_map.1 (hroots.mem_iff.2 (List.mem_cons_self ..))
  have hpick := List.perm_cons_erase hT
  generalize F.erase T = rest at hpick
  refine ⟨T, rest, hpick, hid,
    ⟨by simpa using h.legal, fun U hU => ?_, ?_, pqRemoveRoot_heapOrder h.legal h.order⟩, fun U hU => ?_⟩
  · exact (h.inArena U (hpick.mem_iff.2 (by simp [hU]))).of_nodeAt_eq (by simp) (by simp)
  · refine List.Perm.cons_inv (a := s.heapAt 0) (.trans ?_ hroots)
    exact hid ▸ (hpick.map HTree.id).symm
  · have hUF : U ∈ F := hpick.mem_iff.2 (by simp [hU])
    obtain ⟨j, hj, hat⟩ := List.mem_map.1 (h.roots.mem_iff.1 (List.mem_map_of_mem hUF))
    have hleast := h.order.root_least j (List.mem_range.1 hj)
    rwa [State.posKey, State.posKey, hat, ← hid, (h.inArena U hUF).key, (h.inArena T hT).key] at hleast

/-- The node a merge writes over two trees of the arena (R119). -/
theorem parentOf_eq {a b : HTree} (ha : a.InArena s) (hb : b.InArena s) : parentOf s a.id b.id =
    { isLeaf := false, sym := 0, weight := a.weight + b.weight, left := a.id, right := b.id } := by
  have hwa : (s.nodeAt a.id).weight = a.weight := congrArg Prod.fst ha.key
  have hwb : (s.nodeAt b.id).weight = b.weight := congrArg Prod.fst hb.key
  rw [parentOf, hwa, hwb]

/-- Two trees of the arena join the queue again under a new parent. -/
theorem plantParent (h : s.Queues F) {k : Nat} {a b : HTree} (hk : k < s.cfg.nodeMax) (ha : a.InArena s)
    (hb : b.InArena s) (fresh : ∀ U ∈ a :: b :: F, k ∉ U.ids) (hw : a.weight + b.weight < 2 ^ s.cfg.weightW) :
    (pqInsert k (setNode s k (parentOf s a.id b.id))).Queues (.node k a b :: F) := by
  obtain ⟨hka, fresh⟩ := List.forall_mem_cons.1 fresh
  obtain ⟨hkb, fresh⟩ := List.forall_mem_cons.1 fresh
  have old : ∀ {U : HTree} (n : Node), U.InArena s → k ∉ U.ids → U.InArena (setNode s k n) := fun n hU hkU =>
    hU.congr (by simp) fun id hid => nodeAt_setNode_other s n fun heq => hkU (heq ▸ hid)
  rw [parentOf_eq ha hb]
  refine h.plant (T := .node k a b) fresh ⟨⟨by simpa using hk, ?_⟩, old _ ha hka, old _ hb hkb⟩
  exact nodeAt_setNode_same s h.legal k ⟨Nat.two_pow_pos _, hw, ha.id_lt.trans (Config.nodeMax_lt _),
    hb.id_lt.trans (Config.nodeMax_lt _)⟩

/-- A merge makes the two trees of least keys siblings, the least as LEFT (R119, R125). -/
theorem mergeOnce (h : s.Queues F) {k : Nat} (two : 2 ≤ F.length) (hk : k < s.cfg.nodeMax)
    (fresh : ∀ U ∈ F, k ∉ U.ids) (hw : (F.map HTree.weight).sum < 2 ^ s.cfg.weightW) :
    ∃ a b rest, F.Perm (a :: b :: rest) ∧ ¬ lexLt (b.weight, b.id) (a.weight, a.id) ∧
      (∀ c ∈ rest, ¬ lexLt (c.weight, c.id) (b.weight, b.id)) ∧
      (Machine.mergeOnce k s).Queues (.node k a b :: rest) := by
  obtain ⟨a, F1, hpa, hida, hq1, hleast1⟩ := h.extract (by rintro rfl; simp at two)
  have hlen := hpa.length_eq
  obtain ⟨b, rest, hpb, hidb, hq2, hleast2⟩ := hq1.extract (by rintro rfl; simp at hlen; omega)
  have hpick : F.Perm (a :: b :: rest) := hpa.trans (hpb.cons a)
  have hsum := (hpick.map HTree.weight).sum_eq
  simp only [List.map_cons, List.sum_cons] at hsum
  have old : ∀ U ∈ F, U.InArena (pqRemoveRoot (pqRemoveRoot s)) := fun U hU =>
    (h.inArena U hU).of_nodeAt_eq (by simp) (by simp)
  refine ⟨a, b, rest, hpick, hleast1 b (hpb.mem_iff.2 (by simp)), hleast2, ?_⟩
  have hmerge := hq2.plantParent (k := k) (a := a) (b := b) (by simpa using hk)
    (old a (hpick.mem_iff.2 (by simp))) (old b (hpick.mem_iff.2 (by simp)))
    (fun U hU => fresh U (hpick.mem_iff.2 hU)) (by simp only [pqRemoveRoot_cfg]; omega)
  rwa [hida, hidb] at hmerge

end State.Queues

/-! ## The forest of BUILD -/

/-- The queued trees, with `next_id = k`: they share out the slots below `k`, children below parents. -/
structure State.Forest (s : State) (F : List HTree) (k : Nat) : Prop extends s.Queues F where
  ids : (F.flatMap HTree.ids).Perm (List.range k)
  smaller : ∀ T ∈ F, T.ChildrenSmaller

namespace State.Forest

variable {s : State} {F : List HTree} {k : Nat}

theorem id_lt (h : s.Forest F k) {U : HTree} (hU : U ∈ F) {id : Nat} (hid : id ∈ U.ids) : id < k :=
  List.mem_range.1 (h.ids.mem_iff.1 (List.mem_flatMap.2 ⟨U, hU, hid⟩))

theorem fresh (h : s.Forest F k) : ∀ U ∈ F, k ∉ U.ids := fun _ hU hid => Nat.lt_irrefl k (h.id_lt hU hid)

theorem of_perm {F' : List HTree} (h : s.Forest F k) (hp : F.Perm F') : s.Forest F' k where
  toQueues := h.toQueues.of_perm hp
  ids := (hp.flatMap_right _).symm.trans h.ids
  smaller T hT := h.smaller T (hp.mem_iff.2 hT)

/-- A new leaf joins the forest. -/
theorem addLeaf (h : s.Forest F k) (hk : k < s.cfg.nodeMax) {sym : Nat} (hsym : sym < s.cfg.nsym) :
    (pqInsert k (setNode s k (leafOf s sym))).Forest (.leaf k sym (s.freqAt sym) :: F) (k + 1) := by
  have hfits : (leafOf s sym).Fits s.cfg := ⟨hsym, freqAt_lt s sym, Config.nil_lt _, Config.nil_lt _⟩
  refine ⟨h.plant (T := .leaf k sym (s.freqAt sym)) h.fresh ⟨by simpa using hk, ?_⟩, ?_, ?_⟩
  · exact nodeAt_setNode_same s h.legal k hfits
  · simpa [HTree.ids, List.range_succ] using (h.ids.cons k).trans (List.perm_append_singleton k _).symm
  · exact List.forall_mem_cons.2 ⟨trivial, h.smaller⟩

/-- A merge is a step of Huffman's algorithm on the forest. -/
theorem mergeOnce (h : s.Forest F k) (two : 2 ≤ F.length) (hk : k < s.cfg.nodeMax)
    (hw : (F.map HTree.weight).sum < 2 ^ s.cfg.weightW) :
    ∃ a b rest, F.Perm (a :: b :: rest) ∧ a.weight ≤ b.weight ∧ (∀ c ∈ rest, b.weight ≤ c.weight) ∧
      (Machine.mergeOnce k s).Forest (.node k a b :: rest) (k + 1) := by
  obtain ⟨a, b, rest, hpick, hab, hrest, hq⟩ := h.toQueues.mergeOnce two hk h.fresh hw
  have ha : a ∈ F := hpick.mem_iff.2 (by simp)
  have hb : b ∈ F := hpick.mem_iff.2 (by simp)
  refine ⟨a, b, rest, hpick, by omega, fun c hc => by have := hrest c hc; omega, hq, ?_, ?_⟩
  · have hids := (hpick.flatMap_right HTree.ids).symm.trans h.ids
    simpa [HTree.ids, List.range_succ] using (hids.cons k).trans (List.perm_append_singleton k _).symm
  · exact List.forall_mem_cons.2
      ⟨⟨⟨h.id_lt ha a.id_mem_ids, h.id_lt hb b.id_mem_ids⟩, h.smaller a ha, h.smaller b hb⟩,
        fun U hU => h.smaller U (hpick.mem_iff.2 (by simp [hU]))⟩

end State.Forest

/-! ## The leaf loop -/

/-- The leaves of symbols, numbered from `k` on, each weighed by its count (R118). -/
def leafTrees (count : Nat → Nat) (k : Nat) (syms : List Nat) : List HTree :=
  (syms.zipIdx k).map fun p => .leaf p.2 p.1 (count p.1)

section
variable (count : Nat → Nat) (k : Nat) (syms : List Nat)

@[simp] theorem leafTrees_length : (leafTrees count k syms).length = syms.length := by simp [leafTrees]

theorem leafTrees_weighedBy : ∀ T ∈ leafTrees count k syms, T.WeighedBy count := by
  intro T hT
  obtain ⟨p, _, rfl⟩ := List.mem_map.1 hT
  rfl

theorem leafTrees_innerWeight : ((leafTrees count k syms).map HTree.innerWeight).sum = 0 := by
  simp [leafTrees, HTree.innerWeight, Function.comp_def]

theorem leafTrees_symbols : (leafTrees count k syms).flatMap HTree.symbols = syms := by
  have h : (syms.zipIdx k).map Prod.fst = syms := by simp
  simp only [leafTrees, List.flatMap_map, HTree.symbols]
  rw [← List.map_eq_flatMap, h]

theorem leafTrees_weights : (leafTrees count k syms).map HTree.weight = syms.map count := by
  have h : (syms.zipIdx k).map Prod.fst = syms := by simp
  conv_rhs => rw [← h, List.map_map]
  simp only [leafTrees, List.map_map]
  rfl

end

/-- The leaf loop plants the leaves of the present symbols. -/
theorem addLeaves_forest : ∀ (syms : List Nat) (k : Nat) (s : State) (F : List HTree), s.Forest F k →
    (∀ sym ∈ syms, sym < s.cfg.nsym) →
    k + (syms.filter fun sym => decide (s.freqAt sym ≠ 0)).length ≤ s.cfg.nodeMax →
    (addLeaves syms k s).2.Forest
      (leafTrees s.freqAt k (syms.filter fun sym => decide (s.freqAt sym ≠ 0)) ++ F) (addLeaves syms k s).1
  | [], k, s, F, h, _, _ => h
  | sym :: syms, k, s, F, h, hsyms, hk => by
    obtain ⟨hsym, hsyms⟩ := List.forall_mem_cons.1 hsyms
    unfold addLeaves
    split
    next h0 =>
      rw [List.filter_cons_of_neg (by simpa using h0)] at hk ⊢
      exact addLeaves_forest syms k s F h hsyms hk
    next h0 =>
      rw [List.filter_cons_of_pos (by simpa using h0)] at hk ⊢
      rw [List.length_cons] at hk
      have hnext := addLeaves_forest syms (k + 1) _ _ (h.addLeaf (by omega) hsym) (by simpa using hsyms)
        (by simp only [pqInsert_freqAt, freqAt_setNode, pqInsert_cfg, setNode_cfg]; omega)
      simp only [pqInsert_freqAt, freqAt_setNode] at hnext
      exact hnext.of_perm List.perm_middle

theorem present_eq_length (s : State) : s.present = s.presentSyms.length := by
  rw [present_eq, List.countP_eq_length_filter, State.presentSyms]

theorem leafPhase_forest {s : State} (hl : s.cfg.Legal) :
    (leafPhase s).2.Forest (leafTrees s.freqAt 0 s.presentSyms) s.present := by
  have hstart : ({ s with heapSize := 0 } : State).Forest [] 0 :=
    ⟨⟨hl, by simp, by simp [State.queue], fun j _ hj => absurd hj (by simp)⟩, by simp, by simp⟩
  have hbound : s.presentSyms.length ≤ s.cfg.nodeMax := by
    have := present_le s
    have := s.cfg.nsym_pos
    rw [← present_eq_length, Config.nodeMax]; omega
  have h := addLeaves_forest (List.range s.cfg.nsym) 0 { s with heapSize := 0 } [] hstart
    (fun _ hsym => List.mem_range.1 hsym) (by rw [Nat.zero_add]; exact hbound)
  rw [List.append_nil] at h
  rw [← (leafPhase_counts s).1]
  exact h

/-! ## The merge loop -/

/-- The merge loop runs Huffman's algorithm on the forest. -/
theorem mergeAll_forest : ∀ (fuel k : Nat) (s : State) (F : List HTree), s.Forest F k → F ≠ [] →
    F.length ≤ fuel → k + F.length ≤ s.cfg.nodeMax + 1 → (F.map HTree.weight).sum < 2 ^ s.cfg.weightW →
    ∃ T, Huffman F T ∧ (mergeAll fuel k s).2.Forest [T] (mergeAll fuel k s).1
  | 0, _, _, F, _, hF, hfuel, _, _ => absurd (List.length_eq_zero_iff.1 (Nat.le_zero.1 hfuel)) hF
  | fuel + 1, k, s, F, h, hF, hfuel, hk, hw => by
    unfold mergeAll
    rw [h.heapSize_eq]
    split
    next htwo =>
      obtain ⟨a, b, rest, hpick, hab, hrest, hm⟩ := h.mergeOnce htwo (by omega) hw
      have hcfg := (mergeOnce_only k s).cfg
      have hlen := hpick.length_eq
      have hsum := (hpick.map HTree.weight).sum_eq
      simp only [List.length_cons, List.map_cons, List.sum_cons] at hlen hsum
      obtain ⟨T, hT, hend⟩ := mergeAll_forest fuel (k + 1) _ _ hm (by simp) (by simp; omega)
        (by rw [hcfg, List.length_cons]; omega)
        (by rw [hcfg, List.map_cons, List.sum_cons, HTree.weight]; omega)
      exact ⟨T, .merge k hpick hab hrest hT, hend⟩
    next hone =>
      have hlen : F.length = 1 := by have := List.length_pos_iff.2 hF; omega
      obtain ⟨T, rfl⟩ := List.length_eq_one_iff.1 hlen
      exact ⟨T, .single T, h⟩

/-! ## BUILD -/

theorem mem_presentSyms {s : State} {sym : Nat} :
    sym ∈ s.presentSyms ↔ sym < s.cfg.nsym ∧ s.freqAt sym ≠ 0 := by
  simp [State.presentSyms]

theorem presentSyms_nodup (s : State) : s.presentSyms.Nodup := List.nodup_range.filter _

/-- The counts of the present symbols are all the counts there are. -/
theorem presentSyms_sum (s : State) : (s.presentSyms.map s.freqAt).sum = s.freqs.sum := by
  rw [State.presentSyms, State.freqs]
  induction List.range s.cfg.nsym with
  | nil => rfl
  | cons sym syms ih =>
    by_cases h : s.freqAt sym = 0
    · rw [List.filter_cons_of_neg (by simpa using h), ih, List.map_cons, List.sum_cons, h, Nat.zero_add]
    · rw [List.filter_cons_of_pos (by simpa using h), List.map_cons, List.map_cons, List.sum_cons, List.sum_cons, ih]

theorem firstOverflow_eq_none {limit : Nat} : ∀ {fs : List Nat} (sym total : Nat), total + fs.sum < limit →
    firstOverflow limit fs sym total = none
  | [], _, _, _ => rfl
  | f :: fs, sym, total, h => by
    rw [List.sum_cons] at h
    rw [firstOverflow, if_neg (by omega), firstOverflow_eq_none _ _ (by omega)]

theorem execBuild_of_sum_lt {s : State} (h0 : s.presentSyms ≠ []) (hsum : s.freqs.sum < 2 ^ s.cfg.weightW) :
    execBuild s = .next (succeed (buildTree (clearValid s))) := by
  have hpresent : s.present ≠ 0 := by rwa [present_eq_length, Ne, List.length_eq_zero_iff]
  have hno := firstOverflow_eq_none 0 0 (by simpa using hsum)
  obtain ⟨hp, _⟩ | ⟨_, sym, ho, _⟩ | ⟨_, _, he⟩ := execBuild_cases s
  · exact absurd hp hpresent
  · rw [hno] at ho; cases ho
  · exact he

theorem buildTree_cfg (s : State) : (buildTree s).cfg = (mergePhase s).2.cfg := pqRemoveRoot_cfg (mergePhase s).2

theorem buildTree_nodeAt (s : State) : (buildTree s).nodeAt = (mergePhase s).2.nodeAt :=
  (nodeAt_congr (pqRemoveRoot (mergePhase s).2) rfl rfl rfl).trans (pqRemoveRoot_nodeAt _)

/-- BUILD leaves in the arena, from ROOT, the tree that Huffman's algorithm makes of the leaves (R117, R126). -/
theorem buildTree_huffman {s : State} (hl : s.cfg.Legal) (h0 : s.presentSyms ≠ [])
    (hsum : s.freqs.sum < 2 ^ s.cfg.weightW) :
    ∃ T, Huffman (leafTrees s.freqAt 0 s.presentSyms) T ∧ T.InArena (buildTree s) ∧ T.id = (buildTree s).root ∧
      T.ids.Perm (List.range (2 * s.presentSyms.length - 1)) ∧ T.ChildrenSmaller := by
  have hpresent : s.present ≠ 0 := by rwa [present_eq_length, Ne, List.length_eq_zero_iff]
  have hleaves := leafPhase_forest hl
  have hcounts := leafPhase_counts s
  have hcfg := (leafPhase_only s).cfg
  have hlen := present_eq_length s
  have hle := present_le s
  obtain ⟨T, hT, hlast⟩ := mergeAll_forest (leafPhase s).2.heapSize (leafPhase s).1 (leafPhase s).2
    (leafTrees s.freqAt 0 s.presentSyms) (hcounts.1 ▸ hleaves)
    (by rw [← List.length_pos_iff, leafTrees_length]; omega) (by rw [leafTrees_length]; omega)
    (by rw [leafTrees_length, hcfg, Config.nodeMax]; omega)
    (by rw [leafTrees_weights, presentSyms_sum, hcfg]; exact hsum)
  have hend : (mergePhase s).2.Forest [T] (mergePhase s).1 := hlast
  have hroot : (mergePhase s).2.queue = [T.id] := List.perm_singleton.1 hend.roots.symm
  rw [queue_eq_cons (n := 0) hend.heapSize_eq] at hroot
  refine ⟨T, hT, ?_, (List.cons.inj hroot).1.symm, ?_, hend.smaller T (by simp)⟩
  · exact (hend.inArena T (by simp)).of_nodeAt_eq (buildTree_cfg s) (buildTree_nodeAt s)
  · simpa [(mergePhase_counts s hpresent).1, hlen] using hend.ids

/-- A BUILD of present symbols whose counts sum below 2^WEIGHT_W succeeds, and leaves from ROOT the tree that
Huffman's algorithm makes of the leaves (R117, R126). -/
theorem execBuild_huffman {s : State} (hl : s.cfg.Legal) (h0 : s.presentSyms ≠ [])
    (hsum : s.freqs.sum < 2 ^ s.cfg.weightW) :
    ∃ (t : State) (T : HTree), execBuild s = .next t ∧
      t = { s with
        node := t.node
        heap := t.heap
        heapSize := 0
        root := t.root
        leafCount := s.presentSyms.length
        nodeCount := 2 * s.presentSyms.length - 1
        status := { s.status with busy := false, done := true, treeValid := true, codesValid := false, err := .ok }
        errInfo := 0 } ∧
      Huffman (leafTrees s.freqAt 0 s.presentSyms) T ∧ T.InArena t ∧ T.id = t.root ∧
      T.ids.Perm (List.range t.nodeCount) ∧ T.ChildrenSmaller := by
  have hpresent : (clearValid s).present = s.presentSyms.length := present_eq_length s
  have hframe := buildTree_frame (clearValid s) (by rwa [hpresent, Ne, List.length_eq_zero_iff])
  rw [hpresent] at hframe
  obtain ⟨T, hT, harena, hroot, hids, hsmaller⟩ := buildTree_huffman (s := clearValid s) hl h0 hsum
  have harena := harena.of_nodeAt_eq (succeed_cfg _) (nodeAt_congr (buildTree (clearValid s)) rfl rfl rfl)
  refine ⟨_, T, execBuild_of_sum_lt h0 hsum, ?_, hT, harena, hroot, ?_, hsmaller⟩
  · rw [hframe]; rfl
  · rw [hframe]; exact hids

theorem Huffman.symbols_perm_present {s : State} {T : HTree}
    (h : Huffman (leafTrees s.freqAt 0 s.presentSyms) T) : T.symbols.Perm s.presentSyms :=
  leafTrees_symbols s.freqAt 0 s.presentSyms ▸ h.symbols_perm

end Sys2Proof.Machine
end

section
/-! GENCODES (43_code_generator.md R128 to R130): over a tree of the arena it writes the tree's table. -/

namespace Sys2Proof.Machine

/-! ## Digits as numbers -/

theorem packBits_lt : ∀ ds : List Bool, packBits ds < 2 ^ ds.length
  | [] => Nat.one_pos
  | d :: ds => by
    have := packBits_lt ds
    have := Bool.toNat_le d
    rw [packBits, List.length_cons, Nat.pow_succ]; omega

theorem packBits_concat (d : Bool) : ∀ ds : List Bool, packBits (ds ++ [d]) = packBits ds + 2 ^ ds.length * d.toNat
  | [] => by simp [packBits]
  | e :: ds => by
    rw [List.cons_append, packBits, packBits_concat d ds, packBits, List.length_cons, Nat.pow_succ]; ring

theorem packBits_concat_false (ds : List Bool) : packBits (ds ++ [false]) = packBits ds := by
  simp [packBits_concat]

/-- The walk's way to add a digit 1 (R128). -/
theorem packBits_concat_true (ds : List Bool) : packBits (ds ++ [true]) = packBits ds ||| 2 ^ ds.length := by
  have hor := Nat.two_pow_add_eq_or_of_lt (packBits_lt ds) 1
  rw [Nat.mul_one] at hor
  rw [packBits_concat, Nat.or_comm, ← hor, Bool.toNat_true, Nat.mul_one, Nat.add_comm]

/-! ## Writing a table -/

/-- The entry of a codeword (10_state.md R56). -/
def codeOf (ds : List Bool) : CodeEntry where
  valid := true
  len := ds.length
  bits := packBits ds

/-- Write the codewords of a table, one after the other. -/
def setCodes (s : State) (table : List (Nat × List Bool)) : State :=
  table.foldl (fun s p => setCode s p.1 (codeOf p.2)) s

theorem setCodes_append (s : State) (t u : List (Nat × List Bool)) :
    setCodes s (t ++ u) = setCodes (setCodes s t) u := List.foldl_append

@[simp] theorem setCodes_cfg (table : List (Nat × List Bool)) : ∀ s : State, (setCodes s table).cfg = s.cfg := by
  induction table with
  | nil => exact fun _ => rfl
  | cons p table ih => exact fun s => ih _

@[simp] theorem setCodes_nodeAt (table : List (Nat × List Bool)) :
    ∀ s : State, (setCodes s table).nodeAt = s.nodeAt := by
  induction table with
  | nil => exact fun _ => rfl
  | cons p table ih => exact fun s => (ih _).trans (nodeAt_setCode s _ _)

/-- Codewords that fit the entries are read back, and every other entry stays. -/
theorem codeAt_setCodes (sym : Nat) : ∀ {table : List (Nat × List Bool)} {s : State}, s.cfg.Legal →
    (∀ p ∈ table, p.2.length ≤ s.cfg.maxCodeLen) → (table.map Prod.fst).Nodup →
    (setCodes s table).codeAt sym = ((table.lookup sym).map codeOf).getD (s.codeAt sym)
  | [], _, _, _, _ => rfl
  | (x, ds) :: table, s, hl, hlen, hnd => by
    obtain ⟨hds, hlen⟩ := List.forall_mem_cons.1 hlen
    obtain ⟨hx, hnd⟩ := List.nodup_cons.1 hnd
    have ih := codeAt_setCodes sym (table := table) (s := setCode s x (codeOf ds)) hl hlen hnd
    have hfits : (codeOf ds).Fits s.cfg :=
      ⟨lt_of_le_of_lt hds (by have := Config.maxCodeLen_le hl; omega),
        lt_of_lt_of_le (packBits_lt ds) (Nat.pow_le_pow_right (by omega) hds)⟩
    refine ih.trans ?_
    by_cases hsym : sym = x
    · subst hsym
      have hnone : table.lookup sym = none :=
        List.lookup_eq_none_iff.2 fun p hp => by
          simpa using fun heq => hx (List.mem_map.2 ⟨p, hp, heq.symm⟩)
      simp [hnone, codeAt_setCode_same s hl sym hfits]
    · have hne : (sym == x) = false := by simpa using hsym
      simp [List.lookup_cons, hne, codeAt_setCode_other s _ hsym]

/-! ## The walk -/

/-- The walk over a tree writes the codeword of each leaf, and takes one turn for each node. -/
theorem walkTree_tree : ∀ {T : HTree} (ds : List Bool) (fuel : Nat) (stack : List StackItem) {s : State},
    T.InArena s →
    walkTree (T.ids.length + fuel) ({ id := T.id, len := ds.length, bits := packBits ds } :: stack) s =
      walkTree fuel stack (setCodes s (T.paths.map fun p => (p.1, ds ++ p.2)))
  | .leaf id sym w, ds, fuel, stack, s, ⟨_, hn⟩ => by
    rw [HTree.ids, List.length_singleton, Nat.add_comm, walkTree]
    simp [hn, HTree.paths, setCodes, codeOf]
  | .node id l r, ds, fuel, stack, s, ⟨⟨_, hn⟩, hl, hr⟩ => by
    have hleft := walkTree_tree (ds ++ [false]) (r.ids.length + fuel)
      ({ id := r.id, len := ds.length + 1, bits := packBits ds ||| 2 ^ ds.length } :: stack) hl
    have hright := walkTree_tree (ds ++ [true]) fuel stack
      (s := setCodes s (l.paths.map fun p => (p.1, (ds ++ [false]) ++ p.2)))
      (hr.of_nodeAt_eq (by simp) (by simp))
    rw [List.length_append, List.length_singleton, packBits_concat_false] at hleft
    rw [List.length_append, List.length_singleton, packBits_concat_true] at hright
    have hfuel : (HTree.node id l r).ids.length + fuel = l.ids.length + (r.ids.length + fuel) + 1 := by
      simp only [HTree.ids, List.length_cons, List.length_append]; omega
    rw [hfuel, walkTree]
    simp only [HTree.id_node, hn, Bool.false_eq_true, if_false]
    rw [hleft, hright, ← setCodes_append]
    simp [HTree.paths, Function.comp_def]

/-- GENCODES over a tree with distinct symbols writes its table. -/
theorem generateCodes_tree {s : State} {T : HTree} (h : T.InArena s) (hroot : T.id = s.root)
    (hnd : T.symbols.Nodup) : generateCodes s = some (setCodes (clearCodes s) T.table) := by
  have hclear : T.InArena (clearCodes s) := h.of_nodeAt_eq (clearCodes_cfg s) (nodeAt_clearCodes s)
  have hr : (clearCodes s).root = T.id := hroot.symm
  unfold generateCodes
  simp only [hr]
  cases T with
  | leaf id sym w =>
    obtain ⟨_, hn⟩ := hclear
    simp [hn, HTree.table, setCodes, codeOf, packBits]
  | node id l r =>
    obtain ⟨fuel, hfuel⟩ := Nat.exists_eq_add_of_le (hclear.ids_length_le hnd).2
    have hwalk := walkTree_tree [] fuel [] hclear
    have hinner : ((clearCodes s).nodeAt id).isLeaf = false := by rw [hclear.1.2]
    rw [HTree.id_node, hinner, if_neg (by simp), hfuel]
    refine hwalk.trans ?_
    simp [walkTree, HTree.table]

/-- The codewords of a tree in the arena fit the entries (R132). -/
theorem table_length_le {s : State} {T : HTree} (h : T.InArena s) (hnd : T.symbols.Nodup) {p : Nat × List Bool}
    (hp : p ∈ T.table) : p.2.length ≤ s.cfg.maxCodeLen := by
  have hle := (h.ids_length_le hnd).1
  rw [Config.maxCodeLen]
  cases T with
  | leaf id sym w => simp_all [HTree.table]
  | node id l r => have := HTree.path_length_lt hp; omega

theorem entry_eq (T : HTree) (sym : Nat) :
    T.entry sym = ((T.table.lookup sym).map codeOf).getD { valid := false, len := 0, bits := 0 } := by
  unfold HTree.entry
  cases T.table.lookup sym <;> rfl

/-- A table of distinct symbols finds each of its codewords. -/
theorem lookup_of_mem {table : List (Nat × List Bool)} (hnd : (table.map Prod.fst).Nodup) {p : Nat × List Bool}
    (hp : p ∈ table) : table.lookup p.1 = some p.2 := by
  obtain ⟨before, after, rfl⟩ := List.append_of_mem hp
  refine List.lookup_eq_some_iff.2 ⟨before, after, rfl, fun q hq => ?_⟩
  rw [List.map_append, List.nodup_append] at hnd
  simpa using (hnd.2.2 q.1 (List.mem_map_of_mem hq) p.1 (by simp)).symm

theorem entry_of_mem_table {T : HTree} (hnd : T.symbols.Nodup) {p : Nat × List Bool} (hp : p ∈ T.table) :
    T.entry p.1 = codeOf p.2 := by
  rw [entry_eq, lookup_of_mem (by rwa [HTree.table_map_fst]) hp]
  rfl

/-- A GENCODES of a valid tree succeeds, and CODE holds the tree's table (R128, R129). -/
theorem execGenCodes_tree {s : State} {T : HTree} (hl : s.cfg.Legal) (hv : s.status.treeValid = true)
    (h : T.InArena s) (hroot : T.id = s.root) (hnd : T.symbols.Nodup) :
    ∃ t, execGenCodes s = .next t ∧ t.CodesOf T ∧ t = { s with
      code := t.code
      status := { s.status with busy := false, done := true, codesValid := true, err := .ok }
      errInfo := 0 } := by
  have hgen := generateCodes_tree h hroot hnd
  have hframe := generateCodes_eq hgen
  refine ⟨succeed (setCodesValid (setCodes (clearCodes s) T.table)), by simp [execGenCodes, hv, hgen], ?_, ?_⟩
  · intro sym hsym
    have hcode := codeAt_setCodes sym (s := clearCodes s) hl (fun p hp => table_length_le h hnd hp)
      (by rwa [HTree.table_map_fst])
    rw [codeAt_clearCodes s (by rw [hframe] at hsym; exact hsym)] at hcode
    rw [entry_eq]
    exact hcode
  · rw [hframe]; rfl

end Sys2Proof.Machine
end

section
/-! The bound of 00_scope.md R26 (3): BUILD's tree is Huffman's, GENCODES writes its paths, and HostEncode's answer is
as long as the tree's cost. -/

namespace Sys2Proof.Machine

/-- BUILD's tree costs no more than a fixed-width code for its symbols. -/
theorem Huffman.cost_le_fixedWidth {s : State} {T : HTree} (h : Huffman (leafTrees s.freqAt 0 s.presentSyms) T) :
    T.cost s.freqAt ≤ s.freqs.sum * fixedWidth s.presentSyms.length := by
  have hB : (leafTrees s.freqAt 0 s.presentSyms).length ≤ 2 ^ fixedWidth s.presentSyms.length := by
    rw [leafTrees_length]
    exact Nat.le_pow_clog (by omega) _
  have hle := h.innerWeight_le_fixed hB
  rw [leafTrees_innerWeight, leafTrees_weights, presentSyms_sum, Nat.zero_add] at hle
  rwa [(h.weighedBy (leafTrees_weighedBy _ _ _)).cost_eq]

/-! ## The table's lengths -/

section
variable {t : State} {T : HTree} (hcodes : t.CodesOf T) (hnd : T.symbols.Nodup)
  (hlt : ∀ sym ∈ T.symbols, sym < t.cfg.nsym)
include hcodes hnd hlt

/-- Each symbol of the tree has a codeword. -/
theorem codeAt_valid {sym : Nat} (h : sym ∈ T.symbols) : (t.codeAt sym).valid = true := by
  rw [← HTree.table_map_fst] at h
  obtain ⟨p, hp, rfl⟩ := List.mem_map.1 h
  rw [hcodes _ (hlt _ (T.table_map_fst ▸ h)), entry_of_mem_table hnd hp, codeOf]

/-- The weighted sum of the codewords' lengths is the cost of the tree. -/
theorem sum_len_eq_cost {count : Nat → Nat} (two : 2 ≤ T.symbols.length)
    (hzero : ∀ sym < t.cfg.nsym, sym ∉ T.symbols → count sym = 0) :
    ((List.range t.cfg.nsym).map fun sym => count sym * (t.codeAt sym).len).sum = T.cost count := by
  have hsub : T.symbols.toFinset ⊆ (List.range t.cfg.nsym).toFinset := fun sym hsym =>
    List.mem_toFinset.2 (List.mem_range.2 (hlt sym (List.mem_toFinset.1 hsym)))
  have hout : ∀ sym ∈ (List.range t.cfg.nsym).toFinset, sym ∉ T.symbols.toFinset →
      count sym * (t.codeAt sym).len = 0 := fun sym hsym hno => by
    rw [hzero sym (List.mem_range.1 (List.mem_toFinset.1 hsym)) fun hm => hno (List.mem_toFinset.2 hm), Nat.zero_mul]
  have hpath : ∀ p ∈ T.paths, count p.1 * (t.codeAt p.1).len = count p.1 * p.2.length := fun p hp => by
    have hsym : p.1 ∈ T.symbols := T.paths_map_fst ▸ List.mem_map_of_mem hp
    rw [hcodes _ (hlt _ hsym), entry_of_mem_table hnd (HTree.table_eq_paths two ▸ hp), codeOf]
  rw [← List.sum_toFinset _ List.nodup_range, ← Finset.sum_subset hsub hout, List.sum_toFinset _ hnd,
    ← HTree.paths_map_fst, List.map_map, HTree.cost]
  exact congrArg List.sum (List.map_congr_left hpath)

end

/-! ## The bound -/

/-- Settles O57: the encoding is as long as BUILD's tree is costly, and Huffman's algorithm makes no tree costlier
than one whose leaves all stand at the fixed width. -/
theorem encodedLengthIsWithinTheFixedWidth : Obligations.EncodedLengthIsWithinTheFixedWidth := by
  intro s seq hinv hseq hlen hfreq htwo
  have hsum := freqs_sum_of_hostCount hfreq hseq
  obtain ⟨s1, T, hbuild, hs1, hT, harena, hroot, -, -⟩ := execBuild_huffman hinv.legal
    (List.length_pos_iff.1 (by omega)) (hsum ▸ hlen)
  have hsyms := hT.symbols_perm_present
  have hnd : T.symbols.Nodup := hsyms.nodup_iff.2 (presentSyms_nodup s)
  have hcfg1 : s1.cfg = s.cfg := by rw [hs1]
  obtain ⟨s2, hgen, hcodes, hs2⟩ := execGenCodes_tree (hcfg1 ▸ hinv.legal) (by rw [hs1]) harena hroot hnd
  have hcfg2 : s2.cfg = s.cfg := by rw [hs2, hs1]
  have hfreq2 : s2.freqAt = s.freqAt := freqAt_congr s hcfg2 (by rw [hs2, hs1]) (by rw [hs2, hs1])
  have hlt : ∀ sym ∈ T.symbols, sym < s2.cfg.nsym := fun sym hsym =>
    hcfg2 ▸ (mem_presentSyms.1 (hsyms.mem_iff.1 hsym)).1
  have hvalid : ∀ sym ∈ seq, (s2.codeAt sym).valid = true := fun sym hsym => by
    refine codeAt_valid hcodes hnd hlt (hsyms.mem_iff.2 (mem_presentSyms.2 ⟨hseq sym hsym, ?_⟩))
    rw [freqAt_of_hostCount hfreq (hseq sym hsym)]
    exact (List.count_pos_iff.2 hsym).ne'
  have henc := hostEncode_of_valid s2 seq hvalid
  refine ⟨s1, s2, _, hbuild, by rw [hs1], hgen, by rw [hs2], henc, ?_⟩
  have hfreqs2 : s2.freqs = hostCount s2.cfg seq := by rw [State.freqs, hfreq2, hcfg2]; exact hfreq
  calc _ = ((List.range s2.cfg.nsym).map fun sym => s2.freqAt sym * (s2.codeAt sym).len).sum :=
        encodedLengthIsTheWeightedSum s2 seq _ hfreqs2 (hcfg2 ▸ hseq) henc
    _ = T.cost s2.freqAt := sum_len_eq_cost hcodes hnd hlt (hsyms.length_eq.symm ▸ htwo) fun sym hsym hno => by
        by_contra hne
        exact hno (hsyms.mem_iff.2 (mem_presentSyms.2 ⟨hcfg2 ▸ hsym, hfreq2 ▸ hne⟩))
    _ ≤ seq.length * fixedWidth s.presentSyms.length := by
        rw [hfreq2, ← hsum]
        exact hT.cost_le_fixedWidth

end Sys2Proof.Machine
end

section
/-! One step, told from the state with its event taken: the forward rules for an engine turn, a host write and a reset,
and everything a step to a next state can have done. -/

namespace Sys2Proof.Machine

/-! ## Registers by offset -/

/-- The offset of a register (20_memory.md R66). -/
def Reg.offset : Reg → Nat
  | .id => 0x000
  | .cfg => 0x004
  | .cfgBits => 0x008
  | .ctrl => 0x010
  | .cmd => 0x014
  | .status => 0x018
  | .errInfo => 0x01C
  | .root => 0x020
  | .leafCount => 0x024
  | .nodeCount => 0x028
  | .heapSize => 0x02C
  | .pqResult => 0x030
  | .bitLen => 0x034
  | .bitIdx => 0x038
  | .outCount => 0x03C

theorem regAt_offset (r : Reg) : regAt r.offset = some r := by
  cases r <;> rfl

theorem regAt_eq_some {off : Nat} {r : Reg} (h : regAt off = some r) : off = r.offset := by
  unfold regAt at h
  split at h <;> cases h <;> rfl

/-- A register stands at its offset and nowhere else. -/
theorem locate_eq_reg_iff {c : Config} {off : Nat} {r : Reg} : locate c off = .reg r ↔ off = r.offset := by
  refine ⟨fun h => ?_, fun h => locate_reg c off r (h ▸ regAt_offset r)⟩
  unfold locate at h
  split at h
  · split at h
    next r' hr => exact regAt_eq_some (by simpa [hr] using h)
    next => cases h
  · unfold within at h
    split_ifs at h

/-! ## The event taken -/

/-- The state with the first event of its script taken off. -/
def State.popEvent (s : State) : State := { s with script := s.script.tail }

@[simp] theorem popEvent_cfg (s : State) : s.popEvent.cfg = s.cfg := rfl
@[simp] theorem popEvent_status (s : State) : s.popEvent.status = s.status := rfl
@[simp] theorem popEvent_cmdlat (s : State) : s.popEvent.cmdlat = s.cmdlat := rfl
@[simp] theorem popEvent_inReset (s : State) : s.popEvent.inReset = s.inReset := rfl

theorem popEvent_of_cons {s : State} {e : Event} {rest : List Event} (h : s.script = e :: rest) :
    ({ s with script := rest } : State) = s.popEvent := by
  rw [State.popEvent, h, List.tail_cons]

theorem popEvent_of_nil {s : State} (h : s.script = []) : s.popEvent = s := by
  have hs : s.script.tail = s.script := by rw [h, List.tail_nil]
  rw [State.popEvent, hs]

/-- The next turn is the engine's (40_command_cycle.md R100, R103). -/
abbrev State.EngineNext (s : State) : Prop := s.script = [] ∨ ∃ rest, s.script = .engine :: rest

/-! ## What the next step does -/

theorem step_of_engineNext {s : State} (h : s.EngineNext) : step s = engineTurn exec s.popEvent := by
  obtain hs | ⟨rest, hs⟩ := h
  · rw [popEvent_of_nil hs]; simp [step, turn, hs]
  · rw [← popEvent_of_cons hs]; simp [step, turn, takeEvent, hs]

theorem step_of_runs {s : State} {i : Instr} (h : s.Runs i) : step s = exec i s.popEvent := by
  obtain ⟨hbusy, hdec, hnext⟩ := h
  simp [step_of_engineNext hnext, engineTurn, hbusy, hdec]

/-- A write to an offset of the window is admitted (20_memory.md R75). -/
theorem admission_offset {s : State} {off : Nat} (hr : s.inReset = false) (hw : off < Config.windowSize)
    (h4 : off % 4 = 0) : admission s (s.cfg.base + off) 4 = .ok off := by
  unfold admission
  rw [if_neg (by simp [hr]), if_neg (by omega), if_neg (by omega), Nat.add_sub_cancel_left]

theorem step_of_writes {s : State} {off : Nat} {v : Word} {rest : List Event} (h : s.Writes off v rest) :
    step s = .next (hostWrite off v s.popEvent) := by
  obtain ⟨hr, hw, h4, hs⟩ := h
  have hadm : admission s.popEvent (s.cfg.base + off) 4 = .ok off := admission_offset hr hw h4
  simp [step, turn, takeEvent, hs, popEvent_of_cons hs, hostAccess, hadm]

theorem step_of_resets {s : State} (h : s.Resets) :
    ∃ asserted, step s = .next { resetBlock s.popEvent with inReset := asserted } := by
  obtain ⟨rest, hs⟩ | ⟨hr, rest, hs⟩ := h
  · exact ⟨true, by simp [step, turn, takeEvent, hs, popEvent_of_cons hs, assertReset]⟩
  · have hstep : step s = .next (releaseReset s.popEvent) := by
      simp [step, turn, takeEvent, hs, popEvent_of_cons hs]
    exact ⟨false, hstep.trans (congrArg Host.Outcome.next (if_pos hr))⟩

/-- Everything a step from `s` to a next state can have done. -/
inductive StepDoes (s : State) : State → Prop where
  /-- An idle engine's turn, or a release of a reset input that is not asserted. -/
  | nothing : StepDoes s s.popEvent
  | command {i : Instr} {t : State} (runs : s.Runs i) (result : exec i s.popEvent = .next t) : StepDoes s t
  | illegal (busy : s.status.busy = true) (next : s.EngineNext) :
      StepDoes s (complete .illegalCommand s.cmdlat s.popEvent)
  | read (addr off : Nat) : StepDoes s (hostRead addr off s.popEvent)
  | write {off : Nat} {v : Word} (writes : s.Writes off v s.script.tail) : StepDoes s (hostWrite off v s.popEvent)
  | reset (asserted : Bool) (resets : s.Resets) : StepDoes s { resetBlock s.popEvent with inReset := asserted }

/-- What an engine turn to a next state has done. -/
theorem StepDoes.of_engineTurn {s t : State} (hnext : s.EngineNext) (h : engineTurn exec s.popEvent = .next t) :
    StepDoes s t := by
  obtain ⟨_, he⟩ | ⟨hb, i, hd, he⟩ | ⟨hb, _, _, he⟩ := engineTurn_cases exec s.popEvent <;> rw [he] at h
  · cases h; exact .nothing
  · exact .command ⟨hb, hd, hnext⟩ h
  · cases h; exact .illegal hb hnext

theorem stepDoes_of_step {s t : State} (h : step s = .next t) : StepDoes s t := by
  obtain ⟨hs, he⟩ | ⟨rest, hs, he⟩ | ⟨a, rest, hs, he⟩ | ⟨rest, hs, he⟩ | ⟨rest, hs, he⟩ := step_cases s
  · rw [he] at h
    exact .of_engineTurn (.inl hs) (by rwa [popEvent_of_nil hs])
  · rw [he, popEvent_of_cons hs] at h
    exact .of_engineTurn (.inr ⟨rest, hs⟩) h
  · rw [he, popEvent_of_cons hs] at h
    obtain ⟨r, hr⟩ | ⟨addr, off, _, _, hr⟩ | ⟨addr, off, v, rfl, hadm, hw⟩ := hostAccess_cases a s.popEvent
    · cases hr ▸ h
    · cases hr ▸ h
      exact .read addr off
    · cases hw ▸ h
      obtain ⟨hr, rfl, hwin, h4⟩ := admission_ok hadm
      exact .write ⟨hr, hwin, h4, by rw [hs]; rfl⟩
  · rw [he, popEvent_of_cons hs] at h
    cases h
    exact .reset true (.inl ⟨rest, hs⟩)
  · rw [he, popEvent_of_cons hs, releaseReset] at h
    split at h
    next hr => cases h; exact .reset false (.inr ⟨hr, rest, hs⟩)
    next => cases h; exact .nothing

end Sys2Proof.Machine
end

section
/-! What each command changes (10_state.md R46 to R58): its meaning's next state, written out from the state before
it. -/

namespace Sys2Proof.Machine

/-- The flags after a command: completed, OVERRUN as before. -/
def Status.ended (f : Status) (treeValid codesValid : Bool) (e : ErrCode) : Status where
  busy := false
  done := true
  treeValid := treeValid
  codesValid := codesValid
  overrun := f.overrun
  err := e

theorem execBuild_frame {s t : State} (h : execBuild s = .next t) :
    ∃ node heap heapSize root leafCount nodeCount treeValid e info,
      (treeValid = true ↔ e = .ok) ∧
      t = { s with
        node := node, heap := heap, heapSize := heapSize, root := root, leafCount := leafCount, nodeCount := nodeCount
        status := s.status.ended treeValid false e, errInfo := info } := by
  obtain ⟨_, he⟩ | ⟨_, sym, _, he⟩ | ⟨hp, _, he⟩ := execBuild_cases s <;> rw [he] at h <;> cases h
  · exact ⟨_, _, _, _, _, _, false, .emptyInput, _, by simp, rfl⟩
  · exact ⟨_, _, _, _, _, _, false, .weightOverflow, _, by simp, rfl⟩
  · exact ⟨_, _, _, _, _, _, true, .ok, _, by simp, by rw [buildTree_frame (clearValid s) hp]; rfl⟩

theorem execGenCodes_frame {s t : State} (h : execGenCodes s = .next t) :
    ∃ code codesValid e info,
      t = { s with
        code := code, status := s.status.ended s.status.treeValid codesValid e, errInfo := info } := by
  obtain ⟨_, he⟩ | ⟨_, u, hu, he⟩ | ⟨_, _, he⟩ := execGenCodes_cases s <;> rw [he] at h <;> cases h
  · exact ⟨_, _, _, _, rfl⟩
  · exact ⟨u.code, _, _, _, by rw [generateCodes_eq hu]; rfl⟩

theorem execDecode_frame {s t : State} (h : execDecode s = .next t) :
    ∃ out bitIdx outCount e info,
      t = { s with
        out := out, bitIdx := bitIdx, outCount := outCount
        status := s.status.ended s.status.treeValid s.status.codesValid e, errInfo := info } := by
  cases h
  have hends := decodeBody_ends s
  exact ⟨_, _, _, _, _, hends.frame.trans (by rw [hends.flags]; rfl)⟩

theorem execPqInsert_frame {id : Nat} {s t : State} (h : execPqInsert id s = .next t) :
    ∃ heap heapSize e info,
      t = { s with
        heap := heap, heapSize := heapSize
        status := s.status.ended s.status.treeValid s.status.codesValid e, errInfo := info } := by
  obtain ⟨_, he⟩ | ⟨_, _, he⟩ | ⟨_, _, he⟩ := execPqInsert_cases id s <;> rw [he] at h <;> cases h
  · exact ⟨_, _, _, _, rfl⟩
  · exact ⟨_, _, _, _, rfl⟩
  · exact ⟨_, _, _, _, by rw [pqInsert_eq]; rfl⟩

theorem execPqExtract_frame {s t : State} (h : execPqExtract s = .next t) :
    ∃ heap heapSize pqResult e info,
      t = { s with
        heap := heap, heapSize := heapSize, pqResult := pqResult
        status := s.status.ended s.status.treeValid s.status.codesValid e, errInfo := info } := by
  obtain ⟨_, he⟩ | ⟨_, he⟩ := execPqExtract_cases s <;> rw [he] at h <;> cases h
  · exact ⟨_, _, _, _, _, rfl⟩
  · exact ⟨_, _, _, _, _, by rw [pqRemoveRoot_eq]; rfl⟩

/-! ## The flags after a command -/

/-- The flags after a command (R36, R37, R38, R40): only BUILD changes TREE_VALID, and sets it iff it succeeds. -/
theorem exec_status {i : Instr} {s t : State} (h : exec i s = .next t) :
    ∃ treeValid codesValid e, t.status = s.status.ended treeValid codesValid e ∧
      (i = .build → (treeValid = true ↔ e = .ok)) ∧ (i ≠ .build → treeValid = s.status.treeValid) := by
  cases i with
  | nop => cases h; exact ⟨_, _, _, rfl, by simp, fun _ => rfl⟩
  | build =>
    obtain ⟨_, _, _, _, _, _, _, _, _, hv, rfl⟩ := execBuild_frame h
    exact ⟨_, _, _, rfl, fun _ => hv, by simp⟩
  | genCodes => obtain ⟨_, _, _, _, rfl⟩ := execGenCodes_frame h; exact ⟨_, _, _, rfl, by simp, fun _ => rfl⟩
  | decode => obtain ⟨_, _, _, _, _, rfl⟩ := execDecode_frame h; exact ⟨_, _, _, rfl, by simp, fun _ => rfl⟩
  | pqClear => cases h; exact ⟨_, _, _, rfl, by simp, fun _ => rfl⟩
  | pqInsert id => obtain ⟨_, _, _, _, rfl⟩ := execPqInsert_frame h; exact ⟨_, _, _, rfl, by simp, fun _ => rfl⟩
  | pqExtract => obtain ⟨_, _, _, _, _, rfl⟩ := execPqExtract_frame h; exact ⟨_, _, _, rfl, by simp, fun _ => rfl⟩

/-! ## The frame of all commands -/

/-- Settles O13, command by command. -/
theorem eachResultHasItsWriter : Obligations.EachResultHasItsWriter := by
  intro i s t h
  cases i with
  | nop => cases h; exact ⟨by constructor <;> rfl, by simp⟩
  | build =>
    obtain ⟨_, _, _, _, _, _, _, _, _, -, rfl⟩ := execBuild_frame h
    exact ⟨by constructor <;> rfl, by simp⟩
  | genCodes =>
    obtain ⟨_, _, _, _, rfl⟩ := execGenCodes_frame h
    exact ⟨by constructor <;> rfl, by simp⟩
  | decode =>
    obtain ⟨_, _, _, _, _, rfl⟩ := execDecode_frame h
    exact ⟨by constructor <;> rfl, by simp⟩
  | pqClear => cases h; exact ⟨by constructor <;> rfl, by simp⟩
  | pqInsert id =>
    obtain ⟨_, _, _, _, rfl⟩ := execPqInsert_frame h
    exact ⟨by constructor <;> rfl, by simp⟩
  | pqExtract =>
    obtain ⟨_, _, _, _, _, rfl⟩ := execPqExtract_frame h
    exact ⟨by constructor <;> rfl, by simp⟩

end Sys2Proof.Machine
end

section
/-! The flags of STATUS over every step (10_state.md R36, R37, R38, R40). -/

namespace Sys2Proof.Machine

/-! ## The flags after a host write -/

theorem bitOf_toNat (v : Word) (i : Nat) : bitOf v.toNat i = v.getLsbD i := by
  rw [BitVec.getLsbD, Nat.testBit_eq_decide_div_mod_eq, bitOf]

/-- A write to this place invalidates the tree: ROOT, or a NODE word (R38). -/
def Place.holdsTree : Place → Bool
  | .reg .root => true
  | .node _ _ => true
  | _ => false

theorem writePlace_status (p : Place) (v : Word) (s : State) : (writePlace p v s).status =
    if p = .reg .status then { s.status with
      done := s.status.done && !v.getLsbD 1, overrun := s.status.overrun && !v.getLsbD 4 }
    else if p = .reg .cmd then { s.status with busy := true, done := false, err := .ok }
    else if p.holdsTree then { s.status with treeValid := false, codesValid := false }
    else s.status := by
  cases p with
  | reg r => cases r with
    | status => simp [writePlace, writeStatus_eq, bitOf_toNat]
    | _ => rfl
  | _ => rfl

theorem busyWritePlace_status (p : Place) (v : Word) (s : State) : (busyWritePlace p v s).status =
    if p = .reg .status then { s.status with
      done := s.status.done && !v.getLsbD 1, overrun := s.status.overrun && !v.getLsbD 4 }
    else if p = .reg .ctrl then s.status
    else { s.status with overrun := true } := by
  cases p with
  | reg r => cases r with
    | status => simp [busyWritePlace, writeStatus_eq, bitOf_toNat]
    | _ => rfl
  | _ => rfl

/-- The flags after a host write, by its offset (20_memory.md R78, 40_command_cycle.md R99, R105). -/
theorem hostWrite_status (off : Nat) (v : Word) (s : State) : (hostWrite off v s).status =
    if off = 0x018 then { s.status with
      done := s.status.done && !v.getLsbD 1, overrun := s.status.overrun && !v.getLsbD 4 }
    else if s.status.busy then
      if off = 0x010 then s.status else { s.status with overrun := true }
    else if off = 0x014 then { s.status with busy := true, done := false, err := .ok }
    else if (locate s.cfg off).holdsTree then { s.status with treeValid := false, codesValid := false }
    else s.status := by
  unfold hostWrite
  split
  next hb => rw [busyWritePlace_status]; simp only [locate_eq_reg_iff, Reg.offset, hb]
  next hb => rw [writePlace_status]; simp only [locate_eq_reg_iff, Reg.offset, hb]

/-- The offsets of the NODE words (20_memory.md R65). -/
theorem node_region_of_locate {c : Config} {off id j : Nat} (h : locate c off = .node id j) :
    nodeAddr 0 ≤ off ∧ off < nodeAddr c.nodeMax := by
  unfold locate at h
  split at h
  · split at h <;> cases h
  · unfold within at h
    split_ifs at h; simp only [decide_eq_true_eq, nodeAddr] at *; omega

theorem locate_of_node_region {c : Config} (hl : c.Legal) {off : Nat}
    (h : nodeAddr 0 ≤ off ∧ off < nodeAddr c.nodeMax) :
    locate c off = .node ((off - 0x2000) / 16) ((off - 0x2000) % 16 / 4) := by
  have hmax := Config.nodeMax_le hl
  simp only [nodeAddr] at h
  unfold locate
  rw [if_neg (by omega), if_neg (by omega), if_pos (by omega), within, if_pos (by rw [decide_eq_true_eq]; omega)]

/-- The writes that invalidate the tree, by offset (R38). -/
theorem locate_holdsTree_iff {c : Config} (hl : c.Legal) (off : Nat) : (locate c off).holdsTree = true ↔
    off = 0x020 ∨ (nodeAddr 0 ≤ off ∧ off < nodeAddr c.nodeMax) := by
  constructor
  · intro h
    unfold Place.holdsTree at h
    split at h
    next hp => exact .inl (locate_eq_reg_iff.1 hp)
    next hp => exact .inr (node_region_of_locate hp)
    next => cases h
  · rintro (hroot | hnode)
    · have hreg : locate c off = .reg .root := locate_eq_reg_iff.2 hroot
      rw [hreg]; rfl
    · rw [locate_of_node_region hl hnode]; rfl

/-! ## The flags after a step -/

theorem hostRead_status (addr off : Nat) (s : State) : (hostRead addr off s).status = s.status := by
  rw [hostRead_eq]

/-- The engine's step completes the command in progress (R36, R37). -/
theorem engineStep_ends {s t : State} (hb : s.status.busy = true) (hnext : s.EngineNext) (h : step s = .next t) :
    t.status.busy = false ∧ t.status.done = true := by
  rw [step_of_engineNext hnext] at h
  obtain ⟨hb', _⟩ | ⟨_, i, _, he⟩ | ⟨_, _, _, he⟩ := engineTurn_cases exec s.popEvent
  · exact absurd (hb.symm.trans hb') (by simp)
  · obtain ⟨_, _, _, hst, -⟩ := exec_status (he ▸ h)
    rw [hst]; exact ⟨rfl, rfl⟩
  · cases he ▸ h; exact ⟨rfl, rfl⟩

theorem resetStep_status {s t : State} (hr : s.Resets) (h : step s = .next t) : t.status = Status.reset := by
  obtain ⟨_, he⟩ := step_of_resets hr
  cases he ▸ h; rfl

theorem writeStep_status {s t : State} {off : Nat} {v : Word} {rest : List Event} (hw : s.Writes off v rest)
    (h : step s = .next t) : t.status = (hostWrite off v s.popEvent).status := by
  cases step_of_writes hw ▸ h; rfl

/-- Where the flags after a step come from: they are as before but for a completion, a host write or a reset, and no
completion but BUILD's changes TREE_VALID. -/
theorem step_status_cases {s t : State} (h : step s = .next t) :
    t.status = s.status ∨
    (s.status.busy = true ∧ s.EngineNext ∧ ∃ treeValid codesValid e,
      t.status = s.status.ended treeValid codesValid e ∧ (treeValid = s.status.treeValid ∨ s.Runs .build)) ∨
    (∃ off v rest, s.Writes off v rest ∧ t.status = (hostWrite off v s.popEvent).status) ∨
    (s.Resets ∧ t.status = Status.reset) := by
  cases stepDoes_of_step h with
  | nothing => exact .inl rfl
  | @command i _ runs result =>
    obtain ⟨treeValid, codesValid, e, hst, -, hother⟩ := exec_status result
    have ⟨hbusy, _, hnext⟩ := runs
    refine .inr (.inl ⟨hbusy, hnext, treeValid, codesValid, e, hst, ?_⟩)
    by_cases hi : i = .build
    · exact .inr (hi ▸ runs)
    · exact .inl (hother hi)
  | illegal busy next => exact .inr (.inl ⟨busy, next, _, _, _, rfl, .inl rfl⟩)
  | read addr off => exact .inl (hostRead_status addr off _)
  | write writes => exact .inr (.inr (.inl ⟨_, _, _, writes, rfl⟩))
  | reset _ resets => exact .inr (.inr (.inr ⟨resets, rfl⟩))

/-- Settles O14: BUSY is cleared by a completion and by a reset, and set by an accepted CMD write alone. -/
theorem busyFollowsTheCommandCycle : Obligations.BusyFollowsTheCommandCycle := by
  intro s t h
  have hcases := step_status_cases h
  refine ⟨fun hidle => ⟨fun hrise => ?_, ?_⟩, fun hbusy => ⟨fun hfall => ?_, ?_⟩⟩
  · obtain hst | ⟨hb, _⟩ | ⟨off, v, rest, hw, hst⟩ | ⟨_, hst⟩ := hcases
    · simp [hst, hidle] at hrise
    · simp [hidle] at hb
    · by_cases hoff : off = 0x014
      · exact ⟨v, rest, hoff ▸ hw⟩
      · rw [hst, hostWrite_status] at hrise
        split_ifs at hrise <;> simp_all
    · simp [hst, Status.reset] at hrise
  · rintro ⟨v, rest, hw⟩
    simp [writeStep_status hw h, hostWrite_status, hidle]
  · obtain hst | ⟨_, hnext, _⟩ | ⟨off, v, rest, hw, hst⟩ | ⟨hr, _⟩ := hcases
    · simp [hst, hbusy] at hfall
    · exact hnext.imp_right .inl
    · rw [hst, hostWrite_status] at hfall
      split_ifs at hfall <;> simp_all
    · exact .inr (.inr hr)
  · rintro (hnil | hengine | hr)
    · exact (engineStep_ends hbusy (.inl hnil) h).1
    · exact (engineStep_ends hbusy (.inr hengine) h).1
    · rw [resetStep_status hr h]; rfl

/-- Settles O15: DONE is set by a completion, and cleared by a STATUS write of its bit, by an acceptance and by a
reset. -/
theorem doneFollowsCompletion : Obligations.DoneFollowsCompletion := by
  intro s t h
  refine ⟨fun hbusy hnext => (engineStep_ends hbusy hnext h).2, fun v rest hw => ?_, fun v rest hw hidle => ?_,
    fun hdone hfall => ?_⟩
  · simp [writeStep_status hw h, hostWrite_status]
  · simp [writeStep_status hw h, hostWrite_status, hidle]
  · obtain hst | ⟨_, _, _, _, _, hst, _⟩ | ⟨off, v, rest, hw, hst⟩ | ⟨hr, _⟩ := step_status_cases h
    · simp [hst, hdone] at hfall
    · simp [hst, Status.ended] at hfall
    · by_cases hoff : off = 0x014
      · exact .inr (.inl ⟨v, rest, hoff ▸ hw⟩)
      · rw [hst, hostWrite_status] at hfall
        split_ifs at hfall with hstatus
        · exact .inl ⟨v, rest, hstatus ▸ hw, by simpa [hdone] using hfall⟩
        all_goals simp [hdone] at hfall
    · exact .inr (.inr hr)

/-- Settles O16: TREE_VALID is decided by a BUILD's success, and cleared by a reset and by the writes of
`Place.holdsTree`. -/
theorem treeValidChangesOnlyAsStated : Obligations.TreeValidChangesOnlyAsStated := by
  intro s t hl h
  refine ⟨fun hruns => ?_, fun hr => by rw [resetStep_status hr h]; rfl, fun off v rest hidle hw hoff => ?_,
    fun hne => ?_⟩
  · obtain ⟨_, _, _, hst, hbuild, -⟩ := exec_status ((step_of_runs hruns).symm.trans h)
    rw [hst]
    exact hbuild rfl
  · have htree := (locate_holdsTree_iff hl off).2 hoff
    have hne : off ≠ 0x018 ∧ off ≠ 0x014 := by simp only [nodeAddr] at hoff; omega
    simp [writeStep_status hw h, hostWrite_status, hidle, htree, hne]
  · obtain hst | ⟨_, _, _, _, _, hst, hsame | hruns⟩ | ⟨off, v, rest, hw, hst⟩ | ⟨hr, _⟩ := step_status_cases h
    · simp [hst] at hne
    · simp [hst, Status.ended, hsame] at hne
    · exact .inl hruns
    · rw [hst, hostWrite_status] at hne
      split_ifs at hne with _ hbusy _ _ htree
      · simp at hne
      · simp at hne
      · simp at hne
      · simp at hne
      · exact .inr (.inr ⟨off, v, rest, by simpa using hbusy, hw, (locate_holdsTree_iff hl off).1 htree⟩)
      · simp at hne
    · exact .inr (.inl hr)

/-- Settles O17: OVERRUN is set by a write while BUSY to anything but CTRL and STATUS, and cleared by a STATUS write of
its bit and by a reset. -/
theorem overrunIsSticky : Obligations.OverrunIsSticky := by
  intro s t h
  have hcases := step_status_cases h
  refine ⟨fun off v rest hw hbusy hctrl hstatus => ?_, fun v rest hw => ?_, fun hclear hrise => ?_,
    fun hset hfall => ?_⟩
  · simp [writeStep_status hw h, hostWrite_status, hbusy, hctrl, hstatus]
  · simp [writeStep_status hw h, hostWrite_status]
  · obtain hst | ⟨_, _, _, _, _, hst, _⟩ | ⟨off, v, rest, hw, hst⟩ | ⟨_, hst⟩ := hcases
    · simp [hst, hclear] at hrise
    · simp [hst, Status.ended, hclear] at hrise
    · rw [hst, hostWrite_status] at hrise
      split_ifs at hrise with hstatus hbusy hctrl
      · simp [hclear] at hrise
      · simp [hclear] at hrise
      · exact ⟨off, v, rest, hw, hbusy, hctrl, hstatus⟩
      all_goals simp [hclear] at hrise
    · simp [hst, Status.reset] at hrise
  · obtain hst | ⟨_, _, _, _, _, hst, _⟩ | ⟨off, v, rest, hw, hst⟩ | ⟨hr, _⟩ := hcases
    · simp [hst, hset] at hfall
    · simp [hst, Status.ended, hset] at hfall
    · rw [hst, hostWrite_status] at hfall
      split_ifs at hfall with hstatus
      · exact .inl ⟨v, rest, hstatus ▸ hw, by simpa [hset] using hfall⟩
      all_goals simp [hset] at hfall
    · exact .inr hr

end Sys2Proof.Machine
end

section
/-! The invariant of the registers and memories (10_state.md R35 to R50): it holds after reset, each operation of a
step keeps it, and so every step does. -/

namespace Sys2Proof.Machine

/-! ## After reset -/

theorem memory_nil_form (lo hi : Nat) : Memory.wf [] ∧ Memory.inRange [] lo hi := ⟨nil_wf, by simp⟩

theorem resetWith_inv {c : Config} (h : c.Legal) : (State.resetWith c).Inv where
  legal := h
  canonical := by constructor <;> exact memory_nil_form _ _
  busy := by simp [State.resetWith, Status.reset]
  noError _ := rfl
  noUnknown := by simp [State.resetWith, Status.reset]
  codesTree := by simp [State.resetWith, Status.reset]
  root := Nat.two_pow_pos _
  leafCount := Nat.zero_le _
  nodeCount := rfl
  heapSize := Nat.zero_le _
  queueIds i hi := absurd hi (Nat.not_lt_zero i)
  pqResult := le_refl _
  bitLen := Nat.two_pow_pos _
  outCount := le_refl _
  bitIdx := Nat.zero_le _

/-- Settles O54: after reset no register is above its bound, no memory lists a byte, no tree is valid and the queue is
empty. -/
theorem resetMeetsTheInvariants : Obligations.ResetMeetsTheInvariants :=
  fun _ h => ⟨resetWith_inv h, fun hv => absurd hv (by simp [State.resetWith, Status.reset]),
    fun i _ hi => absurd hi (Nat.not_lt_zero i)⟩

/-- Settles O27: each register's reset value fits the bus word it is read as. -/
theorem resetGivesTheStatedRegisters : Obligations.ResetGivesTheStatedRegisters := by
  intro c h
  have hbits : c.bitsMax < 2 ^ 32 := lt_of_le_of_lt h.2.2.2.2.2.1 (by omega)
  have hnil : c.nil < 2 ^ 32 := lt_trans (lt_of_lt_of_le c.nil_lt (Config.two_pow_idW_le h)) (by omega)
  exact ⟨rfl, rfl, toWord_toNat hbits, rfl, rfl, rfl, rfl, rfl, rfl, rfl, toWord_toNat hnil, rfl, rfl, rfl, rfl⟩

/-! ## The operations of a step -/

namespace State.Inv

variable {s : State} (h : s.Inv)
include h

theorem popEvent : s.popEvent.Inv := { h with canonical := { h.canonical with } }

theorem resetBlock (asserted : Bool) : ({ Machine.resetBlock s with inReset := asserted } : State).Inv :=
  have hreset := resetWith_inv h.legal
  { hreset with
    canonical := { hreset.canonical with }
    busy := fun hb => absurd hb (by simp [State.resetWith, Status.reset])
    queueIds := fun i hi => absurd hi (Nat.not_lt_zero i) }

theorem complete {e : ErrCode} {info : Word} (herr : e ≠ .unknownSymbol) (hinfo : e = .ok → info = 0) :
    (Machine.complete e info s).Inv :=
  { h with
    canonical := { h.canonical with }
    busy := fun hb => absurd hb (by simp)
    noError := hinfo
    noUnknown := herr }

theorem succeed : (Machine.succeed s).Inv := h.complete (by decide) fun _ => rfl

theorem raise {e : ErrCode} (info : Nat) (herr : e ≠ .unknownSymbol) (hne : e ≠ .ok) : (Machine.raise e info s).Inv :=
  h.complete herr fun he => absurd he hne

theorem clearValid : (Machine.clearValid s).Inv :=
  { h with
    canonical := { h.canonical with }
    codesTree := by simp }

/-! ### Host accesses -/

theorem hostRead (addr off : Nat) : (Machine.hostRead addr off s).Inv := by
  rw [hostRead_eq]
  exact { h with canonical := { h.canonical with } }

theorem accept (v : Word) (hr : s.inReset = false) : (Machine.accept v s).Inv :=
  { h with
    canonical := { h.canonical with }
    busy := fun _ => ⟨rfl, rfl, hr⟩
    noError := fun _ => rfl
    noUnknown := by simp }

theorem writeCtrl (v : Nat) : (Machine.writeCtrl v s).Inv := { h with canonical := { h.canonical with } }

theorem writeStatus (v : Nat) : (Machine.writeStatus v s).Inv := by
  rw [writeStatus_eq]
  exact { h with
    canonical := { h.canonical with }
    busy := fun hb => by simp [h.busy hb] }

theorem setOverrun : (Machine.setOverrun s).Inv := { h with canonical := { h.canonical with } }

theorem writeRoot (v : Nat) : (Machine.writeRoot v s).Inv :=
  { h with
    canonical := { h.canonical with }
    codesTree := by simp
    root := low_lt _ _ }

theorem writeBitLen (v : Nat) : (Machine.writeBitLen v s).Inv :=
  { h with
    canonical := { h.canonical with }
    bitLen := low_lt _ _ }

theorem setFreq {sym : Nat} (v : Nat) (hsym : sym < s.cfg.nsym) : (Machine.setFreq s sym v).Inv :=
  { h with canonical := { h.canonical with freq := setFreq_form v hsym h.canonical.freq } }

theorem setNodeWord {id j : Nat} (v : Nat) (hid : id < s.cfg.nodeMax) (hj : j < 4) :
    (Machine.setNodeWord s id j v).Inv :=
  { h with canonical := { h.canonical with node := setNodeWord_form v hid hj h.canonical.node } }

theorem setBits {w : Nat} (v : Nat) (hw : w < s.cfg.bitsMax / 32) : (Machine.setBits s w v).Inv :=
  { h with canonical := { h.canonical with bits := setBits_form v hw h.canonical.bits } }

theorem busyWritePlace (p : Place) (v : Word) : (Machine.busyWritePlace p v s).Inv := by
  unfold Machine.busyWritePlace
  split
  · exact h.writeCtrl _
  · exact h.writeStatus _
  · exact h.setOverrun

theorem writePlace {off : Nat} {p : Place} (v : Word) (hp : locate s.cfg off = p) (hr : s.inReset = false) :
    (Machine.writePlace p v s).Inv := by
  unfold Machine.writePlace
  split
  · exact h.writeCtrl _
  · exact h.accept v hr
  · exact h.writeStatus _
  · exact h.writeRoot _
  · exact h.writeBitLen _
  · exact h.setFreq _ (locate_eq_freq hp)
  · obtain ⟨hid, hj⟩ := locate_eq_node hp
    exact (h.setNodeWord _ hid hj).clearValid
  · exact h.setBits _ (locate_eq_bits hp)
  · exact h

theorem hostWrite (off : Nat) (v : Word) (hr : s.inReset = false) : (Machine.hostWrite off v s).Inv := by
  unfold Machine.hostWrite
  split
  · exact h.busyWritePlace _ v
  · exact h.writePlace v rfl hr

/-! ### The queue -/

/-- A queue over slots of the arena, within HEAP, can take the place of the queue. -/
theorem setQueue {heap : Memory} {heapSize : Nat}
    (hform : heap.wf ∧ heap.inRange (heapAddr 0) (heapAddr s.cfg.heapMax)) (hsize : heapSize ≤ s.cfg.heapMax)
    (hids : ∀ id ∈ ({ s with heap := heap, heapSize := heapSize } : State).queue, id < s.cfg.nodeMax) :
    ({ s with heap := heap, heapSize := heapSize } : State).Inv :=
  { h with
    canonical := { h.canonical with heap := hform }
    heapSize := hsize
    queueIds := fun _ hi => hids _ (List.mem_map_of_mem (List.mem_range.2 hi)) }

theorem queue_lt : ∀ id ∈ s.queue, id < s.cfg.nodeMax := by
  intro id hid
  obtain ⟨i, hi, rfl⟩ := List.mem_map.1 hid
  exact h.queueIds i (List.mem_range.1 hi)

theorem pqClear : ({ s with heapSize := 0 } : State).Inv :=
  h.setQueue h.canonical.heap (Nat.zero_le _) (by simp [State.queue])

theorem pqInsert {id : Nat} (hid : id < s.cfg.nodeMax) (hsize : s.heapSize < s.cfg.heapMax) :
    (Machine.pqInsert id s).Inv := by
  have hperm := queue_pqInsert h.legal (lt_trans hid (Config.nodeMax_lt _))
  have hform := pqInsert_form id hsize h.canonical.heap
  have hcons : ∀ x ∈ id :: s.queue, x < s.cfg.nodeMax := List.forall_mem_cons.2 ⟨hid, h.queue_lt⟩
  have hlt : ∀ x ∈ (Machine.pqInsert id s).queue, x < s.cfg.nodeMax := fun x hx => hcons x (hperm.mem_iff.1 hx)
  rw [pqInsert_eq] at hform hlt ⊢
  exact h.setQueue hform hsize hlt

theorem pqRemoveRoot (h0 : 0 < s.heapSize) : (Machine.pqRemoveRoot s).Inv := by
  have hperm := queue_pqRemoveRoot h.legal h0
  have hform := pqRemoveRoot_form s.cfg.nsym_pos h.heapSize h.canonical.heap
  have hlt : ∀ x ∈ (Machine.pqRemoveRoot s).queue, x < s.cfg.nodeMax := fun x hx =>
    h.queue_lt x (hperm.mem_iff.2 (List.mem_cons_of_mem _ hx))
  rw [pqRemoveRoot_eq] at hform hlt ⊢
  exact h.setQueue hform ((Nat.sub_le _ _).trans h.heapSize) hlt

theorem setPqResult {id : Nat} (hid : id ≤ s.cfg.nil) : ({ s with pqResult := id } : State).Inv :=
  { h with
    canonical := { h.canonical with }
    pqResult := hid }

theorem execPqInsert {id : Nat} {t : State} (he : Machine.execPqInsert id s = .next t) : t.Inv := by
  obtain ⟨_, hx⟩ | ⟨_, _, hx⟩ | ⟨hid, hfull, hx⟩ := execPqInsert_cases id s <;> rw [hx] at he <;> cases he
  · exact h.raise _ (by decide) (by decide)
  · exact h.raise _ (by decide) (by decide)
  · exact (h.pqInsert hid (lt_of_le_of_ne h.heapSize hfull)).succeed

theorem execPqExtract {t : State} (he : Machine.execPqExtract s = .next t) : t.Inv := by
  obtain ⟨_, hx⟩ | ⟨h0, hx⟩ := execPqExtract_cases s <;> rw [hx] at he <;> cases he
  · exact (h.setPqResult (le_refl _)).raise _ (by decide) (by decide)
  · refine ((h.pqRemoveRoot h0).setPqResult ?_).succeed
    rw [pqRemoveRoot_cfg, Config.nil_eq_nodeMax]
    exact (h.queueIds 0 h0).le

/-! ### GENCODES -/

theorem execGenCodes {t : State} (he : Machine.execGenCodes s = .next t) : t.Inv := by
  obtain ⟨_, hx⟩ | ⟨hv, u, hu, hx⟩ | ⟨_, _, hx⟩ := execGenCodes_cases s <;> rw [hx] at he <;> cases he
  · exact h.raise _ (by decide) (by decide)
  · have hform := generateCodes_form hu
    have hcodes : ({ s with code := u.code, status := { s.status with codesValid := true } } : State).Inv :=
      { h with
        canonical := { h.canonical with code := hform }
        codesTree := fun _ => hv }
    have hgen := hcodes.succeed
    rw [generateCodes_eq hu]
    exact hgen

end State.Inv

/-! ### DECODE -/

section
variable (r : Nat) {m : Nat}

/-- With no more bits left than OUT has words, the loops keep the form of OUT. -/
theorem decodeSingle_form : ∀ (n i k : Nat) (s : State), k + n ≤ m →
    s.out.wf ∧ s.out.inRange (outAddr 0) (outAddr m) →
    (decodeSingle r n i k s).out.wf ∧ (decodeSingle r n i k s).out.inRange (outAddr 0) (outAddr m)
  | 0, _, _, _, _, h => h
  | n + 1, i, k, s, hm, h => by
    unfold decodeSingle
    split
    · exact h
    · exact decodeSingle_form n _ _ _ (by omega) (setOut_form _ (by omega) h)

theorem decodeWalk_form : ∀ (n i k cur start : Nat) (s : State), k + n ≤ m →
    s.out.wf ∧ s.out.inRange (outAddr 0) (outAddr m) →
    (decodeWalk r n i k cur start s).out.wf ∧ (decodeWalk r n i k cur start s).out.inRange (outAddr 0) (outAddr m)
  | 0, _, _, _, _, _, _, h => by
    unfold decodeWalk
    split <;> exact h
  | n + 1, i, k, cur, start, s, hm, h => by
    unfold decodeWalk
    simp only
    split
    · exact h
    · split
      · exact decodeWalk_form n _ _ _ _ _ (by omega) (setOut_form _ (by omega) h)
      · exact decodeWalk_form n _ _ _ _ _ (by omega) h

end

theorem decodeBody_form {s : State} (h : s.out.wf ∧ s.out.inRange (outAddr 0) (outAddr s.cfg.outMax)) :
    (decodeBody s).out.wf ∧ (decodeBody s).out.inRange (outAddr 0) (outAddr s.cfg.outMax) := by
  unfold decodeBody
  split
  · exact h
  · split
    · exact h
    next hfits =>
      have hbits : 0 + s.bitLen ≤ s.cfg.outMax := by rw [Config.outMax]; omega
      split
      · exact decodeSingle_form _ _ _ _ _ hbits h
      · exact decodeWalk_form _ _ _ _ _ _ _ hbits h

theorem decodeBody_bitIdx_le (s : State) : (decodeBody s).bitIdx ≤ s.cfg.bitsMax := by
  unfold decodeBody
  split
  · exact Nat.zero_le _
  · split
    · exact Nat.zero_le _
    next hfits =>
      split
      · obtain ⟨_, _, _, hle, _⟩ := decodeSingle_writes s.root s.bitLen 0 0 s
        omega
      · obtain ⟨_, _, _, hle, _⟩ := decodeWalk_writes s.root s.bitLen 0 0 s.root 0 s
        omega

/-- Each symbol decoded consumed a bit (44_decoder.md R141). -/
theorem decodeBody_outCount_le (s : State) : (decodeBody s).outCount ≤ (decodeBody s).bitIdx := by
  obtain ⟨k, _, hk, _, hok, _⟩ := decodeBody_writes s
  obtain ⟨he, _⟩ | ⟨_, hzero⟩ := (decodeBody_ends s).error
  · have := hok he
    omega
  · omega

/-- A DECODE is a write of its results and a completion. -/
theorem DecodeEnds.eq_complete {s t : State} (h : DecodeEnds s t) : t =
    complete t.status.err t.errInfo { s with out := t.out, bitIdx := t.bitIdx, outCount := t.outCount } :=
  h.frame.trans (by rw [h.flags]; rfl)

theorem State.Inv.decodeBody {s : State} (h : s.Inv) : (decodeBody s).Inv := by
  have hends := decodeBody_ends s
  have hform := decodeBody_form h.canonical.out
  have hidx := decodeBody_bitIdx_le s
  have hcount := decodeBody_outCount_le s
  generalize Machine.decodeBody s = t at hends hform hidx hcount
  have hresults : ({ s with out := t.out, bitIdx := t.bitIdx, outCount := t.outCount } : State).Inv :=
    { h with
      canonical := { h.canonical with out := hform }
      outCount := hcount
      bitIdx := hidx }
  rw [hends.eq_complete]
  obtain ⟨he, hinfo⟩ | ⟨he, _⟩ := hends.error
  · exact hresults.complete (by rw [he]; decide) fun _ => hinfo
  · obtain he | he | he := he <;> exact hresults.complete (by rw [he]; decide) (by simp [he])

/-! ### BUILD -/

/-- NODE and HEAP are in canonical form within their mapped words (20_memory.md R65, R67). -/
structure State.ArenaForm (s : State) : Prop where
  node : s.node.wf ∧ s.node.inRange (nodeAddr 0) (nodeAddr s.cfg.nodeMax)
  heap : s.heap.wf ∧ s.heap.inRange (heapAddr 0) (heapAddr s.cfg.heapMax)

namespace State.ArenaForm

variable {s : State} (h : s.ArenaForm)
include h

theorem setNode {id : Nat} (n : Node) (hid : id < s.cfg.nodeMax) : (setNode s id n).ArenaForm where
  node := by rw [setNode_cfg]; exact setNode_form n hid h.node
  heap := by rw [setNode_cfg, setNode_heap]; exact h.heap

theorem pqInsert (id : Nat) (hsize : s.heapSize < s.cfg.heapMax) : (pqInsert id s).ArenaForm where
  node := by rw [pqInsert_eq]; exact h.node
  heap := by rw [pqInsert_cfg]; exact pqInsert_form id hsize h.heap

theorem pqRemoveRoot (hsize : s.heapSize ≤ s.cfg.heapMax) : (pqRemoveRoot s).ArenaForm where
  node := by rw [pqRemoveRoot_eq]; exact h.node
  heap := by rw [pqRemoveRoot_cfg]; exact pqRemoveRoot_form s.cfg.nsym_pos hsize h.heap

/-- A node written into a free slot and queued. -/
theorem plant {id : Nat} (n : Node) (hid : id < s.cfg.nodeMax) (hsize : s.heapSize < s.cfg.heapMax) :
    (Machine.pqInsert id (Machine.setNode s id n)).ArenaForm :=
  (h.setNode n hid).pqInsert id (by simpa using hsize)

theorem mergeOnce {k : Nat} (hk : k < s.cfg.nodeMax) (hsize : s.heapSize ≤ s.cfg.heapMax) :
    (mergeOnce k s).ArenaForm := by
  have hpos : 0 < s.cfg.heapMax := s.cfg.nsym_pos
  exact ((h.pqRemoveRoot hsize).pqRemoveRoot (by simp; omega)).plant _ (by simpa using hk) (by simp; omega)

end State.ArenaForm

theorem addLeaves_arenaForm : ∀ (syms : List Nat) (k : Nat) (s : State), s.ArenaForm →
    k + syms.length ≤ s.cfg.nodeMax → s.heapSize + syms.length ≤ s.cfg.heapMax → (addLeaves syms k s).2.ArenaForm
  | [], _, _, h, _, _ => h
  | sym :: syms, k, s, h, hk, hsize => by
    rw [List.length_cons] at hk hsize
    unfold addLeaves
    split
    · exact addLeaves_arenaForm syms k s h (by omega) (by omega)
    · exact addLeaves_arenaForm syms (k + 1) _ (h.plant _ (by omega) (by omega)) (by simp; omega) (by simp; omega)

theorem mergeAll_arenaForm : ∀ (fuel k : Nat) (s : State), s.ArenaForm → k + s.heapSize ≤ s.cfg.nodeMax + 1 →
    s.heapSize ≤ s.cfg.heapMax → (mergeAll fuel k s).2.ArenaForm
  | 0, _, _, h, _, _ => h
  | fuel + 1, k, s, h, hk, hsize => by
    have hcfg := (mergeOnce_only k s).cfg
    unfold mergeAll
    split
    · exact mergeAll_arenaForm fuel (k + 1) _ (h.mergeOnce (by omega) hsize) (by rw [hcfg, mergeOnce_heapSize]; omega)
        (by rw [hcfg, mergeOnce_heapSize]; omega)
    · exact h

theorem buildTree_arenaForm {s : State} (h : s.ArenaForm) (hp : s.present ≠ 0) : (buildTree s).ArenaForm := by
  have hstart : ({ s with heapSize := 0 } : State).ArenaForm := ⟨h.node, h.heap⟩
  have hnode : s.cfg.nodeMax = 2 * s.cfg.nsym - 1 := rfl
  have hheap : s.cfg.heapMax = s.cfg.nsym := rfl
  have hpos := s.cfg.nsym_pos
  have hle := present_le s
  have hleaf : (leafPhase s).2.ArenaForm :=
    addLeaves_arenaForm _ 0 _ hstart (by rw [List.length_range]; simp only; omega)
      (by rw [List.length_range]; simp only; omega)
  have hcfg := (leafPhase_only s).cfg
  obtain ⟨hids, hqueue⟩ := leafPhase_counts s
  have hmerge : (mergePhase s).2.ArenaForm :=
    mergeAll_arenaForm _ _ _ hleaf (by rw [hids, hqueue, hcfg]; omega) (by rw [hqueue, hcfg]; omega)
  have hlast := hmerge.pqRemoveRoot (by rw [(mergePhase_counts s hp).2]; exact Config.nsym_pos _)
  exact ⟨hlast.node, hlast.heap⟩

theorem buildTree_root_lt (s : State) : (buildTree s).root < 2 ^ s.cfg.idW := by
  have hroot := heapAt_lt (mergePhase s).2 0
  rwa [(mergePhase_only s).cfg] at hroot

theorem State.Inv.buildTree {s : State} (h : s.Inv) (hp : s.present ≠ 0) : (buildTree s).Inv := by
  have hform := buildTree_arenaForm ⟨h.canonical.node, h.canonical.heap⟩ hp
  have hroot := buildTree_root_lt s
  have hframe := buildTree_frame s hp
  generalize Machine.buildTree s = t at hform hroot hframe
  rw [hframe] at hform ⊢
  exact { h with
    canonical := { h.canonical with node := hform.node, heap := hform.heap }
    codesTree := fun _ => rfl
    root := hroot
    leafCount := present_le s
    nodeCount := rfl
    heapSize := Nat.zero_le _
    queueIds := fun i hi => absurd hi (Nat.not_lt_zero i) }

theorem State.Inv.execBuild {s t : State} (h : s.Inv) (he : execBuild s = .next t) : t.Inv := by
  obtain ⟨_, hx⟩ | ⟨_, sym, _, hx⟩ | ⟨hp, _, hx⟩ := execBuild_cases s <;> rw [hx] at he <;> cases he
  · exact h.clearValid.raise _ (by decide) (by decide)
  · exact h.clearValid.raise _ (by decide) (by decide)
  · exact (h.clearValid.buildTree hp).succeed

/-! ## Every step -/

theorem State.Inv.exec {s t : State} (h : s.Inv) {i : Instr} (he : exec i s = .next t) : t.Inv := by
  cases i with
  | nop => cases he; exact h.succeed
  | build => exact h.execBuild he
  | genCodes => exact h.execGenCodes he
  | decode => cases he; exact h.decodeBody
  | pqClear => cases he; exact h.pqClear.succeed
  | pqInsert id => exact h.execPqInsert he
  | pqExtract => exact h.execPqExtract he

/-- Settles O55: each thing a step can do keeps the invariant. -/
theorem stepKeepsInv : Obligations.StepKeepsInv := by
  intro s t hinv h
  have hpop := hinv.popEvent
  cases stepDoes_of_step h with
  | nothing => exact hpop
  | command _ result => exact hpop.exec result
  | illegal => exact hpop.complete (by decide) (by simp)
  | read addr off => exact hpop.hostRead addr off
  | write writes =>
    obtain ⟨hr, -⟩ := writes
    exact hpop.hostWrite _ _ hr
  | reset asserted => exact hpop.resetBlock asserted

end Sys2Proof.Machine
end

section
/-! The meaning of TREE_VALID and CODES_VALID (10_state.md R35, R38, R39; 42_tree_builder.md R126): BUILD plants the
tree, GENCODES writes its table, and nothing else that leaves TREE_VALID set touches the arena, ROOT or CODE. -/

namespace Sys2Proof.Machine

/-- What the meaning of the validity flags depends on. -/
structure State.SameTree (s t : State) : Prop where
  cfg : t.cfg = s.cfg
  treeValid : t.status.treeValid = s.status.treeValid
  codesValid : t.status.codesValid = s.status.codesValid
  root : t.root = s.root
  leafCount : t.leafCount = s.leafCount
  nodeCount : t.nodeCount = s.nodeCount
  nodeAt : t.nodeAt = s.nodeAt
  codeAt : t.codeAt = s.codeAt

namespace State.TreeInv

theorem of_not_valid {s : State} (h : s.status.treeValid = false) : s.TreeInv :=
  fun hv => absurd (h.symm.trans hv) (by simp)

theorem congr {s t : State} (h : s.TreeInv) (hst : s.SameTree t) : t.TreeInv := by
  intro hv
  obtain ⟨T, harena, hroot, hids, hnd, hlen, hcodes⟩ := h (hst.treeValid ▸ hv)
  refine ⟨T, harena.of_nodeAt_eq hst.cfg hst.nodeAt, hst.root ▸ hroot, hst.nodeCount ▸ hids, hnd, hst.leafCount ▸ hlen,
    fun hc sym hsym => ?_⟩
  rw [hst.codeAt]
  exact hcodes (hst.codesValid ▸ hc) sym (hst.cfg ▸ hsym)

section
variable {s : State} (h : s.TreeInv)
include h

theorem popEvent : s.popEvent.TreeInv := h.congr (by constructor <;> rfl)

theorem complete (e : ErrCode) (info : Word) : (Machine.complete e info s).TreeInv :=
  h.congr (by constructor <;> rfl)

/-! ### Host accesses -/

theorem hostRead (addr off : Nat) : (Machine.hostRead addr off s).TreeInv := by
  rw [hostRead_eq]
  exact h.congr (by constructor <;> rfl)

theorem writeStatus (v : Nat) : (Machine.writeStatus v s).TreeInv := by
  rw [writeStatus_eq]
  exact h.congr (by constructor <;> rfl)

theorem busyWritePlace (p : Place) (v : Word) : (Machine.busyWritePlace p v s).TreeInv := by
  unfold Machine.busyWritePlace
  split
  · exact h.congr (by constructor <;> rfl)
  · exact h.writeStatus _
  · exact h.congr (by constructor <;> rfl)

/-- A write of ROOT or of a NODE word invalidates the tree, and the other writes leave it alone. -/
theorem writePlace (p : Place) (v : Word) : (Machine.writePlace p v s).TreeInv := by
  unfold Machine.writePlace
  split
  · exact h.congr (by constructor <;> rfl)
  · exact h.congr (by constructor <;> rfl)
  · exact h.writeStatus _
  · exact of_not_valid rfl
  · exact h.congr (by constructor <;> rfl)
  · exact h.congr (by constructor <;> rfl)
  · exact of_not_valid rfl
  · exact h.congr (by constructor <;> rfl)
  · exact h

theorem hostWrite (off : Nat) (v : Word) : (Machine.hostWrite off v s).TreeInv := by
  unfold Machine.hostWrite
  split
  · exact h.busyWritePlace _ v
  · exact h.writePlace _ v

/-! ### Commands -/

/-- GENCODES writes the table of the tree that TREE_VALID promises. -/
theorem execGenCodes (hl : s.cfg.Legal) {t : State} (he : Machine.execGenCodes s = .next t) : t.TreeInv := by
  cases hv : s.status.treeValid with
  | false =>
    have hraise : t = raise .noTree 0 s := by simpa [Machine.execGenCodes, hv, eq_comm] using he
    exact hraise ▸ h.complete _ _
  | true =>
    obtain ⟨T, harena, hroot, hids, hnd, hlen, -⟩ := h hv
    obtain ⟨u, hu, hcodes, hframe⟩ := execGenCodes_tree hl hv harena hroot hnd
    obtain rfl : u = t := by simpa [hu] using he
    have harena' : T.InArena u := harena.of_nodeAt_eq (by rw [hframe]) (by rw [hframe]; rfl)
    refine fun _ => ⟨T, harena', ?_, ?_, hnd, ?_, fun _ => hcodes⟩ <;> rw [hframe] <;> assumption

end

end State.TreeInv

/-- A BUILD that finds no overflow has a total below the limit (R117). -/
theorem sum_lt_of_firstOverflow {limit : Nat} : ∀ {fs : List Nat} {sym total : Nat}, total < limit →
    firstOverflow limit fs sym total = none → total + fs.sum < limit
  | [], _, _, ht, _ => ht
  | f :: fs, sym, total, ht, h => by
    unfold firstOverflow at h
    split at h
    next => cases h
    next hlt =>
      have := sum_lt_of_firstOverflow (not_le.1 hlt) h
      rw [List.sum_cons]; omega

/-- BUILD plants the tree that TREE_VALID promises, or invalidates it (R117, R121, R126). -/
theorem execBuild_treeInv {s t : State} (hl : s.cfg.Legal) (he : execBuild s = .next t) : t.TreeInv := by
  obtain ⟨_, hx⟩ | ⟨_, sym, _, hx⟩ | ⟨hp, hno, hx⟩ := execBuild_cases s
  · cases hx ▸ he; exact .of_not_valid rfl
  · cases hx ▸ he; exact .of_not_valid rfl
  · have hsum := sum_lt_of_firstOverflow (Nat.two_pow_pos _) hno
    rw [present_eq_length, Ne, List.length_eq_zero_iff] at hp
    obtain ⟨u, T, hu, hframe, hT, harena, hroot, hids, -⟩ := execBuild_huffman hl hp (by omega)
    obtain rfl : u = t := by simpa [hu] using he
    have hsyms := hT.symbols_perm_present
    refine fun _ => ⟨T, harena, hroot, hids, hsyms.nodup_iff.2 (presentSyms_nodup s), ?_, fun hc => ?_⟩
    · rw [hframe]; exact hsyms.length_eq
    · rw [hframe] at hc; cases hc

theorem State.TreeInv.exec {s t : State} (hl : s.cfg.Legal) (h : s.TreeInv) {i : Instr} (he : exec i s = .next t) :
    t.TreeInv := by
  cases i with
  | nop => cases he; exact h.complete _ _
  | build => exact execBuild_treeInv hl he
  | genCodes => exact h.execGenCodes hl he
  | decode => obtain ⟨_, _, _, _, _, rfl⟩ := execDecode_frame he; exact h.congr (by constructor <;> rfl)
  | pqClear => cases he; exact h.congr (by constructor <;> rfl)
  | pqInsert id => obtain ⟨_, _, _, _, rfl⟩ := execPqInsert_frame he; exact h.congr (by constructor <;> rfl)
  | pqExtract => obtain ⟨_, _, _, _, _, rfl⟩ := execPqExtract_frame he; exact h.congr (by constructor <;> rfl)

/-- Settles O56: each thing a step can do plants the tree, writes its table, invalidates it, or leaves it alone. -/
theorem stepKeepsTreeInv : Obligations.StepKeepsTreeInv := by
  intro s t hinv htree h
  have hpop := htree.popEvent
  cases stepDoes_of_step h with
  | nothing => exact hpop
  | command _ result => exact hpop.exec hinv.popEvent.legal result
  | illegal => exact hpop.complete _ _
  | read addr off => exact hpop.hostRead addr off
  | write => exact hpop.hostWrite _ _
  | reset => exact .of_not_valid rfl

end Sys2Proof.Machine
end

section
/-! Host accesses to an idle block (20_memory.md R65 to R80): what a read returns, what a write stores and leaves
unchanged, and the accesses that are refused. -/

namespace Sys2Proof.Machine

/-! ## Admitted and refused accesses -/

theorem step_of_host {s : State} {a : Access} {rest : List Event} (h : s.script = .host a :: rest) :
    step s = hostAccess a s.popEvent := by
  simp [step, turn, takeEvent, h, popEvent_of_cons h]

/-- An access that is narrow or misaligned is refused (20_memory.md R75). -/
theorem admission_misfit {s : State} {off bytes : Nat} (hr : s.inReset = false) (hw : off < Config.windowSize)
    (h : bytes ≠ 4 ∨ off % 4 ≠ 0) : admission s (s.cfg.base + off) bytes = .error .hostAccessRefused := by
  unfold admission
  rw [if_neg (by simp [hr]), if_neg (by omega), if_pos (by rwa [Nat.add_sub_cancel_left])]

/-- Settles O18: the width and the alignment are checked alike for reads and writes. -/
theorem narrowOrMisalignedAccessRefused : Obligations.NarrowOrMisalignedAccessRefused := by
  intro s off bytes v rest hr hw hmisfit
  have hadm : admission s.popEvent (s.cfg.base + off) bytes = .error .hostAccessRefused :=
    admission_misfit hr hw hmisfit
  refine ⟨fun hs => ?_, fun hs => ?_⟩ <;> simp only [step_of_host hs, hostAccess, hadm]

theorem step_of_reads {s : State} {off : Nat} {rest : List Event} (h : s.Reads off rest) :
    step s = .next (hostRead (s.cfg.base + off) off s.popEvent) := by
  obtain ⟨hr, hw, h4, hs⟩ := h
  have hadm : admission s.popEvent (s.cfg.base + off) 4 = .ok off := admission_offset hr hw h4
  simp only [step_of_host hs, hostAccess, hadm]

theorem readPlace_popEvent (s : State) (p : Place) : readPlace s.popEvent p = readPlace s p := by
  cases p with
  | reg r => cases r <;> rfl
  | _ => rfl

/-- A read while idle answers with the place at the offset, and nothing in the block changes (R77). -/
theorem step_of_idle_reads {s : State} {off : Nat} {rest : List Event} (hidle : s.status.busy = false)
    (h : s.Reads off rest) : step s = .next { s with
      script := rest
      replies := { addr := s.cfg.base + off, value := readPlace s (locate s.cfg off) } :: s.replies } := by
  have ⟨_, _, _, hs⟩ := h
  have hidle' : ¬ s.popEvent.status.busy = true := by simp [hidle]
  rw [step_of_reads h, hostRead, if_neg hidle', readPlace_popEvent, ← popEvent_of_cons hs]

/-- A write while idle does to the place at the offset what R78 says. -/
theorem step_of_idle_writes {s : State} {off : Nat} {v : Word} {rest : List Event} (hidle : s.status.busy = false)
    (h : s.Writes off v rest) : step s = .next (writePlace (locate s.cfg off) v { s with script := rest }) := by
  have ⟨_, _, _, hs⟩ := h
  simp [step_of_writes h, popEvent_of_cons hs, hostWrite, hidle]

/-! ## The address map -/

/-- Where each place of the address map stands (20_memory.md R65 to R67). -/
inductive StandsAt (c : Config) (off : Nat) : Place → Prop where
  | reg {r : Reg} (at_offset : off = r.offset) : StandsAt c off (.reg r)
  | freq {sym : Nat} (bound : sym < c.nsym) (at_offset : off = freqAddr sym) : StandsAt c off (.freq sym)
  | node {id j : Nat} (bound : id < c.nodeMax) (word : j < 4) (at_offset : off = nodeAddr id + 4 * j) :
      StandsAt c off (.node id j)
  | heap {i : Nat} (bound : i < c.heapMax) (at_offset : off = heapAddr i) : StandsAt c off (.heap i)
  | code {sym j : Nat} (bound : sym < c.nsym) (word : j < 16) (at_offset : off = codeAddr sym + 4 * j) :
      StandsAt c off (.code sym j)
  | bits {w : Nat} (bound : w < c.bitsMax / 32) (at_offset : off = bitsAddr w) : StandsAt c off (.bits w)
  | out {k : Nat} (bound : k < c.outMax) (at_offset : off = outAddr k) : StandsAt c off (.out k)
  | nothing : StandsAt c off .nothing

theorem StandsAt.of_within {c : Config} {off : Nat} {P : Prop} [Decidable P] {p : Place} (h : P → StandsAt c off p) :
    StandsAt c off (within (decide P) p) := by
  by_cases hP : P
  · simpa [within, hP] using h hP
  · simpa [within, hP] using .nothing

theorem standsAt_of_locate {c : Config} {off : Nat} {p : Place} (h4 : off % 4 = 0) (hp : locate c off = p) :
    StandsAt c off p := by
  subst hp
  unfold locate
  split
  · split
    next r hr => exact .reg (regAt_eq_some hr)
    next => exact .nothing
  split
  · exact .of_within fun h => .freq h (by unfold freqAddr; omega)
  split
  · exact .of_within fun h => .node h (by omega) (by unfold nodeAddr; omega)
  split
  · exact .of_within fun h => .heap h (by unfold heapAddr; omega)
  split
  · exact .nothing
  split
  · exact .of_within fun h => .code h (by omega) (by unfold codeAddr; omega)
  split
  · exact .of_within fun h => .bits h (by unfold bitsAddr; omega)
  split
  · exact .nothing
  split
  · exact .of_within fun h => .out h (by unfold outAddr; omega)
  · exact .nothing

/-- BITS_MAX's upper bound (00_scope.md R11). -/
theorem legal_bitsMax_le {c : Config} (h : c.Legal) : c.bitsMax ≤ 65536 := by
  obtain ⟨_, _, _, _, _, hmax, _⟩ := h
  exact hmax

/-! ## Bits of a word -/

theorem bitOf_eq_testBit (v i : Nat) : bitOf v i = v.testBit i := (Nat.testBit_eq_decide_div_mod_eq).symm

theorem bitOf_low {w i : Nat} (v : Nat) (h : i < w) : bitOf (low w v) i = bitOf v i := by
  simp [bitOf_eq_testBit, low, Nat.testBit_mod_two_pow, h]

theorem bitOf_div_two_pow (v k i : Nat) : bitOf (v / 2 ^ k) i = bitOf v (k + i) := by
  simp [bitOf_eq_testBit, Nat.testBit_div_two_pow, Nat.add_comm]

theorem getLsbD_toWord {b : Nat} (v : Nat) (h : b < 32) : (toWord v).getLsbD b = bitOf v b := by
  rw [toWord, BitVec.getLsbD_ofNat, bitOf_eq_testBit, decide_eq_true h, Bool.true_and]

/-- A bit of a word, from its binary digit. -/
theorem getLsbD_of_digit {v : Word} {i : Nat} {d : Bool} (h : v.toNat / 2 ^ i % 2 = d.toNat) : v.getLsbD i = d := by
  rw [← bitOf_toNat, bitOf, h]
  cases d <;> rfl

/-! ## What a read while idle returns -/

/-- Words 1 to 8 of a CODE entry hold its digits (20_memory.md R71). -/
theorem bitOf_codeWord (e : CodeEntry) {j b : Nat} (h1 : 1 ≤ j) (h8 : j ≤ 8) (hb : b < 32) :
    bitOf (e.word j) b = bitOf e.bits (32 * (j - 1) + b) := by
  rw [CodeEntry.word, if_neg (by omega), if_pos h8, bitOf_low _ hb, bitOf_div_two_pow]

/-- Words 9 to 15 of a CODE entry read 0 (R71). -/
theorem codeWord_high (e : CodeEntry) {j : Nat} (h9 : 9 ≤ j) : e.word j = 0 := by
  rw [CodeEntry.word, if_neg (by omega), if_neg (by omega)]

/-- Bit `b` of BITS word `w` is encoded bit `32 w + b` (R72). -/
theorem bitAt_of_word (s : State) (w : Nat) {b : Nat} (hb : b < 32) :
    s.bitAt (32 * w + b) = bitOf (Memory.loadWord s.epoch s.bits (bitsAddr w)) b := by
  rw [State.bitAt, show (32 * w + b) / 32 = w by omega, show (32 * w + b) % 32 = b by omega]

/-- Settles O19: each mapped word is located as its element's place, whose value is the layout's. -/
theorem idleReadReturnsTheElement : Obligations.IdleReadReturnsTheElement := by
  intro s off rest hl hidle hreads
  have node {id j : Nat} (hid : id < s.cfg.nodeMax) (hj : j < 4) (hoff : off = nodeAddr id + 4 * j) :
      readPlace s (locate s.cfg off) = toWord ((s.nodeAt id).word j) := by
    rw [hoff, locate_node hl hid hj]; rfl
  have code {sym j : Nat} (hsym : sym < s.cfg.nsym) (hj : j < 16) (hoff : off = codeAddr sym + 4 * j) :
      readPlace s (locate s.cfg off) = toWord ((s.codeAt sym).word j) := by
    rw [hoff, locate_code hl hsym hj]; rfl
  refine ⟨_, step_of_idle_reads hidle hreads, fun sym hsym hoff => ?freq,
    fun id hid hoff => node (j := 0) hid (by decide) hoff, fun id hid hoff => node (j := 1) hid (by decide) hoff,
    fun id hid hoff => node (j := 2) hid (by decide) hoff, fun id hid hoff => node (j := 3) hid (by decide) hoff,
    fun i hi hoff => ?heap, fun sym hsym hoff => code (j := 0) hsym (by decide) hoff,
    fun sym hsym j h1 h8 hoff b hb => ?codeBits, fun sym hsym j h9 h15 hoff => ?codeHigh,
    fun w hw hoff b hb => ?bits, fun k hk hoff => ?out⟩
  case freq => rw [hoff, locate_freq hl hsym]; rfl
  case heap => rw [hoff, locate_heap hl hi]; rfl
  case codeBits => rw [code hsym (by omega) hoff, getLsbD_toWord _ hb, bitOf_codeWord _ h1 h8 hb]
  case codeHigh => rw [code hsym (by omega) hoff, codeWord_high _ h9]; rfl
  case bits => rw [hoff, locate_bits hl hw, readPlace, getLsbD_toWord _ hb, bitAt_of_word s w hb]
  case out => rw [hoff, locate_out hl hk]; rfl

theorem ErrCode.code_le (e : ErrCode) : e.code ≤ 0x0A := by
  cases e <;> decide

/-- The fields of CFG, the reserved bits 0 (10_state.md R31). -/
theorem cfgWord_fields {c : Config} (h : c.Legal) :
    (cfgWord c).toNat % 2 ^ 4 = c.symW ∧ (cfgWord c).toNat / 2 ^ 8 % 2 ^ 6 = c.weightW ∧
      (cfgWord c).toNat / 2 ^ 16 % 2 ^ 8 = 0x01 ∧ (cfgWord c).toNat / 2 ^ 24 = 0 ∧
      (cfgWord c).toNat / 2 ^ 4 % 2 ^ 4 = 0 ∧ (cfgWord c).toNat / 2 ^ 14 % 2 ^ 2 = 0 := by
  obtain ⟨_, hsym, _, hweight, _⟩ := h
  have hword : (cfgWord c).toNat = c.symW + 2 ^ 8 * c.weightW + 2 ^ 16 * 0x01 := by
    rw [cfgWord, low_of_lt (by omega), low_of_lt (by omega), toWord_toNat (by omega)]
  omega

/-- The flags and the error code in STATUS, the reserved bits 0 (10_state.md R35). -/
theorem Status.word_fields (f : Status) :
    f.word.getLsbD 0 = f.busy ∧ f.word.getLsbD 1 = f.done ∧ f.word.getLsbD 2 = f.treeValid ∧
      f.word.getLsbD 3 = f.codesValid ∧ f.word.getLsbD 4 = f.overrun ∧ f.word.toNat / 2 ^ 5 % 2 ^ 3 = 0 ∧
      f.word.toNat / 2 ^ 8 % 2 ^ 8 = f.err.code ∧ f.word.toNat / 2 ^ 16 = 0 := by
  have herr := f.err.code_le
  have hbusy := f.busy.toNat_lt
  have hdone := f.done.toNat_lt
  have htree := f.treeValid.toNat_lt
  have hcodes := f.codesValid.toNat_lt
  have hover := f.overrun.toNat_lt
  have hword := toWord_toNat (v := f.busy.toNat + 2 ^ 1 * f.done.toNat + 2 ^ 2 * f.treeValid.toNat
    + 2 ^ 3 * f.codesValid.toNat + 2 ^ 4 * f.overrun.toNat + 2 ^ 8 * f.err.code) (by omega)
  rw [← Status.word] at hword
  refine ⟨getLsbD_of_digit ?_, getLsbD_of_digit ?_, getLsbD_of_digit ?_, getLsbD_of_digit ?_, getLsbD_of_digit ?_,
    ?_, ?_, ?_⟩ <;> omega

/-- Settles O20: each register's word is its value, which the invariant keeps within the bus width. -/
theorem idleReadReturnsTheRegister : Obligations.IdleReadReturnsTheRegister := by
  intro s off rest h hidle hreads
  have reads {r : Reg} (hoff : off = r.offset) : readPlace s (locate s.cfg off) = readReg s r := by
    rw [locate_eq_reg_iff.2 hoff]; rfl
  have fits {r : Reg} {n : Nat} (hr : readReg s r = toWord n) (hn : n < 2 ^ 32) (hoff : off = r.offset) :
      (readPlace s (locate s.cfg off)).toNat = n := by
    rw [reads hoff, hr, toWord_toNat hn]
  have hbitsMax := legal_bitsMax_le h.legal
  have hnsym := Config.nsym_le h.legal
  have hid := Config.two_pow_idW_le h.legal
  have hnil := s.cfg.nil_lt
  have hie := s.ie.toNat_lt
  have hroot := h.root
  have hleaf := h.leafCount
  have hnode := h.nodeCount
  have hheap : s.heapSize ≤ s.cfg.nsym := h.heapSize
  have hpq := h.pqResult
  have hbitLen := h.bitLen
  have hbitIdx := h.bitIdx
  have hout := h.outCount
  refine ⟨_, step_of_idle_reads hidle hreads, reads (r := .id), fun hoff => ?cfg, fits (r := .cfgBits) rfl (by omega),
    fits (r := .ctrl) rfl (by omega), reads (r := .cmd), fun hoff => ?status, reads (r := .errInfo),
    fits (r := .root) rfl (by omega), fits (r := .leafCount) rfl (by omega), fits (r := .nodeCount) rfl (by omega),
    fits (r := .heapSize) rfl (by omega), fits (r := .pqResult) rfl (by omega), fits (r := .bitLen) rfl (by omega),
    fits (r := .bitIdx) rfl (by omega), fits (r := .outCount) rfl (by omega)⟩
  case cfg =>
    rw [reads (r := .cfg) hoff]
    exact cfgWord_fields h.legal
  case status =>
    rw [reads (r := .status) hoff, ← hidle]
    exact s.status.word_fields

/-! ## Unmapped and read-only offsets -/

/-- The reserved and unmapped offsets (20_memory.md R66, R67). -/
def Unmapped (c : Config) (off : Nat) : Prop :=
  off = 0x00C ∨ (0x040 ≤ off ∧ off < 0x1000) ∨ (freqAddr c.nsym ≤ off ∧ off < 0x2000) ∨
    (nodeAddr c.nodeMax ≤ off ∧ off < 0x4000) ∨ (heapAddr c.heapMax ≤ off ∧ off < 0x8000) ∨
    (codeAddr c.nsym ≤ off ∧ off < 0x10000) ∨ (bitsAddr (c.bitsMax / 32) ≤ off ∧ off < 0x40000) ∨
    (outAddr c.outMax ≤ off ∧ off < 0x80000)

/-- The read-only offsets (R66, R67). -/
def ReadOnly (off : Nat) : Prop :=
  (0x4000 ≤ off ∧ off < 0x5000) ∨ (0x8000 ≤ off ∧ off < 0x10000) ∨ (0x40000 ≤ off ∧ off < 0x80000) ∨
    off ∈ [0x000, 0x004, 0x008, 0x01C, 0x024, 0x028, 0x02C, 0x030, 0x038, 0x03C]

theorem Reg.offset_mapped (r : Reg) : r.offset < 0x040 ∧ r.offset ≠ 0x00C := by
  cases r <;> decide

theorem locate_of_unmapped {c : Config} (hl : c.Legal) {off : Nat} (h4 : off % 4 = 0) (h : Unmapped c off) :
    locate c off = .nothing := by
  have hnsym := Config.nsym_le hl
  have hnode := Config.nodeMax_le hl
  have hbits := legal_bitsMax_le hl
  have hheap : c.heapMax = c.nsym := rfl
  have hout : c.outMax = c.bitsMax := rfl
  simp only [Unmapped, freqAddr, nodeAddr, heapAddr, codeAddr, bitsAddr, outAddr] at h
  generalize hp : locate c off = p
  cases standsAt_of_locate h4 hp with
  | nothing => rfl
  | @reg r hoff => have := r.offset_mapped; omega
  | freq _ hoff | node _ _ hoff | heap _ hoff | code _ _ hoff | bits _ hoff | out _ hoff =>
    simp only [freqAddr, nodeAddr, heapAddr, codeAddr, bitsAddr, outAddr] at hoff; omega

/-- A host write to this place while idle changes the block (R66, R67). -/
def Place.writable : Place → Bool
  | .reg .ctrl | .reg .cmd | .reg .status | .reg .root | .reg .bitLen => true
  | .freq _ | .node _ _ | .bits _ => true
  | _ => false

theorem writePlace_of_not_writable {p : Place} (h : p.writable = false) (v : Word) (s : State) :
    writePlace p v s = s := by
  unfold writePlace
  split
  case h_9 => rfl
  all_goals cases h

theorem Reg.not_writable_of_readOnly {r : Reg} (h : ReadOnly r.offset) : (Place.reg r).writable = false := by
  revert h
  unfold ReadOnly
  cases r <;> decide

theorem locate_not_writable {c : Config} (hl : c.Legal) {off : Nat} (h4 : off % 4 = 0) (h : ReadOnly off) :
    (locate c off).writable = false := by
  have hnsym := Config.nsym_le hl
  have hnode := Config.nodeMax_le hl
  have hbits := legal_bitsMax_le hl
  generalize hp : locate c off = p
  cases standsAt_of_locate h4 hp with
  | reg hoff => exact Reg.not_writable_of_readOnly (hoff ▸ h)
  | freq _ hoff | node _ _ hoff | bits _ hoff =>
    simp only [freqAddr, nodeAddr, bitsAddr] at hoff
    simp only [ReadOnly, List.mem_cons, List.not_mem_nil, or_false] at h
    omega
  | _ => rfl

/-- Settles O21: an unmapped offset is located as nothing, and a read-only one as a place no write changes. -/
theorem unmappedReadsZeroAndIgnoresWrites : Obligations.UnmappedReadsZeroAndIgnoresWrites := by
  intro s off v rest hl hidle
  refine ⟨fun hoff => ⟨fun hr => ?_, fun hw => ?_⟩, fun hoff hw => ?_⟩
  · have ⟨_, _, h4, _⟩ := hr
    rw [step_of_idle_reads hidle hr, locate_of_unmapped hl h4 hoff]; rfl
  · have ⟨_, _, h4, _⟩ := hw
    rw [step_of_idle_writes hidle hw, locate_of_unmapped hl h4 hoff]; rfl
  · have ⟨_, _, h4, _⟩ := hw
    rw [step_of_idle_writes hidle hw, writePlace_of_not_writable (locate_not_writable hl h4 hoff)]

/-! ## What a write while idle stores -/

theorem sameBytesBut_setFreq (s : State) (sym v : Nat) :
    s.SameBytesBut (setFreq s sym v) (freqAddr sym) (freqAddr sym + 4) := by
  intro off h
  unfold State.memByte State.memoryAt
  split_ifs
  any_goals rfl
  exact byte_storeWord_outside _ _ _ h

theorem sameBytesBut_setNodeWord (s : State) (id j v : Nat) :
    s.SameBytesBut (setNodeWord s id j v) (nodeAddr id + 4 * j) (nodeAddr id + 4 * j + 4) := by
  intro off h
  unfold State.memByte State.memoryAt
  split_ifs
  any_goals rfl
  exact byte_storeWord_outside _ _ _ h

theorem sameBytesBut_setBits (s : State) (w v : Nat) :
    s.SameBytesBut (setBits s w v) (bitsAddr w) (bitsAddr w + 4) := by
  intro off h
  unfold State.memByte State.memoryAt
  split_ifs
  any_goals rfl
  exact byte_storeWord_outside _ _ _ h

/-- Settles O23: each offset is located as its place, whose write is the field store. -/
theorem idleWriteStoresTheLowBits : Obligations.IdleWriteStoresTheLowBits := by
  intro s off v rest hl hidle hwrites
  have reg {r : Reg} (hoff : off = r.offset) : locate s.cfg off = .reg r := locate_eq_reg_iff.2 hoff
  refine ⟨_, step_of_idle_writes hidle hwrites, fun sym hsym hoff => ?freq, fun w hw hoff => ?bits,
    fun hoff => ?ctrl, fun hoff => ?root, fun hoff => ?bitLen⟩
  case freq =>
    rw [hoff, locate_freq hl hsym]
    exact ⟨rfl, sameBytesBut_setFreq { s with script := rest } _ _,
      freqAt_setFreq_same { s with script := rest } hl _ _⟩
  case bits =>
    rw [hoff, locate_bits hl hw]
    refine ⟨rfl, sameBytesBut_setBits { s with script := rest } _ _, fun b hb => ?_⟩
    rw [writePlace, bitAt_setBits _ _ v.isLt, if_pos (by omega), show (32 * w + b) % 32 = b by omega, bitOf_toNat]
  case ctrl =>
    rw [reg (r := .ctrl) hoff, ← bitOf_toNat]; rfl
  case root => rw [reg (r := .root) hoff]; rfl
  case bitLen => rw [reg (r := .bitLen) hoff]; rfl

/-! ## A NODE word -/

theorem nodeField_lt {c : Config} (hl : c.Legal) (j v : Nat) : nodeField c j v < 2 ^ 32 := by
  have hsym := Config.two_pow_symW_le hl
  have hweight := Config.two_pow_weightW_le hl
  have hid := Config.two_pow_idW_le hl
  have hsym' := low_lt c.symW v
  have hweight' := low_lt c.weightW v
  have hid' := low_lt c.idW v
  have hleaf := (bitOf v 31).toNat_lt
  unfold nodeField
  split <;> omega

/-- Word `k` of a slot after a write of its word `j`. -/
theorem loadWord_setNodeWord {s : State} (hl : s.cfg.Legal) (id j v k : Nat) :
    Memory.loadWord s.epoch (setNodeWord s id j v).node (nodeAddr id + 4 * k) =
      if j = k then nodeField s.cfg j v else Memory.loadWord s.epoch s.node (nodeAddr id + 4 * k) := by
  rw [setNodeWord_node]
  split
  next h => rw [← h, loadWord_storeWord_same, low_of_lt (nodeField_lt hl j v)]
  next h => rw [loadWord_storeWord_other _ _ _ (by omega)]

theorem nodeAt_setNodeWord_same {s : State} (hl : s.cfg.Legal) (id j v : Nat) :
    (setNodeWord s id j v).nodeAt id =
      { isLeaf := if j = 0 then bitOf v 31 else (s.nodeAt id).isLeaf
        sym := if j = 0 then low s.cfg.symW v else (s.nodeAt id).sym
        weight := if j = 1 then low s.cfg.weightW v else (s.nodeAt id).weight
        left := if j = 2 then low s.cfg.idW v else (s.nodeAt id).left
        right := if j = 3 then low s.cfg.idW v else (s.nodeAt id).right } := by
  have hsymW : s.cfg.symW ≤ 31 := by have := hl.2.1; omega
  have hsym : low s.cfg.symW v < 2 ^ 31 := by
    have := Config.two_pow_symW_le hl
    have := low_lt s.cfg.symW v
    omega
  have h0 := loadWord_setNodeWord hl id j v 0
  have h1 := loadWord_setNodeWord hl id j v 1
  have h2 := loadWord_setNodeWord hl id j v 2
  have h3 := loadWord_setNodeWord hl id j v 3
  simp only [Nat.mul_zero, Nat.add_zero, Nat.mul_one, Nat.reduceMul] at h0 h1 h2 h3
  simp only [State.nodeAt, setNodeWord_cfg, setNodeWord_epoch, h0, h1, h2, h3]
  congr 1
  · split
    next hj => rw [hj, nodeField, bitOf_top _ hsym]
    next => rfl
  · split
    next hj => rw [hj, nodeField, low_top _ _ hsymW, low_low]
    next => rfl
  all_goals
    split
    next hj => rw [hj]; exact low_low _ _
    next => rfl

/-- Settles O22: the offset is located as word `j` of the slot, and the write is that word's store. -/
theorem nodeWriteStoresItsFields : Obligations.NodeWriteStoresItsFields := by
  intro s id j v rest hl hidle hid hj hwrites
  refine ⟨_, step_of_idle_writes hidle hwrites, ?_⟩
  rw [locate_node hl hid hj]
  refine ⟨rfl, sameBytesBut_setNodeWord { s with script := rest } _ _ _, ?_⟩
  rw [← bitOf_toNat]
  exact nodeAt_setNodeWord_same (s := { s with script := rest }) hl _ _ _

/-! ## Repeated writes -/

theorem writePlace_script (p : Place) (v : Word) (s : State) (rest : List Event) :
    writePlace p v { s with script := rest } = { writePlace p v s with script := rest } := by
  cases p with
  | reg r => cases r with
    | status => simp [writePlace, writeStatus_eq]
    | _ => rfl
  | _ => rfl

theorem writePlace_keeps (p : Place) (v : Word) (s : State) :
    (writePlace p v s).cfg = s.cfg ∧ (writePlace p v s).inReset = s.inReset ∧
      (writePlace p v s).script = s.script := by
  cases p with
  | reg r => cases r with
    | status => simp [writePlace, writeStatus_eq]
    | _ => exact ⟨rfl, rfl, rfl⟩
  | _ => exact ⟨rfl, rfl, rfl⟩

theorem writePlace_busy {p : Place} (h : p ≠ .reg .cmd) (v : Word) (s : State) :
    (writePlace p v s).status.busy = s.status.busy := by
  rw [writePlace_status, if_neg h]
  split_ifs <;> rfl

/-- Doing a write again changes nothing (20_memory.md R80), an acceptance included; but after an acceptance the next
write meets a busy block, and is no `writePlace`. -/
theorem writePlace_writePlace (p : Place) (v : Word) (s : State) :
    writePlace p v (writePlace p v s) = writePlace p v s := by
  cases p with
  | reg r => cases r with
    | status => simp [writePlace, writeStatus_eq]
    | _ => rfl
  | freq | node | bits =>
    simp only [writePlace, setFreq, setNodeWord, setBits, clearValid, storeWord_storeWord_same]
  | _ => rfl

/-- Settles O26: the repeated write is again a write while idle to the same place. -/
theorem repeatedWriteIsIdempotent : Obligations.RepeatedWriteIsIdempotent := by
  intro s t off v rest hidle hcmd hwrites hstep
  have ⟨hr, hwin, h4, _⟩ := hwrites
  rw [step_of_idle_writes hidle hwrites] at hstep
  injection hstep with ht
  obtain ⟨hcfg, hreset, hscript⟩ := writePlace_keeps (locate s.cfg off) v
    { s with script := .host (.write (s.cfg.base + off) 4 v) :: rest }
  rw [ht] at hcfg hreset hscript
  have hwrites' : t.Writes off v rest := ⟨hreset.trans hr, hwin, h4, by rw [hscript, hcfg]⟩
  have hidle' : t.status.busy = false := by
    rw [← ht, writePlace_busy fun hp => hcmd (locate_eq_reg_iff.1 hp), hidle]
  have hplace : locate t.cfg off = locate s.cfg off := by rw [hcfg]
  have hagain : writePlace (locate s.cfg off) v t = t := by rw [← ht, writePlace_writePlace]
  rw [step_of_idle_writes hidle' hwrites', writePlace_script, hplace, hagain]

end Sys2Proof.Machine
end

section
/-! The command word (30_encoding.md R89 to R98): its fields, the commands it decodes to, and what the engine does with
a word that is no command. -/

namespace Sys2Proof

open Laws.TableRow (pattern)

/-! ## Fields -/

theorem argField_lt (w : Word) : argField w < 2 ^ 16 := by
  unfold argField
  omega

/-- The fields cover the word (30_encoding.md R89). -/
theorem toNat_eq_fields (w : Word) : w.toNat = argField w * 2 ^ 16 + rsvField w * 2 ^ 4 + opField w := by
  unfold argField rsvField opField
  omega

/-- A word is put together from OP and ARG iff these are its fields and RSV is 0. -/
theorem commandWord_eq_iff {w : Word} {op arg : Nat} (hop : op < 2 ^ 4) (harg : arg < 2 ^ 16) :
    commandWord op arg = w ↔ opField w = op ∧ rsvField w = 0 ∧ argField w = arg := by
  have hword : (commandWord op arg).toNat = arg * 2 ^ 16 + op := by
    rw [commandWord, BitVec.toNat_ofNat]
    omega
  rw [← BitVec.toNat_inj, hword]
  constructor
  · intro h
    unfold opField rsvField argField
    omega
  · rintro ⟨rfl, hrsv, rfl⟩
    rw [toNat_eq_fields w, hrsv, Nat.zero_mul, Nat.add_zero]

/-! ## Decoding and encoding -/

/-- The operand in ARG; a command without one leaves ARG 0 (30_encoding.md R91, R92). -/
def Instr.operand : Instr → Nat
  | .pqInsert id => id
  | _ => 0

theorem Instr.operand_lt_iff (i : Instr) : i.operand < 2 ^ 16 ↔ i.wellFormed = true := by
  cases i <;> simp [Instr.operand, Instr.wellFormed]

/-- The listed opcodes are 0x0 to 0x6 (30_encoding.md R93). -/
theorem pattern_le (i : Instr) : pattern i ≤ 6 := by
  cases i <;> simp [pattern]

/-- PQ_INSERT alone has an operand (30_encoding.md R92). -/
theorem Instr.operand_eq_zero {i : Instr} (h : pattern i ≠ 5) : i.operand = 0 := by
  cases i with
  | pqInsert id => exact absurd rfl h
  | _ => rfl

/-- A row's match is its opcode with the fields above it 0 (30_encoding.md R93). -/
theorem encode_eq_commandWord (i : Instr) : encode i = commandWord (pattern i) i.operand := by
  cases i <;> rfl

/-- What the procedure accepts at an opcode without operand is that opcode's command. -/
theorem fields_of_plainCommand {w : Word} {i j : Instr} (hop : opField w = pattern j) (hplain : j.operand = 0)
    (h : plainCommand w j = .ok i) : opField w = pattern i ∧ rsvField w = 0 ∧ argField w = i.operand := by
  unfold plainCommand at h
  split_ifs at h with hzero
  obtain ⟨hrsv, harg⟩ := hzero
  cases h
  exact ⟨hop, hrsv, harg.trans hplain.symm⟩

/-- The procedure of 30_encoding.md R96 accepts a command iff the word's fields are the command's. -/
theorem decodeCmd_eq_ok_iff_fields {w : Word} {i : Instr} :
    decodeCmd w = .ok i ↔ opField w = pattern i ∧ rsvField w = 0 ∧ argField w = i.operand := by
  unfold decodeCmd
  constructor
  · intro h
    split at h
    next hop => exact fields_of_plainCommand (j := .nop) hop rfl h
    next hop => exact fields_of_plainCommand (j := .build) hop rfl h
    next hop => exact fields_of_plainCommand (j := .genCodes) hop rfl h
    next hop => exact fields_of_plainCommand (j := .decode) hop rfl h
    next hop => exact fields_of_plainCommand (j := .pqClear) hop rfl h
    next hop =>
      split_ifs at h with hrsv
      cases h
      exact ⟨hop, hrsv, rfl⟩
    next hop => exact fields_of_plainCommand (j := .pqExtract) hop rfl h
    next => cases h
  · rintro ⟨hop, hrsv, harg⟩
    rw [hop]
    cases i with
    | pqInsert id => rw [harg]; exact if_pos hrsv
    | _ => exact if_pos ⟨hrsv, harg⟩

/-- A word decodes to a command iff it is that command's word. -/
theorem decodeCmd_eq_ok_iff {w : Word} {i : Instr} :
    decodeCmd w = .ok i ↔ encode i = w ∧ i.wellFormed = true := by
  have hop : pattern i < 2 ^ 4 := by have := pattern_le i; omega
  rw [decodeCmd_eq_ok_iff_fields, encode_eq_commandWord, ← i.operand_lt_iff]
  constructor
  · intro hfields
    have harg : i.operand < 2 ^ 16 := hfields.2.2 ▸ argField_lt w
    exact ⟨(commandWord_eq_iff hop harg).2 hfields, harg⟩
  · rintro ⟨hword, harg⟩
    exact (commandWord_eq_iff hop harg).1 hword

/-- Settles O1: the word of a command decodes to it. -/
theorem decodeInvertsEncode : Obligations.DecodeInvertsEncode :=
  fun _ hwf => decodeCmd_eq_ok_iff.2 ⟨rfl, hwf⟩

/-- Settles O2: the same equivalence, read from the decoded word. -/
theorem encodeInvertsDecode : Obligations.EncodeInvertsDecode :=
  fun _ _ hdec => decodeCmd_eq_ok_iff.1 hdec

/-! ## Rows of the opcode table -/

/-- The row of a command without operand has every bit in its mask (30_encoding.md R93). -/
theorem decodeCmd_eq_ok_iff_masked {w : Word} {i : Instr} (harg : i.operand = 0) :
    decodeCmd w = .ok i ↔ w &&& 0xFFFFFFFF = encode i := by
  have hmask : w &&& 0xFFFFFFFF = w := BitVec.and_allOnes
  have hwf : i.wellFormed = true := i.operand_lt_iff.1 (by omega)
  rw [decodeCmd_eq_ok_iff, hmask, and_iff_left hwf, eq_comm]

/-- PQ_INSERT's row has OP and RSV in its mask, and ARG is free (30_encoding.md R91, R93). -/
theorem decodeCmd_eq_pqInsert_iff {w : Word} {id : Nat} :
    decodeCmd w = .ok (.pqInsert id) ↔ w &&& 0x0000FFFF = 0x00000005 ∧ id = (w >>> 16).toNat := by
  have hmask : (w &&& 0x0000FFFF).toNat = w.toNat % 2 ^ 16 := Nat.and_two_pow_sub_one_eq_mod _ 16
  have harg : (w >>> 16).toNat = argField w := by
    rw [BitVec.toNat_ushiftRight, Nat.shiftRight_eq_div_pow, argField]
  rw [decodeCmd_eq_ok_iff_fields, ← BitVec.toNat_inj, hmask, harg, eq_comm (a := id), ← and_assoc]
  refine and_congr_left fun _ => ?_
  show opField w = 5 ∧ rsvField w = 0 ↔ w.toNat % 2 ^ 16 = 5
  unfold opField rsvField
  omega

/-- Settles O3, row by row. -/
theorem wordDecodesIffRowMatches : Obligations.WordDecodesIffRowMatches := fun _ =>
  ⟨decodeCmd_eq_ok_iff_masked rfl, decodeCmd_eq_ok_iff_masked rfl, decodeCmd_eq_ok_iff_masked rfl,
    decodeCmd_eq_ok_iff_masked rfl, decodeCmd_eq_ok_iff_masked rfl, fun _ => decodeCmd_eq_pqInsert_iff,
    decodeCmd_eq_ok_iff_masked rfl⟩

/-! ## Illegal words -/

/-- A word decodes to no command when OP is not listed, or bits above OP that its row fixes are not 0
(30_encoding.md R94). -/
theorem decodeCmd_illegal {w : Word}
    (h : 7 ≤ w.toNat % 16 ∨ (w.toNat % 16 ≠ 5 ∧ w.toNat / 16 ≠ 0) ∨ (w.toNat % 16 = 5 ∧ w.toNat / 16 % 2 ^ 12 ≠ 0)) :
    ∃ e, decodeCmd w = .error e := by
  cases hdec : decodeCmd w with
  | error e => exact ⟨e, rfl⟩
  | ok i =>
    obtain ⟨hop, hrsv, harg⟩ := decodeCmd_eq_ok_iff_fields.1 hdec
    have hle : pattern i ≤ 6 := pattern_le i
    unfold opField at hop
    unfold rsvField at hrsv
    unfold argField at harg
    obtain hunlisted | ⟨hplain, hbits⟩ | ⟨_, hbits⟩ := h
    · omega
    · have hzero : i.operand = 0 := Instr.operand_eq_zero (by omega)
      omega
    · exact absurd hrsv hbits

namespace Machine

/-- The engine's turn on a word that is no command (30_encoding.md R94, R96). -/
theorem step_of_rejected {s : State} {e : Reject} (hbusy : s.status.busy = true)
    (hdec : decodeCmd s.cmdlat = .error e) (hnext : s.EngineNext) :
    step s = .next (complete .illegalCommand s.cmdlat s.popEvent) := by
  simp [step_of_engineNext hnext, engineTurn, hbusy, hdec]

/-- Settles O5: acceptance does not look at the word, and the engine's turn rejects it. -/
theorem illegalWordCompletesWithItself : Obligations.IllegalWordCompletesWithItself := by
  intro s w rest hillegal
  refine ⟨fun hidle hwrites => ?_, fun hbusy hlatched hscript => ?_⟩
  · have hcmd : locate s.cfg 0x014 = .reg .cmd := locate_eq_reg_iff.2 rfl
    exact ⟨_, step_of_idle_writes hidle hwrites, by rw [hcmd]; exact ⟨rfl, rfl, rfl⟩⟩
  · subst hlatched
    obtain ⟨e, hdec⟩ := decodeCmd_illegal hillegal
    rw [step_of_rejected hbusy hdec (.inr ⟨rest, hscript⟩), ← popEvent_of_cons hscript]
    rfl

end Machine

/-- Settles O4: each word is evaluated. -/
theorem sanityWordsDecode : Obligations.SanityWordsDecode :=
  ⟨rfl, rfl, rfl, rfl, rfl, rfl, rfl, rfl, rfl⟩

end Sys2Proof
end

section
/-! A command in progress and the host (40_command_cycle.md R102, R105): what an access can change of a busy block, and
that no command's meaning looks at it. -/

namespace Sys2Proof.Machine

/-! ## The host's part of a busy block -/

/-- What a host access can change while BUSY: CTRL, DONE, OVERRUN, the replies and the count of draws (R105, R106). -/
structure HostPart where
  ie : Bool
  done : Bool
  overrun : Bool
  replies : List Reply
  draws : Nat

/-- The host's part of a state. -/
def State.hostPart (s : State) : HostPart where
  ie := s.ie
  done := s.status.done
  overrun := s.status.overrun
  replies := s.replies
  draws := s.draws

namespace HostPart

/-- The state `s` with `h` as the host's part. -/
def put (h : HostPart) (s : State) : State :=
  { s with
    ie := h.ie
    status := { s.status with done := h.done, overrun := h.overrun }
    replies := h.replies
    draws := h.draws }

/-- The host's part after a completion, which sets DONE (R101). -/
def completed (h : HostPart) : HostPart := { h with done := true }

variable (h : HostPart)

@[simp] theorem put_cfg (s : State) : (h.put s).cfg = s.cfg := rfl
@[simp] theorem put_treeValid (s : State) : (h.put s).status.treeValid = s.status.treeValid := rfl
@[simp] theorem put_root (s : State) : (h.put s).root = s.root := rfl
@[simp] theorem put_bitLen (s : State) : (h.put s).bitLen = s.bitLen := rfl
@[simp] theorem put_heapSize (s : State) : (h.put s).heapSize = s.heapSize := rfl
@[simp] theorem put_freqAt (s : State) : (h.put s).freqAt = s.freqAt := rfl
@[simp] theorem put_freqs (s : State) : (h.put s).freqs = s.freqs := rfl
@[simp] theorem put_present (s : State) : (h.put s).present = s.present := rfl
@[simp] theorem put_nodeAt (s : State) : (h.put s).nodeAt = s.nodeAt := rfl
@[simp] theorem put_heapAt (s : State) : (h.put s).heapAt = s.heapAt := rfl
@[simp] theorem put_key (s : State) : (h.put s).key = s.key := rfl
@[simp] theorem put_bitAt (s : State) : (h.put s).bitAt = s.bitAt := rfl

/-! ## The operations a command is made of do not look at it -/

@[simp] theorem swapHeap_put (i j : Nat) (s : State) : swapHeap (h.put s) i j = h.put (swapHeap s i j) := rfl
@[simp] theorem appendEntry_put (id : Nat) (s : State) : appendEntry id (h.put s) = h.put (appendEntry id s) := rfl
@[simp] theorem lastToRoot_put (s : State) : lastToRoot (h.put s) = h.put (lastToRoot s) := rfl
@[simp] theorem smallerChild_put (i : Nat) (s : State) : smallerChild (h.put s) i = smallerChild s i := rfl
@[simp] theorem setNode_put (id : Nat) (n : Node) (s : State) : setNode (h.put s) id n = h.put (setNode s id n) := rfl
@[simp] theorem leafOf_put (sym : Nat) (s : State) : leafOf (h.put s) sym = leafOf s sym := rfl
@[simp] theorem parentOf_put (a b : Nat) (s : State) : parentOf (h.put s) a b = parentOf s a b := rfl
@[simp] theorem setCode_put (sym : Nat) (e : CodeEntry) (s : State) :
    setCode (h.put s) sym e = h.put (setCode s sym e) := rfl
@[simp] theorem setOut_put (k sym : Nat) (s : State) : setOut (h.put s) k sym = h.put (setOut s k sym) := rfl
@[simp] theorem clearValid_put (s : State) : clearValid (h.put s) = h.put (clearValid s) := rfl
@[simp] theorem raise_put (e : ErrCode) (info : Nat) (s : State) :
    raise e info (h.put s) = h.completed.put (raise e info s) := rfl
@[simp] theorem succeed_put (s : State) : succeed (h.put s) = h.completed.put (succeed s) := rfl
@[simp] theorem decodeFail_put (e : ErrCode) (info b : Nat) (s : State) :
    decodeFail e info b (h.put s) = h.completed.put (decodeFail e info b s) := rfl
@[simp] theorem decodeDone_put (b k : Nat) (s : State) :
    decodeDone b k (h.put s) = h.completed.put (decodeDone b k s) := rfl

/-! ### The queue -/

@[simp] theorem siftUp_put : ∀ (fuel i : Nat) (s : State), siftUp fuel i (h.put s) = h.put (siftUp fuel i s)
  | 0, _, _ => rfl
  | fuel + 1, i, s => by
    simp only [siftUp, put_heapAt, put_key, swapHeap_put, siftUp_put fuel, apply_ite h.put]

@[simp] theorem siftDown_put : ∀ (fuel i : Nat) (s : State), siftDown fuel i (h.put s) = h.put (siftDown fuel i s)
  | 0, _, _ => rfl
  | fuel + 1, i, s => by
    simp only [siftDown, put_heapSize, put_heapAt, put_key, smallerChild_put, swapHeap_put, siftDown_put fuel,
      apply_ite h.put]

@[simp] theorem pqInsert_put (id : Nat) (s : State) : pqInsert id (h.put s) = h.put (pqInsert id s) := by
  rw [pqInsert_eq_siftUp, pqInsert_eq_siftUp, put_heapSize, appendEntry_put, siftUp_put]

@[simp] theorem pqRemoveRoot_put (s : State) : pqRemoveRoot (h.put s) = h.put (pqRemoveRoot s) := by
  by_cases hlast : s.heapSize - 1 = 0
  · rw [pqRemoveRoot_of_one hlast, pqRemoveRoot_of_one (s := h.put s) hlast]
    rfl
  · rw [pqRemoveRoot_of_more hlast, pqRemoveRoot_of_more (s := h.put s) hlast, put_heapSize, lastToRoot_put,
      siftDown_put]

/-! ### BUILD -/

theorem addLeaves_put : ∀ (syms : List Nat) (k : Nat) (s : State),
    addLeaves syms k (h.put s) = ((addLeaves syms k s).1, h.put (addLeaves syms k s).2)
  | [], _, _ => rfl
  | sym :: syms, k, s => by
    simp only [addLeaves, put_freqAt, leafOf_put, setNode_put, pqInsert_put, addLeaves_put syms]
    split <;> rfl

theorem mergeOnce_put (k : Nat) (s : State) : mergeOnce k (h.put s) = h.put (mergeOnce k s) := by
  simp only [mergeOnce, pqExtract, put_heapAt, pqRemoveRoot_put, parentOf_put, setNode_put, pqInsert_put]

theorem mergeAll_put : ∀ (fuel k : Nat) (s : State),
    mergeAll fuel k (h.put s) = ((mergeAll fuel k s).1, h.put (mergeAll fuel k s).2)
  | 0, _, _ => rfl
  | fuel + 1, k, s => by
    simp only [mergeAll, put_heapSize, mergeOnce_put, mergeAll_put fuel]
    split <;> rfl

theorem leafPhase_put (s : State) : leafPhase (h.put s) = ((leafPhase s).1, h.put (leafPhase s).2) :=
  h.addLeaves_put _ _ { s with heapSize := 0 }

theorem mergePhase_put (s : State) : mergePhase (h.put s) = ((mergePhase s).1, h.put (mergePhase s).2) := by
  simp only [mergePhase, leafPhase_put, put_heapSize, mergeAll_put]

theorem buildTree_put (s : State) : buildTree (h.put s) = h.put (buildTree s) := by
  simp only [buildTree, pqExtract, mergePhase_put, pqRemoveRoot_put]
  rfl

/-! ### GENCODES -/

theorem walkTree_put : ∀ (fuel : Nat) (stack : List StackItem) (s : State),
    walkTree fuel stack (h.put s) = (walkTree fuel stack s).map h.put
  | _, [], _ => by simp only [walkTree, Option.map_some]
  | 0, _ :: _, _ => rfl
  | fuel + 1, t :: stack, s => by
    simp only [walkTree, put_nodeAt, setCode_put, walkTree_put fuel, apply_ite (Option.map h.put)]

theorem generateCodes_put (s : State) : generateCodes (h.put s) = (generateCodes s).map h.put := by
  rw [generateCodes, generateCodes, apply_ite (Option.map h.put), Option.map_some, ← walkTree_put]
  rfl

/-! ### DECODE -/

theorem decodeSingle_put (r : Nat) : ∀ (n i k : Nat) (s : State),
    decodeSingle r n i k (h.put s) = h.completed.put (decodeSingle r n i k s)
  | 0, _, _, _ => rfl
  | n + 1, i, k, s => by
    simp only [decodeSingle, put_bitAt, put_nodeAt, setOut_put, decodeFail_put, decodeSingle_put r n,
      apply_ite h.completed.put]

theorem decodeWalk_put (r : Nat) : ∀ (n i k cur start : Nat) (s : State),
    decodeWalk r n i k cur start (h.put s) = h.completed.put (decodeWalk r n i k cur start s)
  | 0, i, k, cur, start, s => by
    simp only [decodeWalk, decodeDone_put, decodeFail_put, apply_ite h.completed.put]
  | n + 1, i, k, cur, start, s => by
    simp only [decodeWalk, put_cfg, put_bitAt, put_nodeAt, setOut_put, decodeFail_put, decodeWalk_put r n,
      apply_ite h.completed.put]

theorem decodeBody_put (s : State) : decodeBody (h.put s) = h.completed.put (decodeBody s) := by
  simp only [decodeBody, put_cfg, put_root, put_bitLen, put_nodeAt, decodeFail_put, decodeSingle_put, decodeWalk_put,
    apply_ite h.completed.put]

/-! ## The commands do not look at it -/

theorem execBuild_put {s t : State} (he : execBuild s = .next t) :
    execBuild (h.put s) = .next (h.completed.put t) := by
  cases he
  simp only [execBuild, clearValid_put, put_cfg, put_freqs, put_present, buildTree_put, raise_put, succeed_put]
  split
  · rfl
  · split <;> rfl

theorem execGenCodes_put {s t : State} (he : execGenCodes s = .next t) :
    execGenCodes (h.put s) = .next (h.completed.put t) := by
  obtain ⟨hv, hx⟩ | ⟨hv, u, hu, hx⟩ | ⟨_, _, hx⟩ := execGenCodes_cases s <;> cases hx ▸ he
  · exact if_pos hv
  · simp only [execGenCodes, put_treeValid, hv, generateCodes_put, hu]
    rfl

theorem execPqInsert_put {id : Nat} {s t : State} (he : execPqInsert id s = .next t) :
    execPqInsert id (h.put s) = .next (h.completed.put t) := by
  cases he
  simp only [execPqInsert, put_cfg, put_heapSize, pqInsert_put, raise_put, succeed_put, apply_ite h.completed.put]

theorem execPqExtract_put {s t : State} (he : execPqExtract s = .next t) :
    execPqExtract (h.put s) = .next (h.completed.put t) := by
  cases he
  simp only [execPqExtract, pqExtract, put_cfg, put_heapSize, put_heapAt, pqRemoveRoot_put]
  split <;> rfl

/-- A command ends as it would have with another host's part, which it leaves but for DONE. -/
theorem exec_put {i : Instr} {s t : State} (he : exec i s = .next t) :
    exec i (h.put s) = .next (h.completed.put t) := by
  cases i with
  | nop => cases he; rfl
  | build => exact h.execBuild_put he
  | genCodes => exact h.execGenCodes_put he
  | decode => cases he; exact congrArg Host.Outcome.next (h.decodeBody_put s)
  | pqClear => cases he; rfl
  | pqInsert id => exact h.execPqInsert_put he
  | pqExtract => exact h.execPqExtract_put he

/-- After a completion the host's part differs from the command's result by CTRL, OVERRUN, the replies and the draws. -/
theorem completed_put_eq {t : State} (hdone : t.status.done = true) : h.completed.put t =
    { t with
      ie := h.ie
      replies := h.replies
      draws := h.draws
      status := { t.status with overrun := h.overrun } } := by
  simp only [put, completed, ← hdone]

end HostPart

/-! ## A host access to a busy block -/

theorem busyWritePlace_eq_put (p : Place) (v : Word) (s : State) :
    busyWritePlace p v s = (busyWritePlace p v s).hostPart.put s := by
  unfold busyWritePlace
  split
  · rfl
  · rw [writeStatus_eq]; rfl
  · rfl

/-- An access to a busy block changes the host's part only (R105, R106). -/
theorem hostAccess_puts {a : Access} {s s' : State} (hbusy : s.status.busy = true)
    (haccess : hostAccess a s = .next s') : ∃ h : HostPart, s' = h.put s := by
  obtain ⟨_, hx⟩ | ⟨addr, off, _, _, hx⟩ | ⟨_, off, v, _, _, hx⟩ := hostAccess_cases a s <;> cases hx ▸ haccess
  · exact ⟨(hostRead addr off s).hostPart, by rw [hostRead_eq]; rfl⟩
  · rw [hostWrite, if_pos hbusy]
    exact ⟨_, busyWritePlace_eq_put _ v s⟩

/-- Settles O12: an access changes the host's part of the busy block, and the command does not look at it. -/
theorem busyAccessesDoNotReachTheCommand : Obligations.BusyAccessesDoNotReachTheCommand := by
  intro i a s s' t hbusy haccess hexec
  obtain ⟨h, rfl⟩ := hostAccess_puts hbusy haccess
  obtain ⟨_, _, _, hst, -⟩ := exec_status hexec
  have hdone : t.status.done = true := by rw [hst]; rfl
  rw [h.exec_put hexec, h.completed_put_eq hdone]
  rfl

end Sys2Proof.Machine
end

section
/-! The command cycle (40_command_cycle.md R99 to R108): acceptance, the engine's turn, completion, and what the host's
accesses do while a command is in progress. -/

namespace Sys2Proof.Machine

/-! ## Completion -/

/-- Every command has a next state: over the tree that TREE_VALID promises, GENCODES ends (43_code_generator.md
R128). -/
theorem exec_next {s : State} (hl : s.cfg.Legal) (htree : s.TreeInv) (i : Instr) : ∃ t, exec i s = .next t := by
  cases i with
  | genCodes =>
    cases hv : s.status.treeValid with
    | false => exact ⟨_, if_pos hv⟩
    | true =>
      obtain ⟨T, harena, hroot, _, hnd, _⟩ := htree hv
      obtain ⟨t, ht, _⟩ := execGenCodes_tree hl hv harena hroot hnd
      exact ⟨t, ht⟩
  | _ => exact ⟨_, rfl⟩

/-- Settles O9: a command has a next state, which is completed, with CTRL as before. -/
theorem everyCommandCompletes : Obligations.EveryCommandCompletes := by
  intro i s hinv htree
  obtain ⟨t, ht⟩ := exec_next hinv.legal htree i
  obtain ⟨_, _, _, hst, -⟩ := exec_status ht
  obtain ⟨hframe, -⟩ := eachResultHasItsWriter i s t ht
  refine ⟨t, ht, ?_, ?_, ?_⟩
  · rw [hst]; rfl
  · rw [hst]; rfl
  · rw [State.irq, hst, hframe.ie]; rfl

/-- Settles O11: NOP by definition; OP = 0 with another bit set is an illegal word. -/
theorem nopOnlyCompletes : Obligations.NopOnlyCompletes := by
  refine ⟨fun _ => rfl, rfl, fun s hop hne hbusy hs => ?_⟩
  have hpos : s.cmdlat.toNat ≠ 0 := fun h => hne (BitVec.eq_of_toNat_eq h)
  obtain ⟨e, hdec⟩ := decodeCmd_illegal (w := s.cmdlat) (.inr (.inl ⟨by omega, by omega⟩))
  exact ⟨_, step_of_rejected hbusy hdec (.inl hs), rfl⟩

/-! ## Acceptance and the engine's turn -/

/-- Settles O8: the offset is located as CMD, whose write while idle is the acceptance. -/
theorem acceptanceLatchesTheWord : Obligations.AcceptanceLatchesTheWord := by
  intro s v rest hidle hwrites
  have hcmd : locate s.cfg 0x014 = .reg .cmd := locate_eq_reg_iff.2 rfl
  refine ⟨_, step_of_idle_writes hidle hwrites, ?_⟩
  rw [hcmd]
  exact ⟨rfl, rfl⟩

theorem step_of_idle_engine {s : State} (hidle : s.status.busy = false) (hnext : s.EngineNext) :
    step s = .next s.popEvent := by
  simp [step_of_engineNext hnext, engineTurn, hidle]

/-- Settles O6: the engine's turn in each of its three cases, from an empty script and as the script's first event. -/
theorem stepRunsDecodedCommand : Obligations.StepRunsDecodedCommand := by
  intro s rest
  refine ⟨fun hbusy i hdec => ⟨fun hs => ?_, fun hs => ?_⟩, fun hbusy e hdec => ⟨fun hs => ?_, fun hs => ?_⟩,
    fun hidle => ⟨fun hs => ?_, fun hs => ?_⟩⟩
  · rw [step_of_runs ⟨hbusy, hdec, .inl hs⟩, popEvent_of_nil hs]
  · rw [step_of_runs ⟨hbusy, hdec, .inr ⟨rest, hs⟩⟩, popEvent_of_cons hs]
  · rw [step_of_rejected hbusy hdec (.inl hs), popEvent_of_nil hs]
  · rw [step_of_rejected hbusy hdec (.inr ⟨rest, hs⟩), popEvent_of_cons hs]
  · rw [step_of_idle_engine hidle (.inl hs), popEvent_of_nil hs]
  · rw [step_of_idle_engine hidle (.inr ⟨rest, hs⟩), popEvent_of_cons hs]

/-- A word just delivered is run by the next step, in the state right after its acceptance (R99, R100). -/
theorem step_of_deliver {v : Word} {i : Instr} (hdec : decodeCmd v = .ok i) (s : State) :
    step (deliver v s) = exec i (accept v { s with inReset := false }) :=
  step_of_runs (s := deliver v s) ⟨rfl, hdec, .inr ⟨s.script, rfl⟩⟩

/-- Settles O7: the word that the opcode table's reader decodes is the one that is delivered. -/
theorem deliveredWordRunsNext : Obligations.DeliveredWordRunsNext := by
  intro s w i h
  have hword : BitVec.ofNat 32 (w % 2 ^ 32) = BitVec.ofNat 32 w := by
    rw [← BitVec.toNat_inj, BitVec.toNat_ofNat, BitVec.toNat_ofNat, Nat.mod_mod]
  unfold decodeTableWord at h
  split at h
  next hdec =>
    cases h
    rw [State.withFetchWord, step_of_deliver hdec, hword]
  next => cases h

/-! ## Host writes while BUSY -/

/-- A write while BUSY does to the place at the offset what R105 says. -/
theorem step_of_busy_writes {s : State} {off : Nat} {v : Word} {rest : List Event} (hbusy : s.status.busy = true)
    (h : s.Writes off v rest) : step s = .next (busyWritePlace (locate s.cfg off) v { s with script := rest }) := by
  have ⟨_, _, _, hs⟩ := h
  simp [step_of_writes h, popEvent_of_cons hs, hostWrite, hbusy]

/-- A write while BUSY to anything but CTRL and STATUS sets OVERRUN and is dropped (R105). -/
theorem busyWritePlace_of_dropped {p : Place} (hctrl : p ≠ .reg .ctrl) (hstatus : p ≠ .reg .status) (v : Word)
    (s : State) : busyWritePlace p v s = setOverrun s := by
  unfold busyWritePlace
  split
  · exact absurd rfl hctrl
  · exact absurd rfl hstatus
  · rfl

/-- Settles O24: the offset is located as CTRL, as STATUS, or as neither. -/
theorem busyWriteIsDroppedAndSetsOverrun : Obligations.BusyWriteIsDroppedAndSetsOverrun := by
  intro s off v rest hbusy hwrites
  have reg {r : Reg} (hoff : off = r.offset) : locate s.cfg off = .reg r := locate_eq_reg_iff.2 hoff
  have other {r : Reg} (hoff : off ≠ r.offset) : locate s.cfg off ≠ .reg r := fun h => hoff (locate_eq_reg_iff.1 h)
  rw [step_of_busy_writes hbusy hwrites]
  refine ⟨fun hoff => ?ctrl, fun hoff => ?status, fun hctrl hstatus => ?dropped⟩
  case ctrl => rw [reg (r := .ctrl) hoff, ← bitOf_toNat]; rfl
  case status => rw [reg (r := .status) hoff, busyWritePlace, writeStatus_eq, bitOf_toNat, bitOf_toNat]
  case dropped =>
    rw [busyWritePlace_of_dropped (other (r := .ctrl) hctrl) (other (r := .status) hstatus)]
    rfl

/-! ## Host reads while BUSY -/

/-- A read while BUSY answers by R106, and uses up a draw unless the place is known. -/
theorem step_of_busy_reads {s : State} {off : Nat} {rest : List Event} (hbusy : s.status.busy = true)
    (h : s.Reads off rest) : step s = .next { s with
      script := rest
      replies := { addr := s.cfg.base + off, value := busyReadPlace s (locate s.cfg off) } :: s.replies
      draws := if knownWhileBusy (locate s.cfg off) then s.draws else s.draws + 1 } := by
  have ⟨_, _, _, hs⟩ := h
  have hvalue : busyReadPlace s.popEvent (locate s.cfg off) = busyReadPlace s (locate s.cfg off) := by
    unfold busyReadPlace
    rw [readPlace_popEvent]
    rfl
  rw [step_of_reads h, hostRead, if_pos (by exact hbusy), popEvent_cfg, hvalue, ← popEvent_of_cons hs]

/-- The places that answer a read while BUSY with the free value alone (R106). -/
def Place.freeWhileBusy (p : Place) : Bool := !knownWhileBusy p && decide (p ≠ .reg .status)

theorem Place.freeWhileBusy_iff {p : Place} : p.freeWhileBusy = true ↔ knownWhileBusy p = false ∧ p ≠ .reg .status := by
  simp [Place.freeWhileBusy]

/-- The fields of STATUS read while BUSY, the reserved bits 0 (R106). -/
theorem Status.busyWord_fields (f : Status) (draw : Word) :
    (f.busyWord draw).getLsbD 0 = true ∧ (f.busyWord draw).getLsbD 1 = false ∧
      (f.busyWord draw).getLsbD 2 = draw.getLsbD 2 ∧ (f.busyWord draw).getLsbD 3 = draw.getLsbD 3 ∧
      (f.busyWord draw).getLsbD 4 = f.overrun ∧ (f.busyWord draw).toNat / 2 ^ 5 = 0 := by
  have hover := f.overrun.toNat_lt
  have hfree := low_lt 2 (draw.toNat / 2 ^ 2)
  have hword : (f.busyWord draw).toNat =
      1 + 2 ^ 2 * low 2 (draw.toNat / 2 ^ 2) + 2 ^ 4 * f.overrun.toNat := toWord_toNat (by omega)
  have hdigit (i : Nat) : (draw.getLsbD i).toNat = draw.toNat / 2 ^ i % 2 := Nat.toNat_testBit _ _
  have h2 := hdigit 2
  have h3 := hdigit 3
  unfold low at hword
  refine ⟨getLsbD_of_digit (d := true) (show _ = 1 from ?_), getLsbD_of_digit (d := false) (show _ = 0 from ?_),
    getLsbD_of_digit ?_, getLsbD_of_digit ?_, getLsbD_of_digit ?_, ?_⟩ <;> omega

/-- The registers and memory words outside ID, CFG, CFG_BITS, CTRL and STATUS, by offset (20_memory.md R65 to R67). -/
def FreeWhileBusy (c : Config) (off : Nat) : Prop :=
  off ∈ [0x014, 0x01C, 0x020, 0x024, 0x028, 0x02C, 0x030, 0x034, 0x038, 0x03C] ∨
    (freqAddr 0 ≤ off ∧ off < freqAddr c.nsym) ∨ (nodeAddr 0 ≤ off ∧ off < nodeAddr c.nodeMax) ∨
    (heapAddr 0 ≤ off ∧ off < heapAddr c.heapMax) ∨ (codeAddr 0 ≤ off ∧ off < codeAddr c.nsym) ∨
    (bitsAddr 0 ≤ off ∧ off < bitsAddr (c.bitsMax / 32)) ∨ (outAddr 0 ≤ off ∧ off < outAddr c.outMax)

theorem locate_freeWhileBusy {c : Config} (hl : c.Legal) {off : Nat} (h4 : off % 4 = 0) (h : FreeWhileBusy c off) :
    (locate c off).freeWhileBusy = true := by
  obtain hreg | hfreq | hnode | hheap | hcode | hbits | hout := h
  · simp only [List.mem_cons, List.not_mem_nil, or_false] at hreg
    rcases hreg with rfl | rfl | rfl | rfl | rfl | rfl | rfl | rfl | rfl | rfl <;> rfl
  · unfold freqAddr at hfreq
    have hoff : off = freqAddr ((off - 0x1000) / 4) := by unfold freqAddr; omega
    rw [hoff, locate_freq hl (by omega)]; rfl
  · rw [locate_of_node_region hl hnode]; rfl
  · unfold heapAddr at hheap
    have hoff : off = heapAddr ((off - 0x4000) / 4) := by unfold heapAddr; omega
    rw [hoff, locate_heap hl (by omega)]; rfl
  · unfold codeAddr at hcode
    have hoff : off = codeAddr ((off - 0x8000) / 64) + 4 * ((off - 0x8000) % 64 / 4) := by unfold codeAddr; omega
    rw [hoff, locate_code hl (by omega) (by omega)]; rfl
  · unfold bitsAddr at hbits
    have hoff : off = bitsAddr ((off - 0x10000) / 4) := by unfold bitsAddr; omega
    rw [hoff, locate_bits hl (by omega)]; rfl
  · unfold outAddr at hout
    have hoff : off = outAddr ((off - 0x40000) / 4) := by unfold outAddr; omega
    rw [hoff, locate_out hl (by omega)]; rfl

/-- Settles O25: each offset is located as a known register, as STATUS, or as a place that answers with the free
value. -/
theorem busyReadIsKnownOrFree : Obligations.BusyReadIsKnownOrFree := by
  intro s off rest hl hbusy hreads
  have ⟨_, _, h4, _⟩ := hreads
  have reg {r : Reg} (hoff : off = r.offset) : locate s.cfg off = .reg r := locate_eq_reg_iff.2 hoff
  have hbitsMax := legal_bitsMax_le hl
  have hie := s.ie.toNat_lt
  refine ⟨_, _, step_of_busy_reads hbusy hreads, rfl, fun hoff => ?id, fun hoff => ?cfg, fun hoff => ?cfgBits,
    fun hoff => ?ctrl, fun hoff => ?status, fun hoff => ?free⟩
  case id => rw [reg (r := .id) hoff]; rfl
  case cfg => rw [reg (r := .cfg) hoff]; rfl
  case cfgBits => rw [reg (r := .cfgBits) hoff]; exact toWord_toNat (by omega)
  case ctrl => rw [reg (r := .ctrl) hoff]; exact toWord_toNat (by omega)
  case status =>
    rw [reg (r := .status) hoff]
    obtain ⟨hbusy', hdone, htree, hcodes, hover, hrest⟩ := s.status.busyWord_fields (Config.draw s.draws)
    exact ⟨hbusy', hdone, htree, hcodes, hover, hrest, rfl⟩
  case free =>
    obtain ⟨hknown, hstatus⟩ := Place.freeWhileBusy_iff.1 (locate_freeWhileBusy hl h4 hoff)
    simp [busyReadPlace, hknown, hstatus]

end Sys2Proof.Machine
end

section
/-! The three queue commands (41_priority_queue.md R109 to R116): which HEAP words they write, what they answer, and
the heap invariant over every step. -/

namespace Sys2Proof.Machine

/-! ## The HEAP words written -/

/-- From `s` to `t` at most HEAP_SIZE and the HEAP words of the positions `W` changed. -/
structure State.OnlyHeapAt (s t : State) (W : Nat → Prop) : Prop where
  frame : t = { s with heap := t.heap, heapSize := t.heapSize }
  bytes : ∀ off, (∀ i, W i → off < heapAddr i ∨ heapAddr i + 4 ≤ off) →
    Memory.byte s.epoch t.heap off = Memory.byte s.epoch s.heap off

namespace State.OnlyHeapAt

variable {s t u : State} {W V : Nat → Prop}

theorem refl (s : State) (W : Nat → Prop) : s.OnlyHeapAt s W := ⟨rfl, fun _ _ => rfl⟩

theorem trans (h1 : s.OnlyHeapAt t W) (h2 : t.OnlyHeapAt u W) : s.OnlyHeapAt u W where
  frame := h2.frame.trans (by rw [h1.frame])
  bytes off hoff := by
    have hepoch : t.epoch = s.epoch := by rw [h1.frame]
    exact (hepoch ▸ h2.bytes off hoff).trans (h1.bytes off hoff)

theorem mono (h : s.OnlyHeapAt t V) (hVW : ∀ i, V i → W i) : s.OnlyHeapAt t W :=
  ⟨h.frame, fun off hoff => h.bytes off fun i hi => hoff i (hVW i hi)⟩

theorem setHeap (s : State) {i : Nat} (id : Nat) (hi : W i) : s.OnlyHeapAt (setHeap s i id) W :=
  ⟨rfl, fun _ hoff => byte_storeWord_outside _ _ _ (hoff i hi)⟩

theorem swapHeap (s : State) {i j : Nat} (hi : W i) (hj : W j) : s.OnlyHeapAt (swapHeap s i j) W :=
  (setHeap s _ hi).trans (setHeap _ _ hj)

/-- The entries at the other positions are as before. -/
theorem heapAt (h : s.OnlyHeapAt t W) {j : Nat} (hj : ¬ W j) : t.heapAt j = s.heapAt j := by
  have hload : Memory.loadWord s.epoch t.heap (heapAddr j) = Memory.loadWord s.epoch s.heap (heapAddr j) :=
    load_congr _ fun off h1 h2 => h.bytes off fun i hi => by
      have hne : i ≠ j := fun heq => hj (heq ▸ hi)
      simp only [heapAddr] at h1 h2 ⊢; omega
  have hcfg : t.cfg = s.cfg := by rw [h.frame]
  have hepoch : t.epoch = s.epoch := by rw [h.frame]
  rw [State.heapAt, State.heapAt, hcfg, hepoch, hload]

/-- With all positions below `n`, the bytes outside the words of 0..n-1 are as before, in every memory. -/
theorem sameBytesBut (h : s.OnlyHeapAt t W) {n : Nat} (hW : ∀ i, W i → i < n) :
    s.SameBytesBut t (heapAddr 0) (heapAddr n) := by
  intro off hoff
  have hbyte := h.bytes off fun i hi => by
    have hin := hW i hi
    simp only [heapAddr] at hoff ⊢; omega
  rw [h.frame]
  unfold State.memByte State.memoryAt
  split_ifs
  any_goals rfl
  exact hbyte

end State.OnlyHeapAt

/-! ### Sift-up writes the path to the root -/

theorem OnPathUp.le {i j : Nat} (h : OnPathUp i j) : j ≤ i := by
  induction h with
  | here => exact le_rfl
  | up => omega

theorem siftUp_onlyHeapAt : ∀ (fuel i : Nat) (s : State), s.OnlyHeapAt (siftUp fuel i s) (OnPathUp i)
  | 0, _, s => .refl s _
  | fuel + 1, i, s => by
    unfold siftUp
    split
    next => exact .refl s _
    next h0 =>
      split
      next =>
        have hup : ∀ {j}, OnPathUp ((i - 1) / 2) j → OnPathUp i j := .up (Nat.pos_of_ne_zero h0)
        exact (State.OnlyHeapAt.swapHeap s (.here i) (hup (.here _))).trans
          ((siftUp_onlyHeapAt fuel _ _).mono fun _ => hup)
      next => exact .refl s _

theorem pqInsert_onlyHeapAt (id : Nat) (s : State) : s.OnlyHeapAt (pqInsert id s) (OnPathUp s.heapSize) := by
  have happend : s.OnlyHeapAt (appendEntry id s) (OnPathUp s.heapSize) :=
    ⟨rfl, (State.OnlyHeapAt.setHeap s id (.here _)).bytes⟩
  rw [pqInsert_eq_siftUp]
  exact happend.trans (siftUp_onlyHeapAt _ _ _)

/-! ### Sift-down writes within the queue -/

theorem siftDown_onlyHeapAt : ∀ (fuel i : Nat) (s : State), i < s.heapSize →
    s.OnlyHeapAt (siftDown fuel i s) (· < s.heapSize)
  | 0, _, s, _ => .refl s _
  | fuel + 1, i, s, hi => by
    unfold siftDown
    split
    next => exact .refl s _
    next hin =>
      have hc := (smallerChild_cases s i (by omega)).2
      split
      next =>
        have hrest := siftDown_onlyHeapAt fuel _ (swapHeap s (smallerChild s i) i) (by simpa using hc)
        rw [swapHeap_heapSize] at hrest
        exact (State.OnlyHeapAt.swapHeap (W := (· < s.heapSize)) s hc hi).trans hrest
      next => exact .refl s _

theorem pqRemoveRoot_onlyHeapAt (s : State) : s.OnlyHeapAt (pqRemoveRoot s) (· < s.heapSize - 1) := by
  by_cases hz : s.heapSize - 1 = 0
  · rw [pqRemoveRoot_of_one hz]
    exact ⟨rfl, fun _ _ => rfl⟩
  · have hpos : 0 < s.heapSize - 1 := Nat.pos_of_ne_zero hz
    have hroot : s.OnlyHeapAt (lastToRoot s) (· < s.heapSize - 1) :=
      ⟨rfl, (State.OnlyHeapAt.setHeap (W := (· < s.heapSize - 1)) s (s.heapAt (s.heapSize - 1)) hpos).bytes⟩
    rw [pqRemoveRoot_of_more hz]
    exact hroot.trans (siftDown_onlyHeapAt _ 0 (lastToRoot s) hpos)

/-! ## The commands -/

theorem exec_pqInsert_of_fits {s : State} {id : Nat} (hid : id < s.cfg.nodeMax) (hsize : s.heapSize < s.cfg.heapMax) :
    exec (.pqInsert id) s = .next (succeed (pqInsert id s)) := by
  obtain ⟨hbad, _⟩ | ⟨_, hfull, _⟩ | ⟨_, _, he⟩ := execPqInsert_cases id s
  · omega
  · omega
  · exact he

theorem exec_pqExtract_of_pos {s : State} (h0 : 0 < s.heapSize) :
    exec .pqExtract s = .next (succeed { pqRemoveRoot s with pqResult := s.heapAt 0 }) := by
  obtain ⟨hz, _⟩ | ⟨_, he⟩ := execPqExtract_cases s
  · omega
  · exact he

/-- Settles O29: PQ_CLEAR by definition. -/
theorem pqClearEmptiesTheQueue : Obligations.PqClearEmptiesTheQueue := fun _ => rfl

/-- Settles O31, by the cases of PQ_INSERT. -/
theorem pqInsertFailsByName : Obligations.PqInsertFailsByName := by
  intro s id
  obtain ⟨hbad, he⟩ | ⟨hid, hfull, he⟩ | ⟨hid, hroom, _⟩ := execPqInsert_cases id s
  · exact ⟨fun _ => he, fun hid => absurd hbad (not_le.2 hid)⟩
  · exact ⟨fun hbad => absurd hbad (not_le.2 hid), fun _ _ => he⟩
  · exact ⟨fun hbad => absurd hbad (not_le.2 hid), fun _ hfull => absurd hfull hroom⟩

/-- Settles O33, by the cases of PQ_EXTRACT. -/
theorem pqExtractOnEmptyQueueFails : Obligations.PqExtractOnEmptyQueueFails := by
  intro s hz
  obtain ⟨_, he⟩ | ⟨hpos, _⟩ := execPqExtract_cases s
  · exact he
  · omega

/-- Settles O30: PQ_INSERT appends the entry and sifts it up, which swaps entries of the path to the root. -/
theorem pqInsertAddsTheEntry : Obligations.PqInsertAddsTheEntry := by
  intro s id hinv hid hsize
  have honly := pqInsert_onlyHeapAt id s
  refine ⟨_, exec_pqInsert_of_fits hid hsize, ?_, ?_, fun j hj => honly.heapAt hj, ?_⟩
  · rw [pqInsert_eq]; rfl
  · exact queue_pqInsert hinv.legal (lt_trans hid (Config.nodeMax_lt _))
  · exact honly.sameBytesBut fun _ hi => Nat.lt_succ_of_le hi.le

/-- Settles O32: PQ_EXTRACT moves the last entry to the root and sifts it down, within the shrunken queue. -/
theorem pqExtractTakesTheRoot : Obligations.PqExtractTakesTheRoot := by
  intro s hinv h0
  have honly := pqRemoveRoot_onlyHeapAt s
  refine ⟨_, exec_pqExtract_of_pos h0, ?_, ?_, fun j hj => honly.heapAt (not_lt.2 hj), ?_⟩
  · rw [pqRemoveRoot_eq]; rfl
  · exact (queue_pqRemoveRoot hinv.legal h0).symm
  · exact honly.sameBytesBut fun _ => id

/-! ## The heap invariant -/

/-- An entry at the root of an ordered heap has least key, told by ids (R113). -/
theorem State.HeapOrder.root_least_of_mem {s : State} (h : s.HeapOrder) {id : Nat} (hid : id ∈ s.queue) :
    ¬ lexLt (s.key id) (s.key (s.heapAt 0)) := by
  obtain ⟨j, hj, rfl⟩ := List.mem_map.1 hid
  exact h.root_least j (List.mem_range.1 hj)

/-- Keys of different ids differ, so one of them is the less (R109). -/
theorem lexLt_key_of_not_lexLt {s : State} {a b : Nat} (hne : a ≠ b) (h : ¬ lexLt (s.key a) (s.key b)) :
    lexLt (s.key b) (s.key a) := by
  simp only [State.key] at h ⊢; omega

/-- Settles O34: both sift loops mend the heap, and the root of an ordered heap is the entry of least key. -/
theorem queueCommandsKeepHeapOrder : Obligations.QueueCommandsKeepHeapOrder := by
  intro s hinv h
  refine ⟨fun id hid hsize => ⟨_, exec_pqInsert_of_fits hid hsize, rfl, pqInsert_heapOrder hinv.legal h id⟩,
    fun h0 => ⟨_, exec_pqExtract_of_pos h0, rfl, pqRemoveRoot_heapOrder hinv.legal h, fun id hid => ?_,
      fun _ id hid hne => ?_⟩⟩
  · exact h.root_least_of_mem hid
  · exact lexLt_key_of_not_lexLt hne (h.root_least_of_mem hid)

namespace State.HeapOrder

theorem of_empty {s : State} (h : s.heapSize = 0) : s.HeapOrder := fun _ _ hi => by omega

variable {s : State} (h : s.HeapOrder)
include h

theorem hostRead (addr off : Nat) : (Machine.hostRead addr off s).HeapOrder := by
  rw [hostRead_eq]; exact h

theorem writeStatus (v : Nat) : (Machine.writeStatus v s).HeapOrder := by
  rw [writeStatus_eq]; exact h

theorem busyWritePlace (p : Place) (v : Word) : (Machine.busyWritePlace p v s).HeapOrder := by
  unfold Machine.busyWritePlace
  split
  · exact h
  · exact h.writeStatus _
  · exact h

/-- Of the writes while idle, only that of a NODE word reaches a key, and none reaches the queue. -/
theorem writePlace {p : Place} (v : Word) (hp : ∀ id j, p ≠ .node id j) : (Machine.writePlace p v s).HeapOrder := by
  cases p with
  | node id j => exact absurd rfl (hp id j)
  | reg r => cases r with
    | status => exact h.writeStatus _
    | _ => exact h
  | _ => exact h

theorem hostWrite {off : Nat} (v : Word)
    (hoff : s.status.busy = false → ¬ (nodeAddr 0 ≤ off ∧ off < nodeAddr s.cfg.nodeMax)) :
    (Machine.hostWrite off v s).HeapOrder := by
  unfold Machine.hostWrite
  split
  next => exact h.busyWritePlace _ v
  next hidle =>
    exact h.writePlace v fun id j hloc => hoff (Bool.eq_false_iff.2 hidle) (node_region_of_locate hloc)

/-- A BUILD that fails leaves the arena and the queue, and one that succeeds leaves the queue empty (R120, R121). -/
theorem execBuild {t : State} (he : Machine.execBuild s = .next t) : t.HeapOrder := by
  obtain ⟨_, hx⟩ | ⟨_, sym, _, hx⟩ | ⟨hp, _, hx⟩ := execBuild_cases s <;> rw [hx] at he <;> cases he
  · exact h
  · exact h
  · exact of_empty (buildTree_heapSize (clearValid s) hp)

theorem execPqInsert (hl : s.cfg.Legal) {id : Nat} {t : State} (he : Machine.execPqInsert id s = .next t) :
    t.HeapOrder := by
  obtain ⟨_, hx⟩ | ⟨_, _, hx⟩ | ⟨_, _, hx⟩ := execPqInsert_cases id s <;> rw [hx] at he <;> cases he
  · exact h
  · exact h
  · exact pqInsert_heapOrder hl h id

theorem execPqExtract (hl : s.cfg.Legal) {t : State} (he : Machine.execPqExtract s = .next t) : t.HeapOrder := by
  obtain ⟨_, hx⟩ | ⟨_, hx⟩ := execPqExtract_cases s <;> rw [hx] at he <;> cases he
  · exact h
  · exact pqRemoveRoot_heapOrder hl h

theorem exec (hl : s.cfg.Legal) {i : Instr} {t : State} (he : Machine.exec i s = .next t) : t.HeapOrder := by
  cases i with
  | nop => cases he; exact h
  | build => exact h.execBuild he
  | genCodes => obtain ⟨_, _, _, _, rfl⟩ := execGenCodes_frame he; exact h
  | decode => obtain ⟨_, _, _, _, _, rfl⟩ := execDecode_frame he; exact h
  | pqClear => cases he; exact of_empty rfl
  | pqInsert id => exact h.execPqInsert hl he
  | pqExtract => exact h.execPqExtract hl he

end State.HeapOrder

/-- Settles O35: the commands of the queue mend it, BUILD and reset empty it, and of the rest only a write of a NODE
word reaches what the order speaks of. -/
theorem stepKeepsHeapOrder : Obligations.StepKeepsHeapOrder := by
  intro s t hinv h hstep hnode
  have hpop : s.popEvent.HeapOrder := h
  cases stepDoes_of_step hstep with
  | nothing => exact hpop
  | command _ result => exact hpop.exec hinv.legal result
  | illegal => exact hpop
  | read addr off => exact hpop.hostRead addr off
  | write writes => exact hpop.hostWrite _ fun hidle hoff => hnode ⟨_, _, _, hidle, writes, hoff⟩
  | reset => exact .of_empty rfl

end Sys2Proof.Machine
end

section
/-! The two errors of BUILD (42_tree_builder.md R117, R121), and what a success says of the counts. -/

namespace Sys2Proof.Machine

/-- The running sum of R117 first reaches the limit at the `k`-th count. -/
theorem firstOverflow_eq_some {limit : Nat} : ∀ {fs : List Nat} {k : Nat} (sym total : Nat), k < fs.length →
    total + (fs.take k).sum < limit → limit ≤ total + (fs.take (k + 1)).sum →
    firstOverflow limit fs sym total = some (sym + k)
  | [], _, _, _, hk, _, _ => absurd hk (Nat.not_lt_zero _)
  | f :: fs, 0, sym, total, _, _, hreach => by
    rw [firstOverflow, if_pos (by simpa using hreach), Nat.add_zero]
  | f :: fs, k + 1, sym, total, hk, hbelow, hreach => by
    simp only [List.take_succ_cons, List.sum_cons, List.length_cons] at hk hbelow hreach
    rw [firstOverflow, if_neg (by omega), firstOverflow_eq_some (k := k) _ _ (by omega) (by omega) (by omega),
      Nat.add_assoc, Nat.add_comm 1 k]

theorem freqs_take (s : State) {k : Nat} (hk : k ≤ s.cfg.nsym) :
    s.freqs.take k = (List.range k).map s.freqAt := by
  rw [State.freqs, ← List.map_take, List.take_range, Nat.min_eq_left hk]

/-- There is no present symbol iff every count is 0. -/
theorem present_eq_zero_iff {s : State} : s.present = 0 ↔ ∀ sym < s.cfg.nsym, s.freqAt sym = 0 := by
  simp [present_eq, List.countP_eq_zero]

/-- Settles O36: the first check finds the empty table, the second the first overflow of the running sum. -/
theorem failedBuildChangesOnlyFlags : Obligations.FailedBuildChangesOnlyFlags := by
  refine fun s => ⟨fun hzero => ?_, fun k hk hreach hbelow => ?_⟩
  · obtain ⟨_, he⟩ | ⟨hpresent, _⟩ | ⟨hpresent, _⟩ := execBuild_cases s
    · exact he
    · exact absurd (present_eq_zero_iff.2 hzero) hpresent
    · exact absurd (present_eq_zero_iff.2 hzero) hpresent
  · have hfirst : firstOverflow (2 ^ s.cfg.weightW) s.freqs 0 0 = some (0 + k) :=
      firstOverflow_eq_some 0 0 (by simpa [State.freqs] using hk)
        (by rwa [freqs_take s hk.le, Nat.zero_add]) (by rwa [freqs_take s hk, Nat.zero_add])
    rw [Nat.zero_add] at hfirst
    obtain ⟨hpresent, _⟩ | ⟨_, sym, hsym, he⟩ | ⟨_, hnone, _⟩ := execBuild_cases s
    · have hall : ∀ f ∈ (List.range (k + 1)).map s.freqAt, f = 0 := by
        intro f hf
        obtain ⟨sym, hsym, rfl⟩ := List.mem_map.1 hf
        exact present_eq_zero_iff.1 hpresent sym (by have := List.mem_range.1 hsym; omega)
      have hpos := Nat.two_pow_pos s.cfg.weightW
      have hsum := List.sum_eq_zero hall
      omega
    · obtain rfl : k = sym := Option.some.inj (hfirst.symm.trans hsym)
      exact he
    · exact absurd (hfirst.symm.trans hnone) (by simp)

/-- A BUILD succeeds only if there are present symbols and their counts sum below 2^WEIGHT_W, and is then its loops
(R117). -/
theorem execBuild_ok {s t : State} (h : execBuild s = .next t) (hok : t.status.err = .ok) :
    s.presentSyms ≠ [] ∧ s.freqs.sum < 2 ^ s.cfg.weightW ∧ t = succeed (buildTree (clearValid s)) := by
  obtain ⟨_, he⟩ | ⟨_, sym, _, he⟩ | ⟨hpresent, hnone, he⟩ := execBuild_cases s <;> rw [he] at h <;> cases h
  · cases hok
  · cases hok
  · have hsum := sum_lt_of_firstOverflow (Nat.two_pow_pos _) hnone
    rw [present_eq_length, Ne, List.length_eq_zero_iff] at hpresent
    exact ⟨hpresent, by rwa [Nat.zero_add] at hsum, rfl⟩

end Sys2Proof.Machine
end

section
/-! What BUILD writes in the memories (42_tree_builder.md R118, R119): NODE slots and HEAP words from 0 on. -/

namespace Sys2Proof.Machine

/-- Outside NODE 0..n-1 and HEAP 0..m-1 every byte of memory is as before. -/
def State.SameBytesAbove (s t : State) (n m : Nat) : Prop :=
  ∀ off, (off < nodeAddr 0 ∨ nodeAddr n ≤ off) → (off < heapAddr 0 ∨ heapAddr m ≤ off) → t.memByte off = s.memByte off

namespace State.SameBytesAbove

variable {s t u : State} {n m : Nat}

theorem of_memByte_eq (h : t.memByte = s.memByte) : s.SameBytesAbove t n m := fun off _ _ => congrFun h off

theorem trans (h1 : s.SameBytesAbove t n m) (h2 : t.SameBytesAbove u n m) : s.SameBytesAbove u n m :=
  fun off hnode hheap => (h2 off hnode hheap).trans (h1 off hnode hheap)

theorem setNodeWord (s : State) {id j : Nat} (v : Nat) (hid : id < n) (hj : j < 4) :
    s.SameBytesAbove (setNodeWord s id j v) n m := fun off hnode _ =>
  sameBytesBut_setNodeWord s id j v off (by simp only [nodeAddr] at hnode ⊢; omega)

theorem setNode (s : State) {id : Nat} (d : Node) (hid : id < n) : s.SameBytesAbove (setNode s id d) n m :=
  (setNodeWord s _ hid (by decide)).trans ((setNodeWord _ _ hid (by decide)).trans
    ((setNodeWord _ _ hid (by decide)).trans (setNodeWord _ _ hid (by decide))))

theorem of_onlyHeapAt {W : Nat → Prop} (h : s.OnlyHeapAt t W) (hW : ∀ i, W i → i < m) : s.SameBytesAbove t n m :=
  fun off _ hheap => h.sameBytesBut hW off hheap

/-- A node written into a slot below `n` and queued. -/
theorem plant (s : State) {id : Nat} (d : Node) (hid : id < n) (hsize : s.heapSize < m) :
    s.SameBytesAbove (pqInsert id (Machine.setNode s id d)) n m :=
  (setNode s d hid).trans (of_onlyHeapAt (pqInsert_onlyHeapAt id _) fun _ hi => by
    have hle := hi.le
    rw [setNode_heapSize] at hle
    omega)

theorem pqRemoveRoot (s : State) (hsize : s.heapSize ≤ m) : s.SameBytesAbove (pqRemoveRoot s) n m :=
  of_onlyHeapAt (pqRemoveRoot_onlyHeapAt s) fun _ hi => by omega

theorem mergeOnce (s : State) {k : Nat} (hk : k < n) (htwo : 1 < s.heapSize) (hsize : s.heapSize ≤ m) :
    s.SameBytesAbove (mergeOnce k s) n m :=
  (pqRemoveRoot s hsize).trans ((pqRemoveRoot _ (by simp; omega)).trans (plant _ _ hk (by simp; omega)))

theorem addLeaves : ∀ (syms : List Nat) (k : Nat) (s : State),
    k + (syms.filter fun sym => decide (s.freqAt sym ≠ 0)).length ≤ n →
    s.heapSize + (syms.filter fun sym => decide (s.freqAt sym ≠ 0)).length ≤ m →
    s.SameBytesAbove (addLeaves syms k s).2 n m
  | [], _, _, _, _ => of_memByte_eq rfl
  | sym :: syms, k, s, hk, hsize => by
    unfold Machine.addLeaves
    split
    next h0 =>
      rw [List.filter_cons_of_neg (by simpa using h0)] at hk hsize
      exact addLeaves syms k s hk hsize
    next h0 =>
      rw [List.filter_cons_of_pos (by simpa using h0), List.length_cons] at hk hsize
      refine (plant s (leafOf s sym) (by omega) (by omega)).trans (addLeaves syms (k + 1) _ ?_ ?_) <;>
        simp only [pqInsert_freqAt, freqAt_setNode, pqInsert_heapSize, setNode_heapSize] <;> omega

theorem mergeAll : ∀ (fuel k : Nat) (s : State), k + s.heapSize ≤ n + 1 → s.heapSize ≤ m →
    s.SameBytesAbove (mergeAll fuel k s).2 n m
  | 0, _, _, _, _ => of_memByte_eq rfl
  | fuel + 1, k, s, hk, hsize => by
    unfold Machine.mergeAll
    split
    · exact (mergeOnce s (by omega) (by omega) hsize).trans
        (mergeAll fuel (k + 1) _ (by rw [mergeOnce_heapSize]; omega) (by rw [mergeOnce_heapSize]; omega))
    · exact of_memByte_eq rfl

/-- With n present symbols BUILD writes NODE 0..2n-2 and HEAP 0..n-1 only. -/
theorem buildTree (s : State) (h0 : s.presentSyms ≠ []) :
    s.SameBytesAbove (buildTree s) (2 * s.presentSyms.length - 1) s.presentSyms.length := by
  have hpos := List.length_pos_iff.2 h0
  have hlen := present_eq_length s
  obtain ⟨hids, hqueue⟩ := leafPhase_counts s
  have hstart : s.SameBytesAbove { s with heapSize := 0 } (2 * s.presentSyms.length - 1) s.presentSyms.length :=
    of_memByte_eq rfl
  have hleaf := hstart.trans (addLeaves (List.range s.cfg.nsym) 0 { s with heapSize := 0 }
    (show 0 + s.presentSyms.length ≤ _ by omega) (show 0 + s.presentSyms.length ≤ _ by omega))
  have hmerge := hleaf.trans (mergeAll (leafPhase s).2.heapSize (leafPhase s).1 (leafPhase s).2 (by omega) (by omega))
  have hsize : (mergePhase s).2.heapSize = 1 := (mergePhase_counts s (by omega)).2
  have hlast := hmerge.trans (pqRemoveRoot (mergePhase s).2 (by omega))
  exact hlast.trans (of_memByte_eq rfl)

end State.SameBytesAbove

/-! ## The tree at ROOT -/

/-- With children below parents the root is the last slot of the tree (R126). -/
theorem HTree.ChildrenSmaller.id_le : ∀ {T : HTree}, T.ChildrenSmaller → ∀ id ∈ T.ids, id ≤ T.id
  | .leaf _ _ _, _, _, hid => (List.mem_singleton.1 hid).le
  | .node k l r, ⟨⟨hl, hr⟩, hsl, hsr⟩, id, hid => by
    obtain rfl | hid := List.mem_cons.1 hid
    · exact le_rfl
    · rw [id_node]
      obtain hid | hid := List.mem_append.1 hid
      · exact (hsl.id_le id hid).trans hl.le
      · exact (hsr.id_le id hid).trans hr.le

theorem HTree.id_eq_of_ids_perm {T : HTree} (h : T.ChildrenSmaller) {n : Nat} (hids : T.ids.Perm (List.range n)) :
    T.id = n - 1 := by
  have hlt := List.mem_range.1 (hids.mem_iff.1 T.id_mem_ids)
  have hle := h.id_le (n - 1) (hids.mem_iff.2 (List.mem_range.2 (by omega)))
  omega

/-- The tree weighs as much as all the counts together (R122). -/
theorem Huffman.weight_eq_sum {s : State} {T : HTree} (h : Huffman (leafTrees s.freqAt 0 s.presentSyms) T) :
    T.weight = s.freqs.sum := by
  rw [(h.weighedBy (leafTrees_weighedBy _ _ _)).weight_eq, (h.symbols_perm_present.map _).sum_eq, presentSyms_sum]

/-- Settles O37: the tree is that of Huffman's algorithm, and ROOT its last slot. -/
theorem buildPlantsTheTree : Obligations.BuildPlantsTheTree := by
  intro s hinv h0 hsum
  obtain ⟨t, T, hbuild, hframe, hT, harena, hroot, hids, hsmaller⟩ := execBuild_huffman hinv.legal h0 hsum
  have hloops : succeed (buildTree (clearValid s)) = t := by
    simpa [execBuild_of_sum_lt h0 hsum] using hbuild
  have hcount : t.nodeCount = 2 * s.presentSyms.length - 1 := by rw [hframe]
  have hlast : t.root = 2 * s.presentSyms.length - 2 := by
    rw [← hroot, HTree.id_eq_of_ids_perm hsmaller hids, hcount]; omega
  refine ⟨t, T, hbuild, hlast ▸ hframe, harena, hroot, hids, hsmaller, hT.symbols_perm_present, hT.weight_eq_sum, ?_⟩
  exact hloops ▸ State.SameBytesAbove.buildTree (clearValid s) h0

end Sys2Proof.Machine
end

section
/-! The nodes BUILD numbers (42_tree_builder.md R118, R123): the leaves in symbol order, then the parents. -/

namespace Sys2Proof.Machine

/-- The forest Huffman's algorithm began with stands in the arena with the tree it made. -/
theorem Huffman.inArena {t : State} {F : List HTree} {T : HTree} (h : Huffman F T) (hT : T.InArena t) :
    ∀ U ∈ F, U.InArena t := by
  induction h with
  | single T => simpa using hT
  | merge id pick _ _ _ ih =>
    obtain ⟨⟨_, ha, hb⟩, hrest⟩ := List.forall_mem_cons.1 (ih hT)
    exact fun U hU => List.forall_mem_cons.2 ⟨ha, List.forall_mem_cons.2 ⟨hb, hrest⟩⟩ U (pick.mem_iff.1 hU)

/-- A slot of the tree that is none of the forest's holds a parent (10_state.md R54). -/
theorem Huffman.parent_of_not_mem {t : State} {F : List HTree} {T : HTree} (h : Huffman F T) (hT : T.InArena t)
    {id : Nat} (hid : id ∈ T.ids) (hnew : id ∉ F.flatMap HTree.ids) :
    (t.nodeAt id).isLeaf = false ∧ (t.nodeAt id).sym = 0 := by
  induction h with
  | single T => exact absurd (by simpa using hid) hnew
  | @merge F rest a b T k pick _ _ next ih =>
    by_cases hk : id = k
    · obtain ⟨⟨_, hnode⟩, _⟩ := next.inArena hT (.node k a b) (by simp)
      rw [hk, hnode]
      exact ⟨rfl, rfl⟩
    · refine ih hT hid fun hmem => hnew ((pick.flatMap_right _).mem_iff.2 ?_)
      simpa [HTree.ids, hk] using hmem

theorem leafTrees_ids (count : Nat → Nat) (syms : List Nat) :
    (leafTrees count 0 syms).map HTree.id = List.range syms.length := by
  rw [List.range_eq_range', ← List.zipIdx_map_snd]
  simp [leafTrees, Function.comp_def]

theorem leafTrees_flatMap_ids (count : Nat → Nat) (syms : List Nat) :
    (leafTrees count 0 syms).flatMap HTree.ids = List.range syms.length := by
  rw [← leafTrees_ids count syms, leafTrees, List.flatMap_map, List.map_map, List.map_eq_flatMap]
  rfl

theorem mem_leafTrees {count : Nat → Nat} {syms : List Nat} {k sym : Nat} (h : syms[k]? = some sym) :
    HTree.leaf k sym (count sym) ∈ leafTrees count 0 syms :=
  List.mem_map.2 ⟨(sym, k), List.mem_zipIdx_iff_getElem?.2 h, rfl⟩

/-- Settles O38: the leaves are the forest that Huffman's algorithm began with, and the other slots of its tree hold
parents. -/
theorem buildNumbersTheLeavesInSymbolOrder : Obligations.BuildNumbersTheLeavesInSymbolOrder := by
  intro s t hinv hbuild hok
  obtain ⟨h0, hsum, _⟩ := execBuild_ok hbuild hok
  obtain ⟨u, T, hu, hframe, hT, harena, -, hids, -⟩ := execBuild_huffman hinv.legal h0 hsum
  obtain rfl : u = t := Host.Outcome.next.inj (hu.symm.trans hbuild)
  have hnil : u.cfg.nil = s.cfg.nil := by rw [hframe]
  refine ⟨fun k sym hk => ?_, fun id hn hid => ?_⟩
  · obtain ⟨_, hleaf⟩ := hT.inArena harena _ (mem_leafTrees hk)
    rw [hleaf, hnil]
  · refine hT.parent_of_not_mem harena (hids.mem_iff.2 (List.mem_range.2 hid)) ?_
    rw [leafTrees_flatMap_ids, List.mem_range]
    omega

/-- Settles O40: the tree has the one slot 0, which is the symbol's leaf. -/
theorem buildOfOneSymbolIsItsLeaf : Obligations.BuildOfOneSymbolIsItsLeaf := by
  intro s sym hinv hone
  have hsum : s.freqs.sum < 2 ^ s.cfg.weightW := by
    rw [← presentSyms_sum, hone]
    simpa using freqAt_lt s sym
  obtain ⟨t, _, hbuild, hframe, -⟩ := buildPlantsTheTree s hinv (by simp [hone]) hsum
  have hok : t.status.err = .ok := by rw [hframe]
  obtain ⟨hleaf, -⟩ := buildNumbersTheLeavesInSymbolOrder s t hinv hbuild hok
  refine ⟨t, hbuild, hok, ?_, hleaf 0 sym (by simp [hone]), ?_, ?_, ?_, ?_⟩ <;> rw [hframe]
  all_goals simp [hone]

end Sys2Proof.Machine
end

section
/-! The optimality of BUILD's tree (42_tree_builder.md R127): every tree's depths meet Kraft's inequality, and the
arena holds no other tree at ROOT. -/

namespace Sys2Proof.Machine

/-- The arena holds at most one tree at a slot. -/
theorem HTree.InArena.unique {s : State} : ∀ {T U : HTree}, T.InArena s → U.InArena s → T.id = U.id → T = U
  | .leaf _ _ _, .leaf _ _ _, ⟨_, hT⟩, ⟨_, hU⟩, hid => by
    obtain rfl := hid
    simp_all
  | .leaf _ _ _, .node _ _ _, ⟨_, hT⟩, ⟨⟨_, hU⟩, _⟩, hid => by
    obtain rfl := hid
    simp [hT] at hU
  | .node _ _ _, .leaf _ _ _, ⟨⟨_, hT⟩, _⟩, ⟨_, hU⟩, hid => by
    obtain rfl := hid
    simp [hT] at hU
  | .node k l r, .node _ l' r', ⟨⟨_, hT⟩, hl, hr⟩, ⟨⟨_, hU⟩, hl', hr'⟩, hid => by
    obtain rfl : k = _ := hid
    obtain ⟨-, hleft, hright⟩ : l.weight + r.weight = l'.weight + r'.weight ∧ l.id = l'.id ∧ r.id = r'.id := by
      simpa [hT] using hU
    rw [hl.unique hl' hleft, hr.unique hr' hright]

/-- The depths of the leaves, left to right. -/
def HTree.depths (U : HTree) : List Nat := U.paths.map fun p => p.2.length

theorem HTree.depths_node (id : Nat) (l r : HTree) :
    (HTree.node id l r).depths = (l.depths ++ r.depths).map (· + 1) := by
  simp [depths, paths, Function.comp_def]

/-- One more level leaves the room that depths take. -/
theorem room_succ (L : Nat) (D : List Nat) : room (L + 1) (D.map (· + 1)) = room L D := by
  simp [room, Function.comp_def]

theorem room_append (L : Nat) (D E : List Nat) : room L (D ++ E) = room L D + room L E := by
  simp [room]

/-- The leaves of a full binary tree take all the room there is (Kraft's equality). -/
theorem HTree.room_depths : ∀ (U : HTree) (L : Nat), (∀ d ∈ U.depths, d ≤ L) → room L U.depths = 2 ^ L
  | .leaf _ _ _, L, _ => by simp [depths, paths, room]
  | .node id l r, L, h => by
    simp only [depths_node, List.forall_mem_map] at h
    rw [depths_node]
    cases L with
    | zero =>
      have hne : 0 < l.depths.length := by
        simpa [depths, ← l.paths_map_fst] using l.symbols_length_pos
      have hd := h _ (List.mem_append_left _ (List.getElem_mem hne))
      omega
    | succ L =>
      rw [room_succ, room_append, l.room_depths L fun d hd => Nat.le_of_succ_le_succ (h d (by simp [hd])),
        r.room_depths L fun d hd => Nat.le_of_succ_le_succ (h d (by simp [hd])), Nat.pow_succ]
      omega

theorem HTree.kraft_depths (U : HTree) : Kraft U.symbols.length U.depths := by
  have hle : ∀ d ∈ U.depths, d ≤ U.symbols.length := by
    intro d hd
    obtain ⟨p, hp, rfl⟩ := List.mem_map.1 hd
    exact (path_length_lt hp).le
  exact ⟨hle, (U.room_depths _ hle).le⟩

/-- Huffman's tree costs no more than any tree whose leaves have the same weights. -/
theorem Huffman.innerWeight_le_cost {F : List HTree} {T : HTree} (h : Huffman F T) {count : Nat → Nat} (U : HTree)
    (hU : (U.symbols.map count).Perm (F.map HTree.weight)) :
    T.innerWeight ≤ (F.map HTree.innerWeight).sum + U.cost count := by
  have hle := h.innerWeight_le (G := U.paths.map fun p => (count p.1, p.2.length))
    (by simpa [← U.paths_map_fst, Function.comp_def] using hU)
    (by simpa [HTree.depths, Function.comp_def] using U.kraft_depths)
  simpa [depthCost, HTree.cost, Function.comp_def] using hle

/-- Settles O41: the tree at ROOT is that of Huffman's algorithm. -/
theorem buildTreeIsOptimal : Obligations.BuildTreeIsOptimal := by
  intro s t T hinv hbuild hok harena hroot U hU
  obtain ⟨h0, hsum, _⟩ := execBuild_ok hbuild hok
  obtain ⟨u, T', hu, -, hT, harena', hroot', -, -⟩ := execBuild_huffman hinv.legal h0 hsum
  obtain rfl : u = t := Host.Outcome.next.inj (hu.symm.trans hbuild)
  obtain rfl : T' = T := harena'.unique harena (hroot'.trans hroot.symm)
  have hweights : (U.symbols.map s.freqAt).Perm ((leafTrees s.freqAt 0 s.presentSyms).map HTree.weight) := by
    rw [leafTrees_weights]
    exact (hU.trans hT.symbols_perm_present).map _
  have hle := hT.innerWeight_le_cost U hweights
  rwa [leafTrees_innerWeight, Nat.zero_add, ← (hT.weighedBy (leafTrees_weighedBy _ _ _)).cost_eq] at hle

end Sys2Proof.Machine
end

section
/-! The order of BUILD's merges (42_tree_builder.md R119, R125): each takes the two queued roots of least (weight, id),
and the queue at that time can be read off the finished arena. -/

namespace Sys2Proof.Machine

/-- Huffman's algorithm as BUILD runs it, from the forest whose next slot is `k`: each merge picks the two trees of
least (weight, id), the least as LEFT, and the parent takes the next slot (R118, R125). -/
inductive KeyedMerges : Nat → List HTree → HTree → Prop where
  | single (k : Nat) (T : HTree) : KeyedMerges k [T] T
  | merge {k : Nat} {F rest : List HTree} {a b T : HTree} (pick : F.Perm (a :: b :: rest))
      (first : ¬ lexLt (b.weight, b.id) (a.weight, a.id))
      (second : ∀ c ∈ rest, ¬ lexLt (c.weight, c.id) (b.weight, b.id))
      (next : KeyedMerges (k + 1) (.node k a b :: rest) T) : KeyedMerges k F T

theorem KeyedMerges.huffman {k : Nat} {F : List HTree} {T : HTree} (h : KeyedMerges k F T) : Huffman F T := by
  induction h with
  | single k T => exact .single T
  | merge pick first second _ ih =>
    exact .merge _ pick (by omega) (fun c hc => by have := second c hc; omega) ih

/-! ## The merge loop -/

/-- A merge that leaves its tree queued keeps the forest's share of the slots. -/
theorem State.Forest.join {s t : State} {F rest : List HTree} {k : Nat} {a b : HTree} (h : s.Forest F k)
    (pick : F.Perm (a :: b :: rest)) (hq : t.Queues (.node k a b :: rest)) :
    t.Forest (.node k a b :: rest) (k + 1) := by
  have hpick := h.of_perm pick
  obtain ⟨ha, hb, hrest⟩ : a.ChildrenSmaller ∧ b.ChildrenSmaller ∧ ∀ U ∈ rest, U.ChildrenSmaller := by
    simpa using hpick.smaller
  refine ⟨hq, ?_, ?_⟩
  · simpa [HTree.ids, List.range_succ] using (hpick.ids.cons k).trans (List.perm_append_singleton k _).symm
  · exact List.forall_mem_cons.2
      ⟨⟨⟨hpick.id_lt (by simp) a.id_mem_ids, hpick.id_lt (by simp) b.id_mem_ids⟩, ha, hb⟩, hrest⟩

theorem mergeAll_keyed : ∀ (fuel k : Nat) (s : State) (F : List HTree), s.Forest F k → F ≠ [] →
    F.length ≤ fuel → k + F.length ≤ s.cfg.nodeMax + 1 → (F.map HTree.weight).sum < 2 ^ s.cfg.weightW →
    ∃ T, KeyedMerges k F T ∧ T.InArena (mergeAll fuel k s).2
  | 0, _, _, F, _, hF, hfuel, _, _ => absurd (List.length_eq_zero_iff.1 (Nat.le_zero.1 hfuel)) hF
  | fuel + 1, k, s, F, h, hF, hfuel, hk, hw => by
    unfold mergeAll
    rw [h.heapSize_eq]
    split
    next htwo =>
      obtain ⟨a, b, rest, pick, first, second, hq⟩ := h.toQueues.mergeOnce htwo (by omega) h.fresh hw
      have hcfg := (mergeOnce_only k s).cfg
      have hlen := pick.length_eq
      have hsum := (pick.map HTree.weight).sum_eq
      simp only [List.length_cons, List.map_cons, List.sum_cons] at hlen hsum
      obtain ⟨T, hT, harena⟩ := mergeAll_keyed fuel (k + 1) _ _ (h.join pick hq) (by simp) (by simp; omega)
        (by rw [hcfg, List.length_cons]; omega)
        (by rw [hcfg, List.map_cons, List.sum_cons, HTree.weight]; omega)
      exact ⟨T, .merge pick first second hT, harena⟩
    next hone =>
      have hlen : F.length = 1 := by have := List.length_pos_iff.2 hF; omega
      obtain ⟨T, rfl⟩ := List.length_eq_one_iff.1 hlen
      exact ⟨T, .single k T, h.inArena T (by simp)⟩

theorem buildTree_keyed {s : State} (hl : s.cfg.Legal) (h0 : s.presentSyms ≠ [])
    (hsum : s.freqs.sum < 2 ^ s.cfg.weightW) :
    ∃ T, KeyedMerges s.presentSyms.length (leafTrees s.freqAt 0 s.presentSyms) T ∧ T.InArena (buildTree s) := by
  have hpos := List.length_pos_iff.2 h0
  have hlen := present_eq_length s
  have hle := present_le s
  have hleaves := leafPhase_forest hl
  have hcfg := (leafPhase_only s).cfg
  obtain ⟨hids, hqueue⟩ := leafPhase_counts s
  rw [hlen] at hleaves hids hqueue
  obtain ⟨T, hT, harena⟩ := mergeAll_keyed s.presentSyms.length s.presentSyms.length (leafPhase s).2 _ hleaves
    (by rwa [← List.length_pos_iff, leafTrees_length]) (by rw [leafTrees_length])
    (by rw [leafTrees_length, hcfg, Config.nodeMax]; omega)
    (by rw [leafTrees_weights, presentSyms_sum, hcfg]; exact hsum)
  have hmerge : mergePhase s = mergeAll s.presentSyms.length s.presentSyms.length (leafPhase s).2 := by
    rw [mergePhase, hids, hqueue]
  exact ⟨T, hT, (hmerge ▸ harena).of_nodeAt_eq (buildTree_cfg s) (buildTree_nodeAt s)⟩

/-! ## The queue, read off the finished arena -/

/-- When node `k` of the arena `t` was made, the roots of `F` were waiting. -/
structure State.QueuedAt (t : State) (n k : Nat) (F : List HTree) : Prop where
  leaves : n ≤ k
  smaller : ∀ m, n ≤ m → m < k → (t.nodeAt m).left < m ∧ (t.nodeAt m).right < m
  waiting : ∀ x, t.Waiting n k x ↔ x ∈ F.map HTree.id
  distinct : (F.map HTree.id).Nodup

namespace State.QueuedAt

variable {t : State} {n k : Nat} {F rest : List HTree} {a b : HTree}

theorem of_perm {F' : List HTree} (h : t.QueuedAt n k F) (hp : F.Perm F') : t.QueuedAt n k F' where
  leaves := h.leaves
  smaller := h.smaller
  waiting x := (h.waiting x).trans (hp.map _).mem_iff
  distinct := (hp.map _).nodup_iff.1 h.distinct

/-- A merge takes its children off the queue and puts itself on it. -/
theorem merge (h : t.QueuedAt n k (a :: b :: rest)) (hleft : (t.nodeAt k).left = a.id)
    (hright : (t.nodeAt k).right = b.id) : t.QueuedAt n (k + 1) (.node k a b :: rest) := by
  obtain ⟨hle, hsmaller, hwaiting, hdistinct⟩ := h
  have hlt : ∀ x ∈ (a :: b :: rest).map HTree.id, x < k := fun x hx => ((hwaiting x).2 hx).1
  simp only [List.map_cons, List.mem_cons] at hwaiting hlt
  simp only [List.map_cons, List.nodup_cons, List.mem_cons, not_or] at hdistinct
  obtain ⟨⟨-, ha⟩, hb, hrest⟩ := hdistinct
  have hsmaller' : ∀ m, n ≤ m → m < k + 1 → (t.nodeAt m).left < m ∧ (t.nodeAt m).right < m := by
    intro m hn hm
    obtain rfl | hm := Nat.eq_or_lt_of_le (Nat.le_of_lt_succ hm)
    · rw [hleft, hright]
      exact ⟨hlt _ (by simp), hlt _ (by simp)⟩
    · exact hsmaller m hn hm
  refine ⟨hle.trans (Nat.le_succ k), hsmaller', fun x => ?_, ?_⟩
  · rw [List.map_cons, List.mem_cons, HTree.id_node]
    constructor
    · rintro ⟨hx, hfree⟩
      by_cases hxk : x = k
      · exact .inl hxk
      · obtain ⟨hxa, hxb⟩ := hfree k hle (Nat.lt_succ_self k)
        obtain rfl | rfl | hx := (hwaiting x).1 ⟨by omega, fun m hn hm => hfree m hn (by omega)⟩
        · exact absurd hleft hxa
        · exact absurd hright hxb
        · exact .inr hx
    · rintro (rfl | hx)
      · exact ⟨Nat.lt_succ_self x, fun m hn hm => by have := hsmaller' m hn hm; omega⟩
      · obtain ⟨hxk, hfree⟩ := (hwaiting x).2 (.inr (.inr hx))
        refine ⟨by omega, fun m hn hm => ?_⟩
        obtain rfl | hm := Nat.eq_or_lt_of_le (Nat.le_of_lt_succ hm)
        · rw [hleft, hright]
          exact ⟨fun heq => ha (heq ▸ hx), fun heq => hb (heq ▸ hx)⟩
        · exact hfree m hn hm
  · exact List.nodup_cons.2 ⟨fun hk => absurd (hlt k (.inr (.inr hk))) (Nat.lt_irrefl k), hrest⟩

/-- Of the waiting roots the merge takes the two of least key (R125). -/
theorem mergesTwoLeast (h : t.QueuedAt n k (a :: b :: rest)) (harena : ∀ U ∈ a :: b :: rest, U.InArena t)
    (hleft : (t.nodeAt k).left = a.id) (hright : (t.nodeAt k).right = b.id)
    (first : ¬ lexLt (b.weight, b.id) (a.weight, a.id))
    (second : ∀ c ∈ rest, ¬ lexLt (c.weight, c.id) (b.weight, b.id)) : t.MergesTwoLeast n k := by
  obtain ⟨-, -, hwaiting, hdistinct⟩ := h
  obtain ⟨ha, hb, hrest⟩ : a.InArena t ∧ b.InArena t ∧ ∀ U ∈ rest, U.InArena t := by simpa using harena
  have hab : b.id ≠ a.id := by
    rintro heq
    simp [heq] at hdistinct
  rw [State.MergesTwoLeast, hleft, hright]
  refine ⟨(hwaiting _).2 (by simp), (hwaiting _).2 (by simp), lexLt_key_of_not_lexLt hab ?_, fun x hx hxa hxb => ?_⟩
  · rwa [ha.key, hb.key]
  · obtain ⟨c, hc, rfl⟩ : ∃ c ∈ rest, c.id = x := by simpa [hxa, hxb, eq_comm (b := x)] using (hwaiting x).1 hx
    refine lexLt_key_of_not_lexLt hxb ?_
    rw [(hrest c hc).key, hb.key]
    exact second c hc

end State.QueuedAt

/-- Each node the merges make took the two least of the nodes then waiting. -/
theorem KeyedMerges.mergesTwoLeast {t : State} {n k : Nat} {F : List HTree} {T : HTree} (h : KeyedMerges k F T)
    (hT : T.InArena t) (hq : t.QueuedAt n k F) {m : Nat} (hk : k ≤ m) (hm : m + 1 < k + F.length) :
    t.MergesTwoLeast n m := by
  induction h with
  | single k T =>
    rw [List.length_singleton] at hm
    omega
  | @merge k F rest a b T pick first second next ih =>
    obtain ⟨⟨⟨_, hnode⟩, ha, hb⟩, hrest⟩ := List.forall_mem_cons.1 (next.huffman.inArena hT)
    have hleft : (t.nodeAt k).left = a.id := by rw [hnode]
    have hright : (t.nodeAt k).right = b.id := by rw [hnode]
    have hq' := hq.of_perm pick
    obtain rfl | hkm := Nat.eq_or_lt_of_le hk
    · exact hq'.mergesTwoLeast (by simpa using ⟨ha, hb, hrest⟩) hleft hright first second
    · have hlen := pick.length_eq
      simp only [List.length_cons] at hlen
      exact ih hT (hq'.merge hleft hright) hkm (by rw [List.length_cons]; omega)

/-- Before the first merge the leaves are waiting (R118). -/
theorem queuedAt_leafTrees (t : State) (count : Nat → Nat) (syms : List Nat) :
    t.QueuedAt syms.length syms.length (leafTrees count 0 syms) where
  leaves := le_rfl
  smaller m hn hm := absurd hm (not_lt.2 hn)
  waiting x := by
    rw [leafTrees_ids, List.mem_range]
    exact ⟨fun h => h.1, fun h => ⟨h, fun m hn hm => absurd hm (not_lt.2 hn)⟩⟩
  distinct := by
    rw [leafTrees_ids]
    exact List.nodup_range

/-- Settles O39: the merge loop takes the two trees of least key at each merge, and the roots queued then are the
nodes waiting. -/
theorem buildMergesTheTwoLeast : Obligations.BuildMergesTheTwoLeast := by
  intro s t hinv hbuild hok m hn hm
  obtain ⟨h0, hsum, rfl⟩ := execBuild_ok hbuild hok
  obtain ⟨T, hT, harena⟩ := buildTree_keyed (s := clearValid s) hinv.legal h0 hsum
  have harena := harena.of_nodeAt_eq (succeed_cfg _) (nodeAt_congr (buildTree (clearValid s)) rfl rfl rfl)
  have hpos := List.length_pos_iff.2 h0
  have hcount : (buildTree (clearValid s)).nodeCount = 2 * (clearValid s).present - 1 :=
    (mergePhase_counts (clearValid s) (by rw [present_eq_length]; exact hpos.ne')).1
  rw [present_eq_length] at hcount
  refine hT.mergesTwoLeast harena (queuedAt_leafTrees _ _ _) hn ?_
  have hm : m < 2 * s.presentSyms.length - 1 := hcount ▸ hm
  have hlen : (clearValid s).presentSyms.length = s.presentSyms.length := rfl
  rw [leafTrees_length, hlen]
  omega

end Sys2Proof.Machine
end

section
/-! The table GENCODES writes (43_code_generator.md R128 to R132): where it stands, and its codewords: the paths of a
full binary tree are not empty, none begins with another, and they meet Kraft's equality. -/

namespace Sys2Proof.Machine

/-- Settles O42: TREE_VALID is checked before anything is written. -/
theorem genCodesWithoutTreeFails : Obligations.GenCodesWithoutTreeFails := by
  intro s hv
  exact if_pos hv

/-! ## What GENCODES leaves unchanged -/

/-- A memory lists nothing outside its own words: there a byte is the free value of its reset. -/
theorem byte_of_inRange {m : Memory} {lo hi : Nat} (h : m.inRange lo hi) (e : Nat) {off : Nat}
    (hoff : off < lo ∨ hi ≤ off) : Memory.byte e m off = Config.powerOn e off := by
  have hnone : Memory.lookup m off = none := lookup_eq_none fun c hc => by
    have := h c hc
    omega
  rw [Memory.byte, hnone, Option.getD_none]

/-- A CODE memory replaced by another one of its form: no byte outside the entries of the symbols can tell. -/
theorem sameBytesBut_replaceCode {s : State} {code : Memory} {n : Nat}
    (hs : s.code.inRange (codeAddr 0) (codeAddr n)) (hcode : code.inRange (codeAddr 0) (codeAddr n)) :
    s.SameBytesBut { s with code := code } (codeAddr 0) (codeAddr n) := by
  intro off hoff
  unfold State.memByte State.memoryAt
  split_ifs
  any_goals rfl
  exact (byte_of_inRange hcode _ hoff).trans (byte_of_inRange hs _ hoff).symm

/-- Settles O43: the walk over the tree writes its table into the cleared CODE, which is still within its own words. -/
theorem genCodesWritesTheTable : Obligations.GenCodesWritesTheTable := by
  intro s T hinv hv harena hroot hnd
  obtain ⟨t, ht, hcodes, hframe⟩ := execGenCodes_tree hinv.legal hv harena hroot hnd
  have hcfg : t.cfg = s.cfg := by rw [hframe]
  refine ⟨t, ht, hframe, fun sym hsym => hcodes sym (hcfg ▸ hsym), ?_⟩
  have hform : t.code.inRange (codeAddr 0) (codeAddr s.cfg.nsym) :=
    hcfg ▸ (hinv.execGenCodes ht).canonical.code.2
  rw [hframe]
  exact sameBytesBut_replaceCode hinv.canonical.code.2 hform

/-! ## Digits -/

/-- Digit `j` of a packed codeword is bit `j` of the number (10_state.md R56). -/
theorem map_bitOf_packBits : ∀ ds : List Bool, (List.range ds.length).map (bitOf (packBits ds)) = ds
  | [] => rfl
  | d :: ds => by
    have hdiv : (d.toNat + 2 * packBits ds) / 2 ^ 1 = packBits ds := by
      have := d.toNat_lt
      omega
    have hfirst : bitOf (d.toNat + 2 * packBits ds) 0 = d := by
      cases d <;> simp [bitOf]
    have hrest : bitOf (d.toNat + 2 * packBits ds) ∘ Nat.succ = bitOf (packBits ds) := funext fun j => by
      rw [Function.comp_apply, Nat.succ_eq_one_add, ← bitOf_div_two_pow, hdiv]
    rw [List.length_cons, List.range_succ_eq_map, List.map_cons, List.map_map, packBits, hfirst, hrest,
      map_bitOf_packBits ds]

@[simp] theorem digits_codeOf (ds : List Bool) : (codeOf ds).digits = ds := map_bitOf_packBits ds

/-! ## The codewords of a tree -/

/-- A path that another path begins with ends at the same leaf. -/
theorem HTree.eq_of_paths_prefix : ∀ {T : HTree} {x y : Nat} {ds es : List Bool},
    (x, ds) ∈ T.paths → (y, es) ∈ T.paths → ds <+: es → x = y
  | .leaf _ _ _, x, y, ds, es, hx, hy, _ => by
    simp only [paths, List.mem_singleton, Prod.mk.injEq] at hx hy
    rw [hx.1, hy.1]
  | .node _ l r, x, y, ds, es, hx, hy, hpre => by
    simp only [paths, List.mem_append, List.mem_map] at hx hy
    obtain ⟨⟨x, ds⟩, hx, ⟨⟩⟩ | ⟨⟨x, ds⟩, hx, ⟨⟩⟩ := hx <;>
      obtain ⟨⟨y, es⟩, hy, ⟨⟩⟩ | ⟨⟨y, es⟩, hy, ⟨⟩⟩ := hy
    all_goals obtain ⟨hside, hpre⟩ := List.cons_prefix_cons.1 hpre
    · exact eq_of_paths_prefix hx hy hpre
    · exact absurd hside (by decide)
    · exact absurd hside (by decide)
    · exact eq_of_paths_prefix hx hy hpre

/-- No codeword of a tree's table begins with another one (R132). -/
theorem HTree.eq_of_table_prefix {T : HTree} {x y : Nat} {ds es : List Bool} (hx : (x, ds) ∈ T.table)
    (hy : (y, es) ∈ T.table) (hpre : ds <+: es) : x = y := by
  cases T with
  | leaf id sym w =>
    simp only [table, List.mem_singleton, Prod.mk.injEq] at hx hy
    rw [hx.1, hy.1]
  | node id l r => exact eq_of_paths_prefix hx hy hpre

/-- Every codeword has a digit: a leaf that is the whole tree has "0" (R129). -/
theorem HTree.table_length_pos {T : HTree} {p : Nat × List Bool} (hp : p ∈ T.table) : 1 ≤ p.2.length := by
  cases T with
  | leaf id sym w => rw [List.mem_singleton.1 hp]; exact le_rfl
  | node id l r =>
    simp only [table, paths, List.mem_append, List.mem_map] at hp
    obtain ⟨q, _, rfl⟩ | ⟨q, _, rfl⟩ := hp <;> exact Nat.succ_pos _

/-- A valid entry is one of the table's codewords. -/
theorem exists_codeword_of_valid {T : HTree} {sym : Nat} (h : (T.entry sym).valid = true) :
    ∃ ds, (sym, ds) ∈ T.table ∧ T.entry sym = codeOf ds := by
  rw [entry_eq] at h ⊢
  cases hlook : T.table.lookup sym with
  | none => simp [hlook] at h
  | some ds =>
    obtain ⟨before, after, htable, _⟩ := List.lookup_eq_some_iff.1 hlook
    exact ⟨ds, by simp [htable], rfl⟩

/-! ## A CODE memory that holds the table -/

section
variable {t : State} {T : HTree} (hcodes : t.CodesOf T) (hnd : T.symbols.Nodup) (harena : T.InArena t)
include hcodes

/-- A valid entry of CODE holds one of the table's codewords. -/
theorem codeAt_of_valid {sym : Nat} (hsym : sym < t.cfg.nsym) (h : (t.codeAt sym).valid = true) :
    ∃ ds, (sym, ds) ∈ T.table ∧ t.codeAt sym = codeOf ds := by
  rw [hcodes sym hsym] at h ⊢
  exact exists_codeword_of_valid h

/-- No valid codeword begins with another one (R132). -/
theorem not_digits_prefix {x y : Nat} (hx : x < t.cfg.nsym) (hy : y < t.cfg.nsym) (hne : x ≠ y)
    (hvx : (t.codeAt x).valid = true) (hvy : (t.codeAt y).valid = true) :
    ¬ (t.codeAt x).digits <+: (t.codeAt y).digits := by
  obtain ⟨dx, hdx, hcx⟩ := codeAt_of_valid hcodes hx hvx
  obtain ⟨dy, hdy, hcy⟩ := codeAt_of_valid hcodes hy hvy
  rw [hcx, hcy, digits_codeOf, digits_codeOf]
  exact fun hpre => hne (HTree.eq_of_table_prefix hdx hdy hpre)

include hnd harena

theorem codeAt_of_mem_table {p : Nat × List Bool} (hp : p ∈ T.table) :
    t.codeAt p.1 = codeOf p.2 := by
  have hsym : p.1 ∈ T.symbols := T.table_map_fst ▸ List.mem_map_of_mem hp
  rw [hcodes _ (harena.symbols_lt _ hsym), entry_of_mem_table hnd hp]

/-- The valid entries are those of the tree's symbols. -/
theorem codeAt_valid_iff {sym : Nat} (hsym : sym < t.cfg.nsym) :
    (t.codeAt sym).valid = true ↔ sym ∈ T.symbols := by
  refine ⟨fun h => ?_, codeAt_valid hcodes hnd harena.symbols_lt⟩
  obtain ⟨ds, hds, _⟩ := codeAt_of_valid hcodes hsym h
  exact T.table_map_fst ▸ List.mem_map_of_mem (f := Prod.fst) hds

theorem validSyms_perm_symbols :
    ((List.range t.cfg.nsym).filter fun sym => (t.codeAt sym).valid).Perm T.symbols := by
  refine (List.perm_ext_iff_of_nodup (List.nodup_range.filter _) hnd).2 fun sym => ?_
  rw [List.mem_filter, List.mem_range]
  constructor
  · rintro ⟨hsym, hv⟩
    exact (codeAt_valid_iff hcodes hnd harena hsym).1 hv
  · intro hmem
    have hsym := harena.symbols_lt sym hmem
    exact ⟨hsym, (codeAt_valid_iff hcodes hnd harena hsym).2 hmem⟩

/-- With two symbols or more the entries take the room of the tree's leaves, which is all there is (Kraft). -/
theorem validSyms_room (two : 2 ≤ T.symbols.length) :
    (((List.range t.cfg.nsym).filter fun sym => (t.codeAt sym).valid).map
      fun sym => 2 ^ (t.cfg.maxCodeLen - (t.codeAt sym).len)).sum = 2 ^ t.cfg.maxCodeLen := by
  have hdepths : ∀ d ∈ T.depths, d ≤ t.cfg.maxCodeLen := List.forall_mem_map.2 fun p hp =>
    table_length_le harena hnd (HTree.table_eq_paths two ▸ hp)
  have hlen : ∀ p ∈ T.paths, 2 ^ (t.cfg.maxCodeLen - (t.codeAt p.1).len) = 2 ^ (t.cfg.maxCodeLen - p.2.length) :=
    fun p hp => by rw [codeAt_of_mem_table hcodes hnd harena (HTree.table_eq_paths two ▸ hp), codeOf]
  rw [((validSyms_perm_symbols hcodes hnd harena).map _).sum_eq, ← HTree.paths_map_fst, List.map_map,
    ← T.room_depths _ hdepths, room, HTree.depths, List.map_map]
  exact congrArg List.sum (List.map_congr_left hlen)

end

/-- Settles O44: CODE holds the table of a full binary tree with distinct symbols. -/
theorem genCodesTableIsPrefixFree : Obligations.GenCodesTableIsPrefixFree := by
  intro s hinv htree hv
  obtain ⟨T, harena, hroot, -, hnd, hleaves, -⟩ := htree hv
  obtain ⟨t, ht, hcodes, hframe⟩ := execGenCodes_tree hinv.legal hv harena hroot hnd
  have hcfg : t.cfg = s.cfg := by rw [hframe]
  have harena' : T.InArena t := harena.of_nodeAt_eq hcfg (nodeAt_congr s hcfg (by rw [hframe]) (by rw [hframe]))
  refine ⟨t, T, ht, harena, hroot, ?_⟩
  rw [← hcfg, ← hleaves]
  refine ⟨?count, fun sym hsym => codeAt_valid_iff hcodes hnd harena' hsym, fun two p hp => ?depth,
    fun sym hsym hvalid => ?length, fun x hx y hy => not_digits_prefix hcodes hx hy,
    validSyms_room hcodes hnd harena'⟩
  case count => rw [List.countP_eq_length_filter, (validSyms_perm_symbols hcodes hnd harena').length_eq]
  case depth => rw [codeAt_of_mem_table hcodes hnd harena' (HTree.table_eq_paths two ▸ hp), codeOf]
  case length =>
    obtain ⟨ds, hds, hcode⟩ := codeAt_of_valid hcodes hsym hvalid
    rw [hcode]
    exact ⟨HTree.table_length_pos hds, table_length_le harena' hnd hds⟩

end Sys2Proof.Machine
end

section
/-! DECODE bit by bit (44_decoder.md R134, R137, R139): what it does with each kind of bit, and then with the digits of
a walk, of a codeword and of a run of codewords. -/

namespace Sys2Proof.Machine

/-! ## The symbols written to OUT -/

/-- The symbols stored in OUT one after the other, the first at word `k`. -/
def setOuts (s : State) (k : Nat) : List Nat → State
  | [] => s
  | sym :: syms => setOuts (setOut s k sym) (k + 1) syms

@[simp] theorem setOuts_cfg : ∀ (syms : List Nat) (s : State) (k : Nat), (setOuts s k syms).cfg = s.cfg
  | [], _, _ => rfl
  | _ :: syms, _, _ => setOuts_cfg syms _ _

@[simp] theorem nodeAt_setOuts : ∀ (syms : List Nat) (s : State) (k : Nat), (setOuts s k syms).nodeAt = s.nodeAt
  | [], _, _ => rfl
  | _ :: syms, s, k => (nodeAt_setOuts syms _ _).trans (nodeAt_setOut s k _)

@[simp] theorem bitAt_setOuts : ∀ (syms : List Nat) (s : State) (k : Nat), (setOuts s k syms).bitAt = s.bitAt
  | [], _, _ => rfl
  | _ :: syms, s, k => (bitAt_setOuts syms _ _).trans (bitAt_setOut s k _)

theorem outAt_setOuts_of_lt : ∀ (syms : List Nat) {s : State} {k j : Nat}, j < k →
    (setOuts s k syms).outAt j = s.outAt j
  | [], _, _, _, _ => rfl
  | sym :: syms, s, k, j, hj => by
    rw [setOuts, outAt_setOuts_of_lt syms (by omega), outAt_setOut_other s sym (by omega)]

theorem map_outAt_setOuts : ∀ (syms : List Nat) {s : State} (k : Nat), s.cfg.Legal →
    (∀ sym ∈ syms, sym < s.cfg.nsym) → (List.range' k syms.length).map (setOuts s k syms).outAt = syms
  | [], _, _, _, _ => rfl
  | sym :: syms, s, k, hl, hsyms => by
    obtain ⟨hsym, hrest⟩ := List.forall_mem_cons.1 hsyms
    rw [List.length_cons, List.range'_succ, List.map_cons, setOuts,
      map_outAt_setOuts syms (s := setOut s k sym) (k + 1) hl hrest, outAt_setOuts_of_lt syms (Nat.lt_succ_self k),
      outAt_setOut_same s hl, low_of_lt hsym]

theorem sameBytesBut_setOuts : ∀ (syms : List Nat) (s : State) (k : Nat),
    s.SameBytesBut (setOuts s k syms) (outAddr k) (outAddr (k + syms.length))
  | [], _, _ => fun _ _ => rfl
  | sym :: syms, s, k => fun off hoff => by
    simp only [outAddr, List.length_cons] at hoff
    rw [setOuts, sameBytesBut_setOuts syms (setOut s k sym) (k + 1) off (by simp only [outAddr]; omega),
      memByte_setOut s sym (by simp only [outAddr]; omega)]

/-- The symbols written to OUT from word 0 are what is decoded there, and OUT is unchanged above them (R140). -/
theorem decoded_setOuts {s : State} (hl : s.cfg.Legal) {syms : List Nat} (hsyms : ∀ sym ∈ syms, sym < s.cfg.nsym) :
    (setOuts s 0 syms).decoded syms.length = syms ∧
      s.SameBytesBut (setOuts s 0 syms) (outAddr 0) (outAddr syms.length) := by
  have hmap := map_outAt_setOuts syms 0 hl hsyms
  have hbytes := sameBytesBut_setOuts syms s 0
  rw [← List.range_eq_range'] at hmap
  rw [Nat.zero_add] at hbytes
  exact ⟨hmap, hbytes⟩

/-- One symbol written `m` times. -/
theorem decoded_setOuts_replicate {s : State} (hl : s.cfg.Legal) {sym : Nat} (hsym : sym < s.cfg.nsym) (m : Nat) :
    (setOuts s 0 (List.replicate m sym)).decoded m = List.replicate m sym ∧
      s.SameBytesBut (setOuts s 0 (List.replicate m sym)) (outAddr 0) (outAddr m) := by
  simpa only [List.length_replicate] using
    decoded_setOuts hl (syms := List.replicate m sym) fun _ hmem => List.eq_of_mem_replicate hmem ▸ hsym

/-! ## Where the digits stand -/

/-- The digits stand in the encoded bits from bit `i` on. -/
def State.BitsFrom (s : State) : Nat → List Bool → Prop
  | _, [] => True
  | i, d :: ds => s.bitAt i = d ∧ s.BitsFrom (i + 1) ds

theorem State.BitsFrom.congr {s t : State} (h : t.bitAt = s.bitAt) : ∀ {i : Nat} {ds : List Bool},
    s.BitsFrom i ds → t.BitsFrom i ds
  | _, [], _ => trivial
  | i, _ :: _, ⟨hd, hds⟩ => ⟨(congrFun h i).trans hd, hds.congr h⟩

theorem State.bitsFrom_append {s : State} : ∀ {i : Nat} {ds es : List Bool},
    s.BitsFrom i (ds ++ es) ↔ s.BitsFrom i ds ∧ s.BitsFrom (i + ds.length) es
  | _, [], _ => by simp [State.BitsFrom]
  | i, d :: ds, es => by
    rw [List.cons_append, State.BitsFrom, State.BitsFrom, State.bitsFrom_append, and_assoc, List.length_cons,
      show i + 1 + ds.length = i + (ds.length + 1) by omega]

theorem State.bitsFrom_map_bitAt (s : State) : ∀ n i : Nat, s.BitsFrom i ((List.range' i n).map s.bitAt)
  | 0, _ => trivial
  | n + 1, i => by
    rw [List.range'_succ, List.map_cons]
    exact ⟨rfl, s.bitsFrom_map_bitAt n (i + 1)⟩

/-- The stream of a DECODE stands from bit 0 on. -/
theorem State.bitsFrom_stream (s : State) : s.BitsFrom 0 s.stream := by
  rw [State.stream, List.range_eq_range']
  exact s.bitsFrom_map_bitAt s.bitLen 0

@[simp] theorem State.stream_length (s : State) : s.stream.length = s.bitLen := by simp [State.stream]

theorem State.bitAt_mem_stream (s : State) {i : Nat} (hi : i < s.bitLen) : s.bitAt i ∈ s.stream :=
  List.mem_map_of_mem (List.mem_range.2 hi)

/-! ## One bit of the walk -/

section
variable {r n i k cur start b : Nat} {d : Bool} {s : State}

theorem decodeWalk_end_at_root : decodeWalk r 0 i k r start s = decodeDone i k s := if_pos rfl

theorem decodeWalk_end_inside (h : cur ≠ r) :
    decodeWalk r 0 i k cur start s = decodeFail .truncatedEncoding start i s := if_neg h

theorem decodeWalk_absent (hbit : s.bitAt i = d) (hchild : childOf (s.nodeAt cur) d = s.cfg.nil) :
    decodeWalk r (n + 1) i k cur start s = decodeFail .malformedEncoding i i s := by
  rw [decodeWalk, hbit]
  exact if_pos hchild

theorem decodeWalk_leaf (hbit : s.bitAt i = d) (hchild : childOf (s.nodeAt cur) d = b) (hb : b ≠ s.cfg.nil)
    (hleaf : (s.nodeAt b).isLeaf = true) :
    decodeWalk r (n + 1) i k cur start s = decodeWalk r n (i + 1) (k + 1) r (i + 1) (setOut s k (s.nodeAt b).sym) := by
  simp only [decodeWalk, hbit, hchild, if_neg hb, if_pos hleaf]

theorem decodeWalk_inner (hbit : s.bitAt i = d) (hchild : childOf (s.nodeAt cur) d = b) (hb : b ≠ s.cfg.nil)
    (hinner : (s.nodeAt b).isLeaf = false) :
    decodeWalk r (n + 1) i k cur start s = decodeWalk r n (i + 1) k b start s := by
  simp [decodeWalk, hbit, hchild, hb, hinner]

end

/-! ## Walks and codewords -/

theorem Walk.of_nodeAt_eq {s t : State} (hc : t.cfg = s.cfg) (hn : t.nodeAt = s.nodeAt) {a b : Nat} {ds : List Bool}
    (h : Walk s a ds b) : Walk t a ds b := by
  induction h with
  | stop a => exact .stop a
  | go child present inner _ ih => exact .go (hn ▸ child) (hc ▸ present) (hn ▸ inner) ih

theorem Spells.of_nodeAt_eq {s t : State} (hc : t.cfg = s.cfg) (hn : t.nodeAt = s.nodeAt) {r sym : Nat}
    {ds : List Bool} (h : Spells s r ds sym) : Spells t r ds sym := by
  obtain ⟨init, d, a, b, hds, hwalk, hchild, hb, hleaf, hsym⟩ := h
  exact ⟨init, d, a, b, hds, hwalk.of_nodeAt_eq hc hn, hn ▸ hchild, hc ▸ hb, hn ▸ hleaf, hn ▸ hsym⟩

theorem Spells.sym_lt {s : State} {r sym : Nat} {ds : List Bool} (h : Spells s r ds sym) : sym < s.cfg.nsym := by
  obtain ⟨_, _, _, b, _, _, _, _, _, hsym⟩ := h
  exact hsym ▸ nodeAt_sym_lt s b

/-- The digits of a walk move the decoder along it and emit nothing. -/
theorem decodeWalk_of_walk {s : State} {a b : Nat} {ds : List Bool} (h : Walk s a ds b) (r n k start : Nat) :
    ∀ i, s.BitsFrom i ds →
      decodeWalk r (ds.length + n) i k a start s = decodeWalk r n (i + ds.length) k b start s := by
  induction h with
  | stop a => intro i _; simp
  | @go a b c d ds child present inner _ ih =>
    rintro i ⟨hbit, hbits⟩
    rw [List.length_cons, Nat.add_right_comm, decodeWalk_inner hbit child present inner, ih (i + 1) hbits,
      Nat.add_assoc, Nat.add_comm 1]

/-- The digits of a codeword emit its symbol and bring the decoder back to the root. -/
theorem decodeWalk_of_spells {s : State} {r sym : Nat} {ds : List Bool} (h : Spells s r ds sym) {i : Nat}
    (hbits : s.BitsFrom i ds) (n k start : Nat) :
    decodeWalk r (ds.length + n) i k r start s =
      decodeWalk r n (i + ds.length) (k + 1) r (i + ds.length) (setOut s k sym) := by
  obtain ⟨init, d, a, b, rfl, hwalk, hchild, hb, hleaf, rfl⟩ := h
  obtain ⟨hinit, hbit, -⟩ := State.bitsFrom_append.1 hbits
  rw [List.length_append, List.length_singleton, Nat.add_assoc, decodeWalk_of_walk hwalk _ _ _ _ _ hinit,
    Nat.add_comm 1 n, decodeWalk_leaf hbit hchild hb hleaf, Nat.add_assoc]

/-- The digits of a run of codewords emit their symbols, one OUT word each. -/
theorem decodeWalk_of_spellsAll {r n : Nat} : ∀ {chunks : List (List Bool × Nat)} {s : State} {i k : Nat},
    SpellsAll s r chunks → s.BitsFrom i (digitsOf chunks) →
    decodeWalk r ((digitsOf chunks).length + n) i k r i s =
      decodeWalk r n (i + (digitsOf chunks).length) (k + chunks.length) r (i + (digitsOf chunks).length)
        (setOuts s k (symbolsOf chunks))
  | [], s, i, k, _, _ => by simp [digitsOf, symbolsOf, setOuts]
  | (ds, sym) :: chunks, s, i, k, h, hbits => by
    obtain ⟨hfirst, hrest⟩ := List.forall_mem_cons.1 h
    have hdigits : digitsOf ((ds, sym) :: chunks) = ds ++ digitsOf chunks := rfl
    rw [hdigits, State.bitsFrom_append] at hbits
    have hrest' : SpellsAll (setOut s k sym) r chunks := fun c hc =>
      (hrest c hc).of_nodeAt_eq (setOut_cfg s k sym) (nodeAt_setOut s k sym)
    rw [hdigits, List.length_append, Nat.add_assoc, decodeWalk_of_spells hfirst hbits.1,
      decodeWalk_of_spellsAll hrest' (hbits.2.congr (bitAt_setOut s k sym)), Nat.add_assoc, Nat.add_assoc,
      Nat.add_comm 1]
    rfl

/-! ## The loop of a leaf root -/

/-- Bits that are all 0 emit the root's symbol once each (R137). -/
theorem decodeSingle_of_zeros (r : Nat) {n : Nat} : ∀ {m i k : Nat} {s : State},
    (∀ j, i ≤ j → j < i + m → s.bitAt j = false) →
    decodeSingle r (m + n) i k s =
      decodeSingle r n (i + m) (k + m) (setOuts s k (List.replicate m (s.nodeAt r).sym))
  | 0, i, k, s, _ => by simp [setOuts]
  | m + 1, i, k, s, hzero => by
    have ih := decodeSingle_of_zeros r (n := n) (m := m) (i := i + 1) (k := k + 1) (s := setOut s k (s.nodeAt r).sym)
      fun j hi hj => by rw [bitAt_setOut]; exact hzero j (by omega) (by omega)
    have hbit : ¬ s.bitAt i = true := by simp [hzero i le_rfl (by omega)]
    rw [Nat.add_right_comm, decodeSingle, if_neg hbit, ih, nodeAt_setOut, List.replicate_succ, setOuts,
      Nat.add_assoc, Nat.add_assoc, Nat.add_comm 1]

theorem decodeSingle_one {r n i k : Nat} {s : State} (h : s.bitAt i = true) :
    decodeSingle r (n + 1) i k s = decodeFail .malformedEncoding i i s := if_pos h

/-! ## The cases of DECODE -/

section
variable {s : State}

theorem decodeBody_of_nil (hroot : s.root = s.cfg.nil) : decodeBody s = decodeFail .badOperand s.root 0 s :=
  if_pos hroot

variable (hroot : s.root ≠ s.cfg.nil)
include hroot

theorem decodeBody_of_long (hlen : s.cfg.bitsMax < s.bitLen) : decodeBody s = decodeFail .badOperand s.bitLen 0 s := by
  rw [decodeBody, if_neg hroot, if_pos hlen]

variable (hfits : s.bitLen ≤ s.cfg.bitsMax)
include hfits

theorem decodeBody_of_leaf (hleaf : (s.nodeAt s.root).isLeaf = true) :
    decodeBody s = decodeSingle s.root s.bitLen 0 0 s := by
  rw [decodeBody, if_neg hroot, if_neg (not_lt.2 hfits), if_pos hleaf]

theorem decodeBody_of_inner (hinner : (s.nodeAt s.root).isLeaf = false) :
    decodeBody s = decodeWalk s.root s.bitLen 0 0 s.root 0 s := by
  rw [decodeBody, if_neg hroot, if_neg (not_lt.2 hfits), if_neg (by simp [hinner])]

end

end Sys2Proof.Machine
end

section
/-! What a DECODE ends with (44_decoder.md R134 to R141): the operands it refuses, what it leaves unchanged, and its
results over any arena. -/

namespace Sys2Proof.Machine

/-- Settles O45: ROOT is checked before BIT_LEN, and both before any bit is read. -/
theorem decodeBadOperandFails : Obligations.DecodeBadOperandFails := fun _ =>
  ⟨fun hroot => congrArg Host.Outcome.next (decodeBody_of_nil hroot),
    fun hroot hlen => congrArg Host.Outcome.next (decodeBody_of_long hroot hlen)⟩

/-- Settles O51: neither loop takes a turn, and the walk ends where it began, at the root. -/
theorem decodeOfNoBitsSucceeds : Obligations.DecodeOfNoBitsSucceeds := by
  intro s hroot hlen
  have hfits : s.bitLen ≤ s.cfg.bitsMax := hlen ▸ Nat.zero_le _
  have hdone : decodeBody s = decodeDone 0 0 s := by
    cases hleaf : (s.nodeAt s.root).isLeaf with
    | true => rw [decodeBody_of_leaf hroot hfits hleaf, hlen, decodeSingle]
    | false => rw [decodeBody_of_inner hroot hfits hleaf, hlen, decodeWalk_end_at_root]
  exact congrArg Host.Outcome.next hdone

/-- Settles O46: the loops write OUT below the symbols they count, and each symbol took a bit. -/
theorem decodeChangesOnlyItsResults : Obligations.DecodeChangesOnlyItsResults := by
  intro s
  have hends := decodeBody_ends s
  obtain ⟨k, -, hk, hidx, hok, hbytes⟩ := decodeBody_writes s
  refine ⟨_, rfl, ?frame, decodeBody_outCount_le s, by omega, fun he => ?success, fun he => ⟨?count, ?failure⟩⟩
  case frame =>
    rw [← hends.flags]
    exact hends.frame
  case success => exact fun off hoff => hbytes off (hok he ▸ hoff)
  case count =>
    obtain ⟨hnone, _⟩ | ⟨_, hzero⟩ := hends.error
    · exact absurd hnone he
    · exact hzero
  case failure => exact fun off hoff => hbytes off (by simp only [outAddr] at hoff ⊢; omega)

/-! ## Codewords from an internal root -/

/-- Each codeword ends at a node of the arena, whose symbol OUT can hold. -/
theorem SpellsAll.symbolsOf_lt {s : State} {r : Nat} {chunks : List (List Bool × Nat)} (h : SpellsAll s r chunks) :
    ∀ sym ∈ symbolsOf chunks, sym < s.cfg.nsym :=
  List.forall_mem_map.2 fun c hc => (h c hc).sym_lt

@[simp] theorem symbolsOf_length (chunks : List (List Bool × Nat)) : (symbolsOf chunks).length = chunks.length :=
  List.length_map _

section
variable {s : State} {chunks : List (List Bool × Nat)} (hall : SpellsAll s s.root chunks)
include hall

/-- OUT after a run of codewords holds their symbols, and is unchanged above them (R140). -/
theorem SpellsAll.decoded_setOuts (hl : s.cfg.Legal) :
    (setOuts s 0 (symbolsOf chunks)).decoded chunks.length = symbolsOf chunks ∧
      s.SameBytesBut (setOuts s 0 (symbolsOf chunks)) (outAddr 0) (outAddr chunks.length) := by
  simpa only [symbolsOf_length] using Machine.decoded_setOuts hl hall.symbolsOf_lt

/-- A DECODE whose bits are codewords, then a walk, then more, comes to what is left: it stands where the walk ends, its
last codeword began with the walk, and the codewords' symbols are written. -/
theorem decodeBody_of_codewords_walk {walked tail : List Bool} {x : Nat} (hroot : s.root ≠ s.cfg.nil)
    (hfits : s.bitLen ≤ s.cfg.bitsMax) (hinner : (s.nodeAt s.root).isLeaf = false) (hwalk : Walk s s.root walked x)
    (hstream : s.stream = digitsOf chunks ++ walked ++ tail) :
    decodeBody s = decodeWalk s.root tail.length ((digitsOf chunks).length + walked.length) chunks.length x
        (digitsOf chunks).length (setOuts s 0 (symbolsOf chunks)) ∧
      s.bitLen = (digitsOf chunks).length + walked.length + tail.length ∧
      (setOuts s 0 (symbolsOf chunks)).BitsFrom ((digitsOf chunks).length + walked.length) tail := by
  have hlen : s.bitLen = (digitsOf chunks).length + walked.length + tail.length := by
    rw [← s.stream_length, hstream, List.length_append, List.length_append]
  have hbits := s.bitsFrom_stream
  rw [hstream, List.append_assoc, State.bitsFrom_append, State.bitsFrom_append, Nat.zero_add] at hbits
  obtain ⟨hdigits, hwalked, htail⟩ := hbits
  have hsame : (setOuts s 0 (symbolsOf chunks)).bitAt = s.bitAt := bitAt_setOuts _ s 0
  have hwalk' := hwalk.of_nodeAt_eq (setOuts_cfg (symbolsOf chunks) s 0) (nodeAt_setOuts _ s 0)
  refine ⟨?_, hlen, htail.congr hsame⟩
  rw [decodeBody_of_inner hroot hfits hinner, hlen, Nat.add_assoc, decodeWalk_of_spellsAll hall hdigits,
    Nat.zero_add, Nat.zero_add, decodeWalk_of_walk hwalk' _ _ _ _ _ (hwalked.congr hsame)]

/-- If the walk ends at ROOT's id with the bits, the DECODE succeeds (R138, R139). -/
theorem decode_of_codewords {rest : List Bool} (hl : s.cfg.Legal) (hroot : s.root ≠ s.cfg.nil)
    (hfits : s.bitLen ≤ s.cfg.bitsMax) (hinner : (s.nodeAt s.root).isLeaf = false) (hwalk : Walk s s.root rest s.root)
    (hstream : s.stream = digitsOf chunks ++ rest) :
    ∃ t, exec .decode s = .next t ∧ t.CompletedWith .ok 0 ∧ t.bitIdx = s.bitLen ∧
      t.outCount = chunks.length ∧ t.decoded chunks.length = symbolsOf chunks := by
  obtain ⟨hbody, hlen, -⟩ := decodeBody_of_codewords_walk hall hroot hfits hinner hwalk
    (hstream.trans (List.append_nil _).symm)
  rw [List.length_nil, decodeWalk_end_at_root] at hbody
  obtain ⟨hdecoded, -⟩ := hall.decoded_setOuts hl
  exact ⟨_, congrArg Host.Outcome.next hbody, ⟨rfl, rfl, rfl, rfl⟩, hlen.symm, rfl, hdecoded⟩

end

/-- Settles O47: the bits end with the walk, at ROOT's id. -/
theorem decodeOfCodewordsSucceeds : Obligations.DecodeOfCodewordsSucceeds :=
  fun _ _ _ hinv hroot hfits hinner hall => decode_of_codewords hall hinv.legal hroot hfits hinner

/-- Settles O48: the bits end with the walk, away from the root. -/
theorem decodeOfCutCodewordIsTruncated : Obligations.DecodeOfCutCodewordIsTruncated := by
  intro s chunks rest x hinv hroot hfits hinner hall hwalk hx hstream
  obtain ⟨hbody, hlen, -⟩ := decodeBody_of_codewords_walk hall hroot hfits hinner hwalk
    (hstream.trans (List.append_nil _).symm)
  rw [List.length_nil, decodeWalk_end_inside hx] at hbody
  obtain ⟨hdecoded, hbytes⟩ := hall.decoded_setOuts hinv.legal
  exact ⟨_, congrArg Host.Outcome.next hbody, ⟨rfl, rfl, rfl, rfl⟩, hlen.symm, rfl, hdecoded, hbytes⟩

/-- Settles O49: the bit after the walk asks for the absent child. -/
theorem decodeOfAbsentChildIsMalformed : Obligations.DecodeOfAbsentChildIsMalformed := by
  intro s chunks walked more d x hinv hroot hfits hinner hall hwalk hchild hstream
  obtain ⟨hbody, -, hbit, -⟩ := decodeBody_of_codewords_walk hall hroot hfits hinner hwalk hstream
  rw [List.length_cons, decodeWalk_absent hbit (by rw [nodeAt_setOuts, setOuts_cfg, hchild])] at hbody
  obtain ⟨hdecoded, hbytes⟩ := hall.decoded_setOuts hinv.legal
  exact ⟨_, congrArg Host.Outcome.next hbody, ⟨rfl, rfl, rfl, rfl⟩, rfl, rfl, hdecoded, hbytes⟩

/-! ## A leaf root -/

section
variable {s : State} (hroot : s.root ≠ s.cfg.nil) (hfits : s.bitLen ≤ s.cfg.bitsMax)
  (hleaf : (s.nodeAt s.root).isLeaf = true)
include hroot hfits hleaf

/-- With a leaf root, a DECODE whose first `m` bits are 0 comes to bit `m` with a symbol written for each. -/
theorem decodeBody_of_zeros {m n : Nat} (hlen : s.bitLen = m + n) (hzero : ∀ j < m, s.bitAt j = false) :
    decodeBody s = decodeSingle s.root n m m (setOuts s 0 (List.replicate m (s.nodeAt s.root).sym)) := by
  have hrun := decodeSingle_of_zeros s.root (n := n) (m := m) (i := 0) (k := 0) (s := s) fun j _ hj =>
    hzero j (by omega)
  rw [decodeBody_of_leaf hroot hfits hleaf, hlen, hrun, Nat.zero_add]

/-- At a leaf root, bits that are all 0 decode to the root's symbol, once each. -/
theorem decode_of_all_zeros (hl : s.cfg.Legal) (hzero : ∀ i < s.bitLen, s.bitAt i = false) :
    ∃ t, exec .decode s = .next t ∧ t.CompletedWith .ok 0 ∧ t.bitIdx = s.bitLen ∧ t.outCount = s.bitLen ∧
      t.decoded s.bitLen = List.replicate s.bitLen (s.nodeAt s.root).sym := by
  have hbody := decodeBody_of_zeros hroot hfits hleaf (n := 0) rfl hzero
  obtain ⟨hdecoded, -⟩ := decoded_setOuts_replicate hl (nodeAt_sym_lt s s.root) s.bitLen
  exact ⟨_, congrArg Host.Outcome.next hbody, ⟨rfl, rfl, rfl, rfl⟩, rfl, rfl, hdecoded⟩

end

/-- Settles O50: the loop passes the bits 0 and stops at the first bit 1, if there is one. -/
theorem decodeOfOneLeafCountsZeros : Obligations.DecodeOfOneLeafCountsZeros := by
  intro s hinv hroot hfits hleaf
  refine ⟨decode_of_all_zeros hroot hfits hleaf hinv.legal, fun i hi hone hzero => ?_⟩
  have hlen : s.bitLen = i + (s.bitLen - i - 1 + 1) := by omega
  have hbody := decodeBody_of_zeros hroot hfits hleaf hlen hzero
  rw [decodeSingle_one (by rw [bitAt_setOuts, hone])] at hbody
  obtain ⟨hdecoded, hbytes⟩ := decoded_setOuts_replicate hinv.legal (nodeAt_sym_lt s s.root) i
  exact ⟨_, congrArg Host.Outcome.next hbody, ⟨rfl, rfl, rfl, rfl⟩, rfl, rfl, hdecoded, hbytes⟩

end Sys2Proof.Machine
end

section
/-! The round trip (44_decoder.md R142): the codewords GENCODES writes for a tree are codewords from its root, so DECODE
gives back what HostEncode was given. -/

namespace Sys2Proof.Machine

/-! ## The codewords of a tree in the arena -/

/-- A codeword of an inner child, after the digit that leads to it. -/
theorem Spells.cons {s : State} {a b sym : Nat} {d : Bool} {ds : List Bool} (h : Spells s b ds sym)
    (hchild : childOf (s.nodeAt a) d = b) (hb : b ≠ s.cfg.nil) (hinner : (s.nodeAt b).isLeaf = false) :
    Spells s a (d :: ds) sym := by
  obtain ⟨init, e, c, leaf, rfl, hwalk, hend⟩ := h
  exact ⟨d :: init, e, c, leaf, rfl, .go hchild hb hinner hwalk, hend⟩

/-- A tree's id is a slot's, so a node that has it as a child has that child. -/
theorem HTree.InArena.id_ne_nil {s : State} {T : HTree} (h : T.InArena s) : T.id ≠ s.cfg.nil := by
  have := h.id_lt
  rw [Config.nil_eq_nodeMax]
  omega

/-- The path below a child, after the digit that leads to the child, is a codeword from the parent: it ends at the
child if that is a leaf, and goes on with a codeword from the child if not. -/
theorem HTree.InArena.spells_below {s : State} {a : Nat} {d : Bool} {T : HTree} (h : T.InArena s)
    (hchild : childOf (s.nodeAt a) d = T.id) {q : Nat × List Bool} (hq : q ∈ T.paths)
    (hinner : (s.nodeAt T.id).isLeaf = false → Spells s T.id q.2 q.1) : Spells s a (d :: q.2) q.1 := by
  have hne := h.id_ne_nil
  cases T with
  | leaf id sym w =>
    obtain rfl := List.mem_singleton.1 hq
    obtain ⟨_, hn⟩ := h
    exact ⟨[], d, a, id, rfl, .stop a, hchild, hne, by rw [hn], by rw [hn]⟩
  | node id l r =>
    obtain ⟨⟨_, hn⟩, _⟩ := h
    have hnot : (s.nodeAt id).isLeaf = false := by rw [hn]
    exact (hinner hnot).cons hchild hne hnot

/-- The paths of a tree with an internal root are codewords from that root. -/
theorem HTree.InArena.spells_of_paths {s : State} : ∀ {T : HTree}, T.InArena s → (s.nodeAt T.id).isLeaf = false →
    ∀ p ∈ T.paths, Spells s T.id p.2 p.1
  | .leaf id sym w, ⟨_, hn⟩, hinner, _, _ => by simp [hn] at hinner
  | .node id l r, ⟨⟨_, hn⟩, hl, hr⟩, _, p, hp => by
    simp only [paths, List.mem_append, List.mem_map] at hp
    obtain ⟨q, hq, rfl⟩ | ⟨q, hq, rfl⟩ := hp
    · exact hl.spells_below (by rw [id_node, hn]; rfl) hq fun hinner => hl.spells_of_paths hinner q hq
    · exact hr.spells_below (by rw [id_node, hn]; rfl) hq fun hinner => hr.spells_of_paths hinner q hq

/-! ## Decoding an encoding -/

/-- The codewords of a table for a sequence, each with its symbol. -/
def chunksOf (s : State) (seq : List Nat) : List (List Bool × Nat) := seq.map fun sym => ((s.codeAt sym).digits, sym)

theorem digitsOf_chunksOf (s : State) (seq : List Nat) :
    digitsOf (chunksOf s seq) = seq.flatMap fun sym => (s.codeAt sym).digits := by
  simp [digitsOf, chunksOf, List.flatMap, Function.comp_def]

theorem symbolsOf_chunksOf (s : State) (seq : List Nat) : symbolsOf (chunksOf s seq) = seq := by
  simp [symbolsOf, chunksOf, Function.comp_def]

/-- CODE holds a codeword of the tree's table for each of its symbols. -/
theorem mem_table_of_mem_symbols {s : State} {T : HTree} (hcodes : s.CodesOf T) (hnd : T.symbols.Nodup)
    (harena : T.InArena s) {sym : Nat} (h : sym ∈ T.symbols) : (sym, (s.codeAt sym).digits) ∈ T.table := by
  rw [← T.table_map_fst] at h
  obtain ⟨p, hp, rfl⟩ := List.mem_map.1 h
  rwa [codeAt_of_mem_table hcodes hnd harena hp, digits_codeOf]

/-- DECODE succeeds and OUT holds the sequence (R142). -/
def State.DecodesTo (s : State) (seq : List Nat) : Prop :=
  ∃ t, exec .decode s = .next t ∧ t.status.err = .ok ∧ t.outCount = seq.length ∧ t.decoded seq.length = seq

section
variable {s : State} (hl : s.cfg.Legal) (hroot : s.root ≠ s.cfg.nil) (hfits : s.bitLen ≤ s.cfg.bitsMax)
  {seq : List Nat} (hstream : s.stream = seq.flatMap fun sym => (s.codeAt sym).digits)
include hl hroot hfits hstream

/-- From an internal root DECODE gives a sequence back codeword by codeword. -/
theorem decode_of_inner_encoding (hinner : (s.nodeAt s.root).isLeaf = false)
    (hseq : ∀ sym ∈ seq, Spells s s.root (s.codeAt sym).digits sym) : s.DecodesTo seq := by
  have hall : SpellsAll s s.root (chunksOf s seq) := List.forall_mem_map.2 hseq
  obtain ⟨t, ht, ⟨-, -, hok, -⟩, -, hcount, hdecoded⟩ := decode_of_codewords hall hl hroot hfits hinner (.stop s.root)
    (by rw [hstream, digitsOf_chunksOf, List.append_nil])
  have hlen : (chunksOf s seq).length = seq.length := List.length_map _
  rw [hlen, symbolsOf_chunksOf] at hdecoded
  exact ⟨t, ht, hok, hcount.trans hlen, hdecoded⟩

/-- From a leaf root DECODE gives back a sequence of its symbol, whose codeword is "0", bit by bit. -/
theorem decode_of_leaf_encoding (hleaf : (s.nodeAt s.root).isLeaf = true)
    (hseq : ∀ sym ∈ seq, (s.codeAt sym).digits = [false] ∧ sym = (s.nodeAt s.root).sym) :
    s.DecodesTo seq := by
  have hzeros : s.stream = List.replicate seq.length false := by
    rw [hstream, List.flatMap_congr fun sym hsym => (hseq sym hsym).1, ← List.map_eq_flatMap, List.map_const']
  have hlen : s.bitLen = seq.length := by rw [← s.stream_length, hzeros, List.length_replicate]
  have hzero : ∀ i < s.bitLen, s.bitAt i = false := fun i hi =>
    List.eq_of_mem_replicate (hzeros ▸ s.bitAt_mem_stream hi)
  obtain ⟨t, ht, ⟨-, -, hok, -⟩, -, hcount, hdecoded⟩ := decode_of_all_zeros hroot hfits hleaf hl hzero
  rw [hlen] at hcount hdecoded
  exact ⟨t, ht, hok, hcount, hdecoded.trans (List.eq_replicate_of_mem fun sym hsym => (hseq sym hsym).2).symm⟩

end

/-- DECODE of an encoding with the table of the tree at ROOT gives the sequence back. -/
theorem decode_of_encoding {s : State} {T : HTree} {seq : List Nat} (hl : s.cfg.Legal) (hcodes : s.CodesOf T)
    (hnd : T.symbols.Nodup) (harena : T.InArena s) (hroot : T.id = s.root) (hseq : ∀ sym ∈ seq, sym ∈ T.symbols)
    (hfits : s.bitLen ≤ s.cfg.bitsMax) (hstream : s.stream = seq.flatMap fun sym => (s.codeAt sym).digits) :
    s.DecodesTo seq := by
  have htable : ∀ sym ∈ seq, (sym, (s.codeAt sym).digits) ∈ T.table := fun sym hsym =>
    mem_table_of_mem_symbols hcodes hnd harena (hseq sym hsym)
  have hne : s.root ≠ s.cfg.nil := hroot ▸ harena.id_ne_nil
  cases T with
  | leaf id sym w =>
    obtain rfl : id = s.root := hroot
    refine decode_of_leaf_encoding hl hne hfits hstream (by rw [harena.2]) fun x hx => ?_
    obtain ⟨hsym, hdigits⟩ := Prod.mk.inj (List.mem_singleton.1 (htable x hx))
    exact ⟨hdigits, by rw [hsym, harena.2]⟩
  | node id l r =>
    obtain rfl : id = s.root := hroot
    have hinner : (s.nodeAt s.root).isLeaf = false := by rw [harena.1.2]
    exact decode_of_inner_encoding hl hne hfits hstream hinner fun sym hsym =>
      harena.spells_of_paths hinner _ (htable sym hsym)

/-- Settles O52: BUILD plants a tree of the sequence's symbols and GENCODES its table, and DECODE of an encoding with
that table gives the sequence back. -/
theorem roundTripGivesTheSequenceBack : Obligations.RoundTripGivesTheSequenceBack := by
  intro s seq hinv hne hseq hlen hfreq
  have hpresent : ∀ sym ∈ seq, sym ∈ s.presentSyms := fun sym hsym => by
    rw [mem_presentSyms, freqAt_of_hostCount hfreq (hseq sym hsym)]
    exact ⟨hseq sym hsym, (List.count_pos_iff.2 hsym).ne'⟩
  obtain ⟨s1, T, hbuild, hs1, harena, hroot, -, -, hsyms, -⟩ := buildPlantsTheTree s hinv
    (List.ne_nil_of_mem (hpresent _ (List.head_mem hne))) (freqs_sum_of_hostCount hfreq hseq ▸ hlen)
  have hnd : T.symbols.Nodup := hsyms.nodup_iff.2 (presentSyms_nodup s)
  have hcfg1 : s1.cfg = s.cfg := by rw [hs1]
  obtain ⟨s2, hgen, hcodes, hs2⟩ := execGenCodes_tree (hcfg1 ▸ hinv.legal) (by rw [hs1]) harena hroot hnd
  have hcfg2 : s2.cfg = s1.cfg := by rw [hs2]
  have harena2 : T.InArena s2 := harena.of_nodeAt_eq hcfg2 (by rw [hs2]; rfl)
  have hmem : ∀ sym ∈ seq, sym ∈ T.symbols := fun sym hsym => hsyms.mem_iff.2 (hpresent sym hsym)
  have hvalid : ∀ sym ∈ seq, (s2.codeAt sym).valid = true := fun sym hsym =>
    codeAt_valid hcodes hnd harena2.symbols_lt (hmem sym hsym)
  refine ⟨s1, s2, _, hbuild, by rw [hs1], hgen, by rw [hs2], hostEncode_of_valid s2 seq hvalid, ?_⟩
  intro s3 hs3 hfits hstream
  have hcfg3 : s3.cfg = s2.cfg := by rw [hs3]
  have hcode3 : s3.codeAt = s2.codeAt := by rw [hs3]; rfl
  have harena3 : T.InArena s3 := harena2.of_nodeAt_eq hcfg3 (by rw [hs3]; rfl)
  have hroot3 : T.id = s3.root := by rw [hs3, hs2, hroot]
  have hcodes3 : s3.CodesOf T := fun sym hsym => hcode3 ▸ hcodes sym (hcfg3 ▸ hsym)
  have hcfg : s3.cfg = s.cfg := hcfg3.trans (hcfg2.trans hcfg1)
  have hlen3 : s3.bitLen ≤ s3.cfg.bitsMax := by rw [← s3.stream_length, hstream, hcfg]; exact hfits
  exact decode_of_encoding (hcfg ▸ hinv.legal) hcodes3 hnd harena3 hroot3 hmem hlen3 (hcode3 ▸ hstream)

end Sys2Proof.Machine
end

section
/-! A command that failed fails again (60_exceptions.md R149): a failure writes nothing that the command's checks, or
DECODE's loops, read. -/

namespace Sys2Proof.Machine

/-! ## DECODE's inputs -/

/-- What DECODE reads is the same in both states (44_decoder.md R134). -/
structure SameDecodeInputs (s u : State) : Prop where
  cfg : u.cfg = s.cfg
  root : u.root = s.root
  bitLen : u.bitLen = s.bitLen
  nodeAt : u.nodeAt = s.nodeAt
  bitAt : u.bitAt = s.bitAt

/-- Both states show the same code and detail. -/
def State.SameError (t u : State) : Prop := u.status.err = t.status.err ∧ u.errInfo = t.errInfo

theorem decodeFail_sameError (s u : State) (e : ErrCode) (info b : Nat) :
    (decodeFail e info b s).SameError (decodeFail e info b u) := ⟨rfl, rfl⟩

theorem decodeDone_sameError (s u : State) (b k : Nat) : (decodeDone b k s).SameError (decodeDone b k u) := ⟨rfl, rfl⟩

namespace SameDecodeInputs

theorem setOut {s u : State} (h : SameDecodeInputs s u) (k x y : Nat) :
    SameDecodeInputs (setOut s k x) (setOut u k y) where
  cfg := h.cfg
  root := h.root
  bitLen := h.bitLen
  nodeAt := by simp only [nodeAt_setOut, h.nodeAt]
  bitAt := by simp only [bitAt_setOut, h.bitAt]

theorem decodeSingle (r : Nat) : ∀ (n i k : Nat) {s u : State}, SameDecodeInputs s u →
    (decodeSingle r n i k s).SameError (decodeSingle r n i k u)
  | 0, i, k, s, u, _ => decodeDone_sameError s u i k
  | n + 1, i, k, s, u, h => by
    unfold Machine.decodeSingle
    rw [h.bitAt]
    split
    · exact decodeFail_sameError s u _ i i
    · exact decodeSingle r n (i + 1) (k + 1) (h.setOut k _ _)

theorem decodeWalk (r : Nat) : ∀ (n i k cur start : Nat) {s u : State}, SameDecodeInputs s u →
    (decodeWalk r n i k cur start s).SameError (decodeWalk r n i k cur start u)
  | 0, i, k, cur, start, s, u, _ => by
    unfold Machine.decodeWalk
    split
    · exact decodeDone_sameError s u i k
    · exact decodeFail_sameError s u _ start i
  | n + 1, i, k, cur, start, s, u, h => by
    unfold Machine.decodeWalk
    simp only [h.bitAt, h.nodeAt, h.cfg]
    split
    · exact decodeFail_sameError s u _ i i
    · split
      · exact decodeWalk r n (i + 1) (k + 1) r (i + 1) (h.setOut k _ _)
      · exact decodeWalk r n (i + 1) k _ start h

/-- DECODE ends with the same code and detail on the same inputs. -/
theorem decodeBody {s u : State} (h : SameDecodeInputs s u) : (decodeBody s).SameError (decodeBody u) := by
  unfold Machine.decodeBody
  rw [h.root, h.bitLen, h.nodeAt, h.cfg]
  split
  · exact decodeFail_sameError s u _ _ 0
  · split
    · exact decodeFail_sameError s u _ _ 0
    · split
      · exact decodeSingle _ _ 0 0 h
      · exact decodeWalk _ _ 0 0 _ 0 h

/-- A DECODE writes none of its inputs, and neither does the acceptance of the next command. -/
theorem of_decodeEnds {s t : State} (h : DecodeEnds s t) (w : Word) : SameDecodeInputs s (accept w t) := by
  rw [h.frame]
  exact ⟨rfl, rfl, rfl, rfl, rfl⟩

end SameDecodeInputs

/-! ## Failing again, command by command -/

/-- The command, accepted in the state `t`, ends with the code and detail that `t` shows (R149). -/
def FailsAgain (i : Instr) (t : State) : Prop := ∃ u, exec i (accept (encode i) t) = .next u ∧ t.SameError u

/-- BUILD finds the overflow in every state with the same counts (42_tree_builder.md R117). -/
theorem execBuild_of_overflow {s : State} {sym : Nat} (hpresent : s.present ≠ 0)
    (hsym : firstOverflow (2 ^ s.cfg.weightW) s.freqs 0 0 = some sym) :
    execBuild s = .next (raise .weightOverflow sym (clearValid s)) := by
  obtain ⟨hzero, _⟩ | ⟨_, sym', hsym', he⟩ | ⟨_, hnone, _⟩ := execBuild_cases s
  · exact absurd hzero hpresent
  · obtain rfl : sym = sym' := Option.some.inj (hsym.symm.trans hsym')
    exact he
  · exact absurd (hsym.symm.trans hnone) (by simp)

/-- A failed BUILD changes only flags, and its checks read only FREQ (42_tree_builder.md R121). -/
theorem build_failsAgain {s t : State} (he : execBuild s = .next t) (herr : t.status.err ≠ .ok) :
    FailsAgain .build t := by
  obtain ⟨hzero, hx⟩ | ⟨hpresent, sym, hsym, hx⟩ | ⟨_, _, hx⟩ := execBuild_cases s <;> cases hx ▸ he
  · exact ⟨_, (failedBuildChangesOnlyFlags _).1 (present_eq_zero_iff.1 hzero), rfl, rfl⟩
  · exact ⟨_, execBuild_of_overflow hpresent hsym, rfl, rfl⟩
  · exact absurd rfl herr

/-- A GENCODES fails only without a tree, and leaves TREE_VALID = 0 (43_code_generator.md R131). -/
theorem genCodes_failsAgain {s t : State} (he : execGenCodes s = .next t) (herr : t.status.err ≠ .ok) :
    FailsAgain .genCodes t := by
  obtain ⟨hv, hx⟩ | ⟨_, _, _, hx⟩ | ⟨_, _, hx⟩ := execGenCodes_cases s <;> cases hx ▸ he
  · exact ⟨_, genCodesWithoutTreeFails _ hv, rfl, rfl⟩
  · exact absurd rfl herr

/-- DECODE's result, success or failure, is the same on the inputs it left. -/
theorem decode_failsAgain (s : State) : FailsAgain .decode (decodeBody s) :=
  ⟨_, rfl, (SameDecodeInputs.of_decodeEnds (decodeBody_ends s) _).decodeBody⟩

/-- A failed PQ_INSERT leaves HEAP_SIZE (41_priority_queue.md R115). -/
theorem pqInsert_failsAgain {id : Nat} {s t : State} (he : execPqInsert id s = .next t) (herr : t.status.err ≠ .ok) :
    FailsAgain (.pqInsert id) t := by
  obtain ⟨hbad, hx⟩ | ⟨hid, hfull, hx⟩ | ⟨_, _, hx⟩ := execPqInsert_cases id s <;> cases hx ▸ he
  · exact ⟨_, (pqInsertFailsByName _ id).1 hbad, rfl, rfl⟩
  · exact ⟨_, (pqInsertFailsByName _ id).2 hid hfull, rfl, rfl⟩
  · exact absurd rfl herr

/-- A PQ_EXTRACT fails only on the empty queue, and leaves it empty (41_priority_queue.md R116). -/
theorem pqExtract_failsAgain {s t : State} (he : execPqExtract s = .next t) (herr : t.status.err ≠ .ok) :
    FailsAgain .pqExtract t := by
  obtain ⟨hz, hx⟩ | ⟨_, hx⟩ := execPqExtract_cases s <;> cases hx ▸ he
  · exact ⟨_, pqExtractOnEmptyQueueFails _ hz, rfl, rfl⟩
  · exact absurd rfl herr

/-- Settles O10: no failure writes what decided it. NOP and PQ_CLEAR never fail. -/
theorem failedCommandFailsAgain : Obligations.FailedCommandFailsAgain := by
  intro i s t he herr
  cases i with
  | nop => cases he; exact absurd rfl herr
  | build => exact build_failsAgain he herr
  | genCodes => exact genCodes_failsAgain he herr
  | decode => cases he; exact decode_failsAgain s
  | pqClear => cases he; exact absurd rfl herr
  | pqInsert id => exact pqInsert_failsAgain he herr
  | pqExtract => exact pqExtract_failsAgain he herr

end Sys2Proof.Machine
end

section
/-! Reset (70_reset_and_hazards.md R158): what an edge of the reset input leaves, and what the host is answered while
the input is asserted. -/

namespace Sys2Proof.Machine

/-- A turn takes the first event of the script (40_command_cycle.md R103). -/
theorem step_of_event {s : State} {e : Event} {rest : List Event} (h : s.script = e :: rest) :
    step s = takeEvent exec e { s with script := rest } := by
  simp only [step, turn, h]

/-! ## The block at an edge of the reset input -/

section
variable (s : State) (asserted : Bool)

/-- An edge gives every register its reset value (10_state.md R62). -/
theorem readReg_resetBlock (r : Reg) :
    readReg { resetBlock s with inReset := asserted } r = readReg (State.resetWith s.cfg) r := by
  cases r <;> rfl

/-- An edge leaves nothing listed in any memory. -/
theorem memoryAt_resetBlock (off : Nat) : State.memoryAt { resetBlock s with inReset := asserted } off = [] := by
  unfold State.memoryAt
  split_ifs <;> rfl

/-- An edge makes every byte of memory the free value of the new reset (10_state.md R63). -/
theorem memByte_resetBlock (off : Nat) :
    State.memByte { resetBlock s with inReset := asserted } off = Config.powerOn (s.epoch + 1) off := by
  rw [State.memByte, memoryAt_resetBlock]
  rfl

end

/-! ## While the input is asserted -/

theorem admission_of_inReset {s : State} (h : s.inReset = true) (addr bytes : Nat) :
    admission s addr bytes = .error .hostAccessDuringReset :=
  if_pos h

theorem hostAccess_of_inReset {s : State} (h : s.inReset = true) (a : Access) :
    hostAccess a s = .refused .hostAccessDuringReset := by
  cases a <;> simp only [hostAccess, admission_of_inReset h]

/-- Settles O28: either edge of the reset input gives the block that `resetBlock` describes, and while the input is
asserted no host access is admitted. -/
theorem resetAbandonsTheCommand : Obligations.ResetAbandonsTheCommand := by
  refine fun s a rest => ⟨fun hs => ?assert, fun hr hs => ?access, fun hr hs => ?release⟩
  case assert =>
    exact ⟨assertReset { s with script := rest }, step_of_event hs, rfl, rfl, rfl, readReg_resetBlock _ true, rfl,
      memByte_resetBlock _ true⟩
  case access => exact (step_of_event hs).trans (hostAccess_of_inReset (s := { s with script := rest }) hr a)
  case release =>
    have hstep : step s = .next { resetBlock { s with script := rest } with inReset := false } :=
      (step_of_event hs).trans (congrArg Host.Outcome.next (if_pos hr))
    exact ⟨_, hstep, rfl, rfl, readReg_resetBlock _ false, rfl, memByte_resetBlock _ false⟩

end Sys2Proof.Machine
end
